-- ==== Sys2Proof/Word.lean ====
section
/-! DEFINITION. The word of the block: a byte. Every access of every address space is one byte wide
(spec/20_memory.md R50, R54), so the block has no wider machine word. -/

namespace Sys2Proof

/-- "A *byte* is an unsigned integer 0 .. 255" (R5). -/
abbrev Byte := BitVec 8

end Sys2Proof
end

