-- ==== Sys2Proof/Config.lean ====
section
/-! DEFINITION. The configuration record `Cfg` of spec/00_scope.md R4, the reference configuration `CFG_REF`,
the per-port register map `PortConfig` (R79, R80), and the model's one free value. -/

namespace Sys2Proof

/-- `isrOrder` (R4, R156): which handler runs first when both are requested. -/
inductive IsrOrder where
  | either
  | rxFirst
  | txFirst
  deriving DecidableEq, Repr

/-- Where `WRITEBUF` adds the result of an inner `WRITE` to its count: the spec's two texts differ, and the model has both (log entry 31). -/
inductive BufCount where
  /-- When the `WRITE` is called: the return slot holds `Buf(rest, n + 1)`, "each inner WRITE returns 1" (R121). -/
  | atCall
  /-- When the `WRITE` returns: the return slot holds `Buf(rest, n)`, and "the inner result is added to the outer count" (R36). -/
  | atReturn
  deriving DecidableEq, Repr

/-- `PortConfig` (R4, R79): the `IO` address of each register and the bit position of each named field. -/
structure PortConfig where
  statusAddr : Nat
  ctrlAddr   : Nat
  frameAddr  : Nat
  divLoAddr  : Nat
  divHiAddr  : Nat
  dataAddr   : Nat
  rxcBit     : Nat
  txcBit     : Nat
  dreBit     : Nat
  u2xBit     : Nat
  rxcieBit   : Nat
  dreieBit   : Nat
  rxenBit    : Nat
  txenBit    : Nat
  deriving DecidableEq, Repr

namespace PortConfig

/-- The six register addresses of the port. -/
def addresses (io : PortConfig) : List Nat :=
  [io.statusAddr, io.ctrlAddr, io.frameAddr, io.divLoAddr, io.divHiAddr, io.dataAddr]

/-- The bit positions named in `STATUS`. -/
def statusBits (io : PortConfig) : List Nat := [io.rxcBit, io.txcBit, io.dreBit, io.u2xBit]

/-- The bit positions named in `CTRL`. -/
def ctrlBits (io : PortConfig) : List Nat := [io.rxcieBit, io.dreieBit, io.rxenBit, io.txenBit]

/-- R4's constraint on `PortConfig`: "distinct addresses; distinct bits within one register", each
register being 8 bits wide (R79). -/
def wf (io : PortConfig) : Bool :=
  decide io.addresses.Nodup &&
  decide io.statusBits.Nodup && io.statusBits.all (· < 8) &&
  decide io.ctrlBits.Nodup && io.ctrlBits.all (· < 8)

/-- The reference `PortConfig` of R80. -/
def ref : PortConfig :=
  { statusAddr := 0xC0, ctrlAddr := 0xC1, frameAddr := 0xC2
    divLoAddr := 0xC4, divHiAddr := 0xC5, dataAddr := 0xC6
    rxcBit := 7, txcBit := 6, dreBit := 5, u2xBit := 1
    rxcieBit := 7, dreieBit := 5, rxenBit := 4, txenBit := 3 }

end PortConfig

/-- The configuration record `Cfg` of R4 (its field `PortConfig` stands in each port: one per port, R184).
`pgm` is the content of program space written as data: the nonzero bytes, by rising address
(a byte that is not listed is 0; log entry 6). `bufCount` is no parameter of R4: it is the model's, and names which of two
texts of the spec holds (log entry 31). -/
structure Cfg where
  rxCap        : Nat
  txCap        : Nat
  fClk         : Nat
  divBits      : Nat
  tolSwitchPpm : Nat
  tolFailPpm   : Option Nat
  pgmAddrBits  : Nat
  pgm          : List Host.Cell
  isrOrder     : IsrOrder
  bufCount     : BufCount
  deriving DecidableEq, Repr

namespace Cfg

/-- R4: "power of two, 2 <= `RX_CAP`" (the same for `TX_CAP`). -/
def capWf (n : Nat) : Bool := decide (2 ≤ n) && decide (2 ^ Nat.log2 n = n)

/-- R4's constraint on the two tolerances: `none`, or an integer not below `TOL_SWITCH_PPM`. -/
def tolWf (c : Cfg) : Bool :=
  match c.tolFailPpm with
  | none => true
  | some t => decide (c.tolSwitchPpm ≤ t)

/-- `DIV_MAX = 2^DIV_BITS - 1` (R4). -/
def divMax (c : Cfg) : Nat := 2 ^ c.divBits - 1

/-- `CFG_REF` (R4), with an empty program space and R121's count (log entry 31). -/
def ref : Cfg :=
  { rxCap := 64, txCap := 64, fClk := 16000000, divBits := 12
    tolSwitchPpm := 20000, tolFailPpm := some 50000
    pgmAddrBits := 16, pgm := [], isrOrder := .either, bufCount := .atCall }

end Cfg

namespace Config

/-- FREE VALUE (log entries 8, 24). Which of several enabled steps comes next when nothing outside has
said, or that none comes yet: steps of different agents "interleave in any order their guards allow" (R5, R58), and
that an enabled handler or engine step is ever taken is never a fact of the block (R8). It is applied to the counter
`State.tick`; it has no body, so nothing can be proved about any value of it. -/
opaque freePick : Nat → Nat

/-- `READ_NONE` (R4, R72): the sentinel of `READ` and `PEEK` on an empty buffer. -/
def readNone : Int := -1

end Config

end Sys2Proof
end

