-- ==== Sys2Proof/Syntax.lean ====
section
/-! DEFINITION. The operations of the block: one constructor of `Instr` for each of the 26 rows of
spec/opcode_table.json (spec/30_encoding.md R71, R73), with the types of their operands. -/

namespace Sys2Proof

/-- The number of data bits of a frame: "data bits ∈ {5,6,7,8}" (R29, R74). -/
inductive DataBits where
  | five
  | six
  | seven
  | eight
  deriving DecidableEq, Repr

/-- The parity scheme: "parity ∈ {none, even, odd}" (R74). -/
inductive Parity where
  | none
  | even
  | odd
  deriving DecidableEq, Repr

/-- The number of stop bits: "stop bits ∈ {1,2}" (R74). -/
inductive StopBits where
  | one
  | two
  deriving DecidableEq, Repr

/-- `nbits` as a number. -/
def DataBits.width : DataBits → Nat
  | .five => 5
  | .six => 6
  | .seven => 7
  | .eight => 8

/-- `stop` as a number. -/
def StopBits.count : StopBits → Nat
  | .one => 1
  | .two => 2

/-- A frame format: one of exactly 24 values (R74, R76, R78). -/
structure FrameFormat where
  size   : DataBits
  parity : Parity
  stop   : StopBits
  deriving DecidableEq, Repr

/-- `DEFAULT_FRAME = 8N1` (R4, R76). -/
def FrameFormat.default8N1 : FrameFormat := { size := .eight, parity := .none, stop := .one }

/-- A frame, the record `{nbits, data, parity, stop}` (R29). The parity bit is `none`, or the bit's value. -/
structure Frame where
  size   : DataBits
  data   : Byte
  parity : Option Bool
  stop   : StopBits
  deriving DecidableEq, Repr

/-- The operand `q` of format `Q` (R71): which ring buffer. -/
inductive Queue where
  | rx
  | tx
  deriving DecidableEq, Repr

/-- The two forms of `RB.CLEAR` (R96): the operand `form` of its row of spec/opcode_table.json. -/
inductive ClearForm where
  | clear0
  | clearH
  deriving DecidableEq, Repr

/-- The agents that take steps (R6). `caller` is R73's "caller's" (`RB.*`) and `pure` its "pure" (`LC.*`). -/
inductive Agent where
  | fg
  | isrRx
  | isrTx
  | hwTx
  | hwRx
  | caller
  | pure
  deriving DecidableEq, Repr

/-- The 26 operations of R73. -/
inductive Instr where
  | beginCmd (baud : Nat) (fmt : FrameFormat)
  | endCmd
  | available
  | peek
  | read
  | write (b : Byte)
  | writebuf (bs : List Byte)
  | flush
  | ready
  | printpgm (a : Nat)
  | rbPush (q : Queue) (b : Byte)
  | rbPop (q : Queue)
  | rbPeek (q : Queue)
  | rbAvailable (q : Queue)
  | rbIsfull (q : Queue)
  | rbIsempty (q : Queue)
  | rbClear (q : Queue) (form : ClearForm)
  | lcDivisor (baud : Nat)
  | lcFrame (fmt : FrameFormat)
  | isrRx
  | isrTx
  | hwTxload
  | hwTxdone
  | hwRxarrive (f : Frame)
  | gieSet
  | gieClr
  deriving DecidableEq, Repr

/-- The pseudo-operation `BEGIN baud`, which expands to `BEGIN baud, 8N1` (R85). -/
def Instr.beginDefault (baud : Nat) : Instr := .beginCmd baud .default8N1

/-- The agent column of R73. -/
def Instr.agent : Instr → Agent
  | .beginCmd _ _ | .endCmd | .available | .peek | .read | .write _ | .writebuf _ | .flush | .ready
  | .printpgm _ | .rbClear _ _ | .gieSet | .gieClr => .fg
  | .rbPush _ _ | .rbPop _ | .rbPeek _ | .rbAvailable _ | .rbIsfull _ | .rbIsempty _ => .caller
  | .lcDivisor _ | .lcFrame _ => .pure
  | .isrRx => .isrRx
  | .isrTx => .isrTx
  | .hwTxload | .hwTxdone => .hwTx
  | .hwRxarrive _ => .hwRx

/-- "Only the rows `0x01` to `0x0A`, `0x50` and `0x51` are commands a host can issue" (R73). -/
def Instr.hostCommand : Instr → Bool
  | .beginCmd _ _ | .endCmd | .available | .peek | .read | .write _ | .writebuf _ | .flush | .ready
  | .printpgm _ | .gieSet | .gieClr => true
  | .rbPush _ _ | .rbPop _ | .rbPeek _ | .rbAvailable _ | .rbIsfull _ | .rbIsempty _ | .rbClear _ _
  | .lcDivisor _ | .lcFrame _ | .isrRx | .isrTx | .hwTxload | .hwTxdone | .hwRxarrive _ => false

/-- The internal ring-buffer operations that write a buffer. A host never names them (R73, duty H-7 of R186). -/
def Instr.bareBufferWrite : Instr → Bool
  | .rbPush _ _ | .rbPop _ | .rbClear _ _ => true
  | .beginCmd _ _ | .endCmd | .available | .peek | .read | .write _ | .writebuf _ | .flush | .ready
  | .printpgm _ | .gieSet | .gieClr | .rbPeek _ | .rbAvailable _ | .rbIsfull _ | .rbIsempty _
  | .lcDivisor _ | .lcFrame _ | .isrRx | .isrTx | .hwTxload | .hwTxdone | .hwRxarrive _ => false

/-- Why bytes spell no operation record (R78, R82, and the operand layout of log entry 13). -/
inductive DecodeError where
  /-- The record has no byte at all. -/
  | emptyRecord
  /-- The operation code is not in R73 (R82: "a decoder of operation records returns `invalid`"). -/
  | invalidOpcode
  /-- The operand list stops before its end. -/
  | truncated
  /-- A number operand with a leading zero group: not the one spelling of its value (log entry 13). -/
  | nonMinimalNumber
  /-- One of the 232 reserved frame-format values (R78). -/
  | reservedFormat
  /-- The buffer operand is neither `rx` nor `tx` (for `RB.CLEAR`, with its form; log entry 33). -/
  | reservedQueue
  /-- The frame operand of `HW.RXARRIVE` is no frame (R29): reserved bits set, or data wider than `nbits`. -/
  | reservedFrame
  deriving DecidableEq, Repr

end Sys2Proof
end

