-- ==== Sys2Proof/WellFormed.lean ====
section
/-! DEFINITION. What makes an operation record well-formed beyond its types: the ranges that
spec/30_encoding.md R71, R72 and spec/10_state.md R29 give its operands, and the constraints of R4 on `Cfg`. -/

namespace Sys2Proof

/-- R29: `data` is "an unsigned integer of `nbits` bits". -/
def Frame.wf (f : Frame) : Bool := decide (f.data.toNat < 2 ^ f.size.width)

/-- An operation record is well-formed under `c`: a program-space address is `PGM_ADDR_BITS` bits wide
(R71 format `A`, R53) and a frame is a frame (R29). Every other operand is legal by its type. -/
def Instr.wf (c : Cfg) : Instr → Bool
  | .printpgm a => decide (a < 2 ^ c.pgmAddrBits)
  | .hwRxarrive f => f.wf
  | .beginCmd _ _ | .endCmd | .available | .peek | .read | .write _ | .writebuf _ | .flush | .ready
  | .rbPush _ _ | .rbPop _ | .rbPeek _ | .rbAvailable _ | .rbIsfull _ | .rbIsempty _ | .rbClear _ _
  | .lcDivisor _ | .lcFrame _ | .isrRx | .isrTx | .hwTxload | .hwTxdone | .gieSet | .gieClr => true

end Sys2Proof
end

