-- ==== Sys2Proof/Decode.lean ====
section
/-! DEFINITION. Operation records as bytes: the decoder, total on any bytes and rejecting by name, then
the encoder, both from spec/30_encoding.md R71 to R78 and R82. The operation code is the first byte (R71, R73); the
frame-format byte is R75 to R77. The byte layout of the other operands is the model's (log entry 13):
a number is written in groups of seven bits, least significant group first, bit 7 of a byte saying that another
group follows; a byte sequence is its length, then its bytes; a buffer is 0 for `rx`, 1 for `tx`, and in `RB.CLEAR` 2 more for the form
`CLEARH` (log entry 33); a frame is a header byte (the fields SIZE and STOP of R75, and in PAR 00 no parity bit, 10 parity bit 0, 11 parity bit
1), then its data byte. -/

namespace Sys2Proof

/-! ## The frame-format value (R75 to R77) -/

/-- `SIZE` (R75), as a number 0 .. 3. -/
def DataBits.code : DataBits → Nat
  | .five => 0
  | .six => 1
  | .seven => 2
  | .eight => 3

/-- The number of data bits a `SIZE` field names: `nbits = 5 + fmt[2:1]` (R77). -/
def DataBits.ofCode (n : Nat) : DataBits :=
  match n with
  | 0 => .five
  | 1 => .six
  | 2 => .seven
  | _ => .eight

/-- `PAR` (R75). -/
def Parity.code : Parity → Nat
  | .none => 0
  | .even => 2
  | .odd => 3

/-- The parity scheme a `PAR` field names; `0b01` is reserved (R75). -/
def Parity.ofCode (n : Nat) : Option Parity :=
  match n with
  | 0 => some Parity.none
  | 2 => some Parity.even
  | 3 => some Parity.odd
  | _ => Option.none

/-- `STOP` (R75). -/
def StopBits.code : StopBits → Nat
  | .one => 0
  | .two => 1

/-- The number of stop bits a `STOP` field names: `stop = 1 + fmt[3]` (R77). -/
def StopBits.ofCode (n : Nat) : StopBits :=
  match n with
  | 0 => .one
  | _ => .two

/-- `v[hi:lo]` (R5), as a number. -/
def byteField (v : Byte) (hi lo : Nat) : Nat := v.toNat / 2 ^ lo % 2 ^ (hi - lo + 1)

/-- `decodeFrame` (R77): defined when `fmt[7:6] = 0`, `fmt[0] = 0` and `fmt[5:4] != 0b01`. -/
def decodeFrame (fmt : Byte) : Option FrameFormat :=
  if byteField fmt 7 6 = 0 ∧ byteField fmt 0 0 = 0 then
    match Parity.ofCode (byteField fmt 5 4) with
    | none => none
    | some par =>
      some { size := .ofCode (byteField fmt 2 1), parity := par, stop := .ofCode (byteField fmt 3 3) }
  else none

/-- `encodeFrame` (R77): `(PAR << 4) | ((stop - 1) << 3) | ((nbits - 5) << 1)`. -/
def encodeFrame (f : FrameFormat) : Byte :=
  BitVec.ofNat 8 (f.parity.code * 16 + f.stop.code * 8 + f.size.code * 2)

/-! ## Number operands -/

/-- A number from its groups of seven bits; the last group of a longer number is not zero. -/
def decodeNat : List Byte → Except DecodeError (Nat × List Byte)
  | [] => .error .truncated
  | b :: bs =>
    if b.toNat < 128 then .ok (b.toNat, bs)
    else
      match decodeNat bs with
      | .error e => .error e
      | .ok (n, rest) =>
        if n = 0 then .error .nonMinimalNumber else .ok (b.toNat - 128 + 128 * n, rest)

/-- The groups of `n`; `fuel` bounds their number and `n` itself is always enough. -/
def encodeNatFuel : Nat → Nat → List Byte
  | 0, n => [BitVec.ofNat 8 n]
  | fuel + 1, n =>
    if n < 128 then [BitVec.ofNat 8 n]
    else BitVec.ofNat 8 (n % 128 + 128) :: encodeNatFuel fuel (n / 128)

/-- The groups of `n`. -/
def encodeNat (n : Nat) : List Byte := encodeNatFuel n n

/-! ## The other operands -/

/-- One byte operand (formats `B`, `Q`, and the second byte of `F`). -/
def decodeByte : List Byte → Except DecodeError (Byte × List Byte)
  | [] => .error .truncated
  | b :: bs => .ok (b, bs)

/-- A byte sequence (format `S`). -/
def decodeSeq (bs : List Byte) : Except DecodeError (List Byte × List Byte) :=
  match decodeNat bs with
  | .error e => .error e
  | .ok (n, rest) =>
    if rest.length < n then .error .truncated else .ok (rest.take n, rest.drop n)

/-- A frame-format operand; a reserved value is refused (R78). -/
def decodeFormat (bs : List Byte) : Except DecodeError (FrameFormat × List Byte) :=
  match decodeByte bs with
  | .error e => .error e
  | .ok (b, rest) =>
    match decodeFrame b with
    | none => .error .reservedFormat
    | some f => .ok (f, rest)

/-- A buffer operand (format `Q`). -/
def decodeQueue (bs : List Byte) : Except DecodeError (Queue × List Byte) :=
  match decodeByte bs with
  | .error e => .error e
  | .ok (b, rest) =>
    match b.toNat with
    | 0 => .ok (.rx, rest)
    | 1 => .ok (.tx, rest)
    | _ => .error .reservedQueue

/-- The operand byte of `RB.CLEAR` (format `Q`): bit 0 names the buffer, bit 1 the form (log entry 33). -/
def decodeClear (bs : List Byte) : Except DecodeError ((Queue × ClearForm) × List Byte) :=
  match decodeByte bs with
  | .error e => .error e
  | .ok (b, rest) =>
    match b.toNat with
    | 0 => .ok ((.rx, .clear0), rest)
    | 1 => .ok ((.tx, .clear0), rest)
    | 2 => .ok ((.rx, .clearH), rest)
    | 3 => .ok ((.tx, .clearH), rest)
    | _ => .error .reservedQueue

/-- The parity bit of a frame's header byte. -/
def parityBitOfCode (n : Nat) : Option (Option Bool) :=
  match n with
  | 0 => some none
  | 2 => some (some false)
  | 3 => some (some true)
  | _ => none

/-- The `PAR` field of a frame's header byte. -/
def parityBitCode : Option Bool → Nat
  | none => 0
  | some false => 2
  | some true => 3

/-- A frame from its header byte and its data byte. -/
def frameOfBytes (h d : Byte) : Option Frame :=
  if byteField h 7 6 = 0 ∧ byteField h 0 0 = 0 then
    match parityBitOfCode (byteField h 5 4) with
    | none => none
    | some par =>
      if d.toNat < 2 ^ (DataBits.ofCode (byteField h 2 1)).width then
        some { size := .ofCode (byteField h 2 1), data := d, parity := par
               stop := .ofCode (byteField h 3 3) }
      else none
  else none

/-- A frame operand (format `F`). -/
def decodeFrameOperand (bs : List Byte) : Except DecodeError (Frame × List Byte) :=
  match bs with
  | h :: d :: rest =>
    match frameOfBytes h d with
    | none => .error .reservedFrame
    | some f => .ok (f, rest)
  | _ => .error .truncated

/-- The header byte of a frame. -/
def frameHeader (f : Frame) : Byte :=
  BitVec.ofNat 8 (parityBitCode f.parity * 16 + f.stop.code * 8 + f.size.code * 2)

/-! ## Operation records -/

/-- An operation with one operand. -/
def decode1 {α : Type} (r : Except DecodeError (α × List Byte)) (k : α → Instr) :
    Except DecodeError (Instr × List Byte) :=
  match r with
  | .error e => .error e
  | .ok (x, rest) => .ok (k x, rest)

/-- An operation with two operands. -/
def decode2 {α β : Type} (r : Except DecodeError (α × List Byte))
    (d : List Byte → Except DecodeError (β × List Byte)) (k : α → β → Instr) :
    Except DecodeError (Instr × List Byte) :=
  match r with
  | .error e => .error e
  | .ok (x, rest) => decode1 (d rest) (k x)

/-- The operation a record spells, and the bytes after its operands (R71, R73, R82). -/
def decode (bs : List Byte) : Except DecodeError (Instr × List Byte) :=
  match bs with
  | [] => .error .emptyRecord
  | op :: r =>
    match op.toNat with
    | 0x01 => decode2 (decodeNat r) decodeFormat .beginCmd
    | 0x02 => .ok (.endCmd, r)
    | 0x03 => .ok (.available, r)
    | 0x04 => .ok (.peek, r)
    | 0x05 => .ok (.read, r)
    | 0x06 => decode1 (decodeByte r) .write
    | 0x07 => decode1 (decodeSeq r) .writebuf
    | 0x08 => .ok (.flush, r)
    | 0x09 => .ok (.ready, r)
    | 0x0A => decode1 (decodeNat r) .printpgm
    | 0x10 => decode2 (decodeQueue r) decodeByte .rbPush
    | 0x11 => decode1 (decodeQueue r) .rbPop
    | 0x12 => decode1 (decodeQueue r) .rbPeek
    | 0x13 => decode1 (decodeQueue r) .rbAvailable
    | 0x14 => decode1 (decodeQueue r) .rbIsfull
    | 0x15 => decode1 (decodeQueue r) .rbIsempty
    | 0x16 => decode1 (decodeClear r) fun x => .rbClear x.1 x.2
    | 0x20 => decode1 (decodeNat r) .lcDivisor
    | 0x21 => decode1 (decodeFormat r) .lcFrame
    | 0x30 => .ok (.isrRx, r)
    | 0x31 => .ok (.isrTx, r)
    | 0x40 => .ok (.hwTxload, r)
    | 0x41 => .ok (.hwTxdone, r)
    | 0x42 => decode1 (decodeFrameOperand r) .hwRxarrive
    | 0x50 => .ok (.gieSet, r)
    | 0x51 => .ok (.gieClr, r)
    | _ => .error .invalidOpcode

/-- The operation code (R73). -/
def opcode : Instr → Byte
  | .beginCmd _ _ => 0x01
  | .endCmd => 0x02
  | .available => 0x03
  | .peek => 0x04
  | .read => 0x05
  | .write _ => 0x06
  | .writebuf _ => 0x07
  | .flush => 0x08
  | .ready => 0x09
  | .printpgm _ => 0x0A
  | .rbPush _ _ => 0x10
  | .rbPop _ => 0x11
  | .rbPeek _ => 0x12
  | .rbAvailable _ => 0x13
  | .rbIsfull _ => 0x14
  | .rbIsempty _ => 0x15
  | .rbClear _ _ => 0x16
  | .lcDivisor _ => 0x20
  | .lcFrame _ => 0x21
  | .isrRx => 0x30
  | .isrTx => 0x31
  | .hwTxload => 0x40
  | .hwTxdone => 0x41
  | .hwRxarrive _ => 0x42
  | .gieSet => 0x50
  | .gieClr => 0x51

/-- The byte of a buffer operand. -/
def queueByte : Queue → Byte
  | .rx => 0
  | .tx => 1

/-- The operand byte of `RB.CLEAR` (log entry 33). -/
def clearByte (q : Queue) : ClearForm → Byte
  | .clear0 => queueByte q
  | .clearH => queueByte q + 2

/-- The bytes of the operands (R71). -/
def encodeOperands : Instr → List Byte
  | .beginCmd baud fmt => encodeNat baud ++ [encodeFrame fmt]
  | .write b => [b]
  | .writebuf bs => encodeNat bs.length ++ bs
  | .printpgm a => encodeNat a
  | .rbPush q b => [queueByte q, b]
  | .rbPop q | .rbPeek q | .rbAvailable q | .rbIsfull q | .rbIsempty q => [queueByte q]
  | .rbClear q form => [clearByte q form]
  | .lcDivisor baud => encodeNat baud
  | .lcFrame fmt => [encodeFrame fmt]
  | .hwRxarrive f => [frameHeader f, f.data]
  | .endCmd | .available | .peek | .read | .flush | .ready | .isrRx | .isrTx | .hwTxload | .hwTxdone
  | .gieSet | .gieClr => []

/-- The bytes of an operation record: `op[7:0]` followed by its operands (R71). -/
def encode (i : Instr) : List Byte := opcode i :: encodeOperands i

/-! ## The opcode table's numbering of a record's bits -/

/-- The first `n` bytes of a number, bits 7..0 first. -/
def bytesOfNat : Nat → Nat → List Byte
  | 0, _ => []
  | n + 1, w => BitVec.ofNat 8 w :: bytesOfNat n (w / 256)

/-- A record given as a number: its bytes, then zeros for operands the number leaves out (the longest record with zero
operands has three bytes). -/
def layWord (nbits w : Nat) : List Byte := bytesOfNat (nbits / 8) w ++ List.replicate 8 0

/-- The operation the decoder reads from a record given as a number. -/
def decodeTableWord (nbits w : Nat) : Option Instr :=
  match decode (layWord nbits w) with
  | .ok (i, _) => some i
  | .error _ => none

end Sys2Proof
end

