-- ==== Sys2Proof/Machine/State.lean ====
section
/-! DEFINITION. The state of the block (spec/10_state.md R10 to R39), the reasons a step can stop
(spec/60_exceptions.md R162), and the state after reset (R38, R181). Plain data throughout. -/

namespace Sys2Proof.Machine

/-- The content of a byte-addressed space: pairs (address, byte), addresses rising, in the canonical form of `Memory.wf`. -/
abbrev Memory := List Host.Cell

/-- The four address spaces (R50). -/
inductive Space where
  | rxbuf
  | txbuf
  | pgm
  | io
  deriving DecidableEq, Repr

/-- A circular buffer (R11 to R13): its storage and its two index registers. -/
structure RingBuf where
  storage : Memory
  head    : Nat
  tail    : Nat
  deriving DecidableEq, Repr

/-- The transmit shift register: "`idle` or `busy(f)`" (R18). -/
inductive Tsr where
  | idle
  | busy (f : Frame)
  deriving DecidableEq, Repr

/-- The record `{baudRate, frameFormat}` (R32). -/
structure Line where
  baudRate    : Nat
  frameFormat : FrameFormat
  deriving DecidableEq, Repr

/-- The state of one port (R10), with the register map it is bound to (R35). -/
structure Port where
  rx           : RingBuf
  tx           : RingBuf
  transmitting : Bool
  active       : Bool
  tdr          : Byte
  tsr          : Tsr
  rdr          : Byte
  dre          : Bool
  txc          : Bool
  rxc          : Bool
  rxen         : Bool
  txen         : Bool
  rxcie        : Bool
  dreie        : Bool
  u2x          : Bool
  div          : Nat
  frame        : Byte
  line         : Option Line
  wireOut      : List Frame
  rxDropped    : Nat
  io           : PortConfig
  deriving DecidableEq, Repr

/-- The foreground control point `fg.pc` (R36). -/
inductive Pc where
  | idle
  | begin2 (u2x : Bool) (div : Nat) (pat : Byte) (baud : Nat) (fmt : FrameFormat)
  | begin3
  | write1 (b : Byte)
  | write2 (b : Byte)
  | write3
  | flush1
  | end2
  | buf (bs : List Byte) (n : Nat)
  | pgm (a : Nat)
  deriving DecidableEq, Repr

/-- The single foreground (R36, R9): its control point, its one-deep return slot, and the port the command in progress acts on. -/
structure Fg where
  pc   : Pc
  ret  : Option Pc
  port : Nat
  deriving DecidableEq, Repr

/-- The three causes of `ConfigError` (R100, R150). -/
inductive ConfigReason where
  | zeroBaud
  | divisorRange
  | tolerance
  deriving DecidableEq, Repr

/-- The result of an operation (R72, R150, R151). -/
inductive Result where
  /-- `Ok` of `BEGIN`. -/
  | ok
  /-- `ConfigError`; the reason is for the reader (R150). -/
  | configError (r : ConfigReason)
  /-- A natural number (`WRITE`, `WRITEBUF`, `AVAILABLE`, `RB.AVAILABLE`). -/
  | count (n : Nat)
  /-- An integer in -1 .. 255 (`READ`, `PEEK`). -/
  | value (v : Int)
  /-- A boolean (`READY`, `RB.PUSH`, `RB.ISFULL`, `RB.ISEMPTY`). -/
  | bool (b : Bool)
  /-- A byte or `empty` (`RB.POP`, `RB.PEEK`). -/
  | byte (b : Option Byte)
  /-- `(u2x, div)` of `LC.DIVISOR`. -/
  | divisor (u2x : Bool) (div : Nat)
  /-- The pattern of `LC.FRAME`. -/
  | pattern (b : Byte)
  /-- The operation returned and has no result (`FLUSH`, `END`, `PRINTPGM`, `RB.CLEAR`). -/
  | done
  deriving DecidableEq, Repr

/-- One entry of the schedule that the outside world lays down (log entry 7): an operation record
taken on a port, or a turn of the foreground in the command it is executing. -/
inductive Turn where
  | op (port : Nat) (record : List Byte)
  | foreground
  deriving DecidableEq, Repr

/-- The machine. `before`, `port`, `after` are its ports in order (R9), `port` the one the step at hand acts on;
`gie` and `fg` are shared by all of them. `turns`, `tick`, `results`, `returned` are the model's own
(log entries 7, 8, 10, 19), and `cfg` is the parameter of R4 (log entry 1). -/
structure State where
  cfg      : Cfg
  before   : List Port
  port     : Port
  after    : List Port
  gie      : Bool
  fg       : Fg
  turns    : List Turn
  tick     : Nat
  results  : List Result
  returned : Option Result
  deriving DecidableEq, Repr

/-- Why the machine stops with a fault. -/
inductive Fault where
  /-- A write of `DATA` with `DRE = 0` (R142, R162: "fault"). Raised by the `DATA` write. Safe: the spec gives no effect. -/
  | dataRegisterOccupied
  /-- A read of a buffer slot that nothing has written (R39, R162 "fault"; 93 U1). Raised by `RB.POP` and `RB.PEEK`. Safe. -/
  | unwrittenSlot
  /-- `HW.TXLOAD` with a `FRAME` pattern that is none of the 24 (R39, R77, R78): `FRAME` has not been written by `BEGIN`. Safe. -/
  | frameNotLegal
  /-- No step of any agent is enabled while a command is held: the permanent hold of R117, R120, R155
  (93 U20 "stuck"). Raised by the choice of the next step. Safe: nothing more happens. -/
  | stuck
  /-- The run has ended (R7; log entry 32): nothing is scheduled, `fg.pc = Idle`, no handler or transmitter step is enabled. Safe. -/
  | runEnded
  deriving DecidableEq, Repr

/-- Why the machine gives no meaning. -/
inductive Refusal where
  /-- The instruction has no meaning in this model yet. Raised by `exec` alone. Safe. -/
  | notModelled (mnemonic : String)
  /-- A command, or a `GIE` action, issued while `fg.pc != Idle` (R110, R139, R162 "refuse"). Safe. -/
  | commandNotIdle
  /-- `WRITE`, non-empty `WRITEBUF`, non-empty `PRINTPGM` with `active = 0` (R126, R162 "refuse"). Safe. -/
  | portNotActive
  /-- `PRINTPGM a` with no zero byte at or after `a` (R131, R162 "refuse"). Safe. -/
  | unterminatedString
  /-- A handler or engine step scheduled in a state where its guard does not hold (R5): there is no such step. Safe. -/
  | notEnabled
  /-- The foreground scheduled while its command is held (R117 case c, R120 case d: "no step: FG is held"). Safe. -/
  | foregroundHeld
  /-- The foreground scheduled with no command in progress (R36). Safe. -/
  | noCommand
  /-- The schedule names a port the machine does not have. Safe. -/
  | noSuchPort
  /-- The bytes of the record spell no operation (R78, R82, R162 "refuse"). Safe. -/
  | undecodable (e : DecodeError)
  /-- The record's operand is out of its range under this `Cfg` (R53, R71). Safe. -/
  | illFormed
  deriving DecidableEq, Repr

/-- What a step answers. -/
abbrev Step := Host.Outcome State Fault Refusal

/-- An empty buffer with no slot written: "0", and storage "unspecified, every slot" (R38). -/
def RingBuf.reset : RingBuf := { storage := [], head := 0, tail := 0 }

/-- A port after reset (R38). `TDR`, `RDR` and `FRAME` have no reset value in the spec; `0xFF` is log entry 3's. -/
def Port.reset (io : PortConfig) : Port :=
  { rx := .reset, tx := .reset, transmitting := false, active := false
    tdr := 0xFF, tsr := .idle, rdr := 0xFF
    dre := true, txc := false, rxc := false
    rxen := false, txen := false, rxcie := false, dreie := false
    u2x := false, div := 0, frame := 0xFF, line := none
    wireOut := [], rxDropped := 0, io := io }

/-- The foreground after reset: `Idle`, `none` (R38). -/
def Fg.reset : Fg := { pc := .idle, ret := none, port := 0 }

/-- The reset state under the launch premises of R185: a `Cfg`, a value of `gie`, and the ports of the platform. -/
def State.launch (c : Cfg) (gie : Bool) (io : PortConfig) (more : List PortConfig) : State :=
  { cfg := c, before := [], port := .reset io, after := more.map Port.reset
    gie := gie, fg := .reset, turns := [], tick := 0, results := [], returned := none }

/-- The machine right after reset (R180, R181): `CFG_REF`, one port, `gie = 0` (log entries 2, 4). -/
def State.reset : State := .launch .ref false .ref []

end Sys2Proof.Machine
end

