-- ==== Sys2Proof/Machine/Operands.lean ====
section
/-! DEFINITION. The operand forms of the operations (spec/30_encoding.md R71, R72): bytes masked to a frame's
width, frames and their bits on the wire (spec/10_state.md R29), and the buffer an operand `q` names (R71 format `Q`). -/

namespace Sys2Proof.Machine

/-- `mask_n(v)` (R5): the low `n` bits of a byte. -/
def maskBits (n : Nat) (b : Byte) : Byte := BitVec.ofNat 8 (b.toNat % 2 ^ n)

/-- "the exclusive-or of the `n` bits of `mask_n(b)`" (R29). -/
def xorBits (n : Nat) (b : Byte) : Bool := (List.range n).foldl (fun x k => x ^^ b.getLsbD k) false

/-- The parity bit of a byte under a frame format (R29). -/
def parityBit (b : Byte) (f : FrameFormat) : Option Bool :=
  match f.parity with
  | .none => none
  | .even => some (xorBits f.size.width b)
  | .odd => some (!xorBits f.size.width b)

/-- `mkFrame(b, n, par, s)` (R29). -/
def mkFrame (b : Byte) (f : FrameFormat) : Frame :=
  { size := f.size, data := maskBits f.size.width b, parity := parityBit b f, stop := f.stop }

/-- "The byte a receiver delivers for a frame is `zext_8(frame.data)`" (R29); "Data bits above `f.nbits` read as 0" (R138). -/
def deliveredByte (f : Frame) : Byte := maskBits f.size.width f.data

/-- The bit sequence of a frame on the wire (R29): start bit 0, data bits with bit 0 first, the parity bit if any, stop bits 1. -/
def wireBits (f : Frame) : List Bool :=
  false :: ((List.range f.size.width).map fun k => f.data.getLsbD k) ++ f.parity.toList ++
    List.replicate f.stop.count true

/-- The buffer an operand `q` names. -/
def Port.queue (p : Port) : Queue → RingBuf
  | .rx => p.rx
  | .tx => p.tx

/-- The port with the buffer `q` replaced. -/
def Port.setQueue (p : Port) (q : Queue) (r : RingBuf) : Port :=
  match q with
  | .rx => { p with rx := r }
  | .tx => { p with tx := r }

/-- `CAP`: `RX_CAP` or `TX_CAP` accordingly (spec/40_ringbuffer.md, template). -/
def capOf (c : Cfg) : Queue → Nat
  | .rx => c.rxCap
  | .tx => c.txCap

/-- The result of `READ` and `PEEK`: the sentinel, or the byte zero-extended (R72, R123, R124). -/
def readResult : Option Byte → Result
  | none => .value Config.readNone
  | some b => .value b.toNat

end Sys2Proof.Machine
end

