-- ==== Sys2Proof/Machine/Flags.lean ====
section
/-! DEFINITION. The flags: what each access of the data register does to them (spec/10_state.md R20 to R22,
spec/20_memory.md R55), the two interrupt requests (spec/60_exceptions.md R153, R154, R156), the guards of the transmitter
(spec/44_line_engine.md R136, R137), and the register images (spec/30_encoding.md R79, R81). -/

namespace Sys2Proof.Machine

/-- A write of `DATA`: "`p.TDR <- b ; p.DRE <- 0 ; p.TXC <- 0`" (R116, R55(b)); with `DRE = 0` it is a fault (R142). -/
def Port.writeData (p : Port) (b : Byte) : Except Fault Port :=
  if p.dre then .ok { p with tdr := b, dre := false, txc := false } else .error .dataRegisterOccupied

/-- A read of `DATA`: it "returns `RDR` and clears `RXC`" (R55(a)). -/
def Port.readData (p : Port) : Byte × Port := (p.rdr, { p with rxc := false })

/-- The request of `ISR.RX` (R153): `gie == 1 and p.RXCIE == 1 and p.RXC == 1`. -/
def Port.rxRequest (gie : Bool) (p : Port) : Bool := gie && p.rxcie && p.rxc

/-- The request of `ISR.TX` (R154): `gie == 1 and p.DREIE == 1 and p.DRE == 1`. -/
def Port.txRequest (gie : Bool) (p : Port) : Bool := gie && p.dreie && p.dre

/-- `ISR.RX` may run now: requested, and not behind `ISR.TX` in the order of `isrOrder` (R156). -/
def Port.rxGrant (order : IsrOrder) (gie : Bool) (p : Port) : Bool :=
  p.rxRequest gie && !(decide (order = .txFirst) && p.txRequest gie)

/-- `ISR.TX` may run now: requested, and not behind `ISR.RX` in the order of `isrOrder` (R156). -/
def Port.txGrant (order : IsrOrder) (gie : Bool) (p : Port) : Bool :=
  p.txRequest gie && !(decide (order = .rxFirst) && p.rxRequest gie)

/-- The guard of `HW.TXLOAD` (R136): `p.TXEN = 1` and `p.DRE = 0` and `p.TSR = idle`. -/
def Port.txloadGuard (p : Port) : Bool := p.txen && !p.dre && decide (p.tsr = .idle)

/-- The guard of `HW.TXDONE` (R137): `p.TSR = busy(f)`. -/
def Port.txdoneGuard (p : Port) : Bool :=
  match p.tsr with
  | .idle => false
  | .busy _ => true

/-- The port's registers (R79). -/
inductive IoReg where
  | status
  | ctrl
  | frame
  | divLo
  | divHi
  | data
  deriving DecidableEq, Repr

/-- The register at an `IO` address (R56, R79). -/
def ioReg (io : PortConfig) (a : Nat) : Option IoReg :=
  if a = io.statusAddr then some .status
  else if a = io.ctrlAddr then some .ctrl
  else if a = io.frameAddr then some .frame
  else if a = io.divLoAddr then some .divLo
  else if a = io.divHiAddr then some .divHi
  else if a = io.dataAddr then some .data
  else none

/-- A byte with bit `k` set when `v` holds, zero elsewhere. -/
def bitAt (k : Nat) (v : Bool) : Byte := if v then BitVec.ofNat 8 (2 ^ k) else 0

/-- What a register reads as (R79, R81). Bits `PortConfig` does not name read as the 0 they are written with (log entry 22). -/
def Port.image (p : Port) : IoReg → Byte
  | .status => bitAt p.io.rxcBit p.rxc ||| bitAt p.io.txcBit p.txc ||| bitAt p.io.dreBit p.dre ||| bitAt p.io.u2xBit p.u2x
  | .ctrl =>
    bitAt p.io.rxcieBit p.rxcie ||| bitAt p.io.dreieBit p.dreie ||| bitAt p.io.rxenBit p.rxen ||| bitAt p.io.txenBit p.txen
  | .frame => p.frame
  | .divLo => BitVec.ofNat 8 p.div
  | .divHi => BitVec.ofNat 8 (p.div / 256)
  | .data => p.rdr

/-- `MemRead(IO, r, 1)` (R55): the value, and the port after the read's side effect. -/
def Port.ioRead (p : Port) (r : IoReg) : Byte × Port :=
  match r with
  | .data => p.readData
  | _ => (p.image r, p)

/-- `MemWrite(IO, r, 1, v)` (R55, R79): `RXC`, `TXC`, `DRE` are read only; a half of `DIV` replaces that half (R52). -/
def Port.ioWrite (c : Cfg) (p : Port) (r : IoReg) (v : Byte) : Except Fault Port :=
  match r with
  | .status => .ok { p with u2x := v.getLsbD p.io.u2xBit }
  | .ctrl =>
    .ok { p with
      rxcie := v.getLsbD p.io.rxcieBit, dreie := v.getLsbD p.io.dreieBit
      rxen := v.getLsbD p.io.rxenBit, txen := v.getLsbD p.io.txenBit }
  | .frame => .ok { p with frame := v }
  | .divLo => .ok { p with div := (p.div / 256 * 256 + v.toNat) % 2 ^ c.divBits }
  | .divHi => .ok { p with div := (v.toNat * 256 + p.div % 256) % 2 ^ c.divBits }
  | .data => p.writeData v

end Sys2Proof.Machine
end

