-- ==== Sys2Proof/Machine/Ops.lean ====
section
/-! DEFINITION. The named operations over memory, ports and the foreground that every meaning is written with:
byte access of the address spaces (spec/20_memory.md R50), choosing the port (spec/00_scope.md R9), issuing a command and
returning from it (spec/42_serialport.md R110, spec/10_state.md R36), `raise ConfigError` (spec/60_exceptions.md R150), and taking
an interrupt and leaving its handler (R157, R160). -/

namespace Sys2Proof.Machine

/-! ## Memory -/

/-- What an unlisted address of a space reads as: a buffer slot nothing has written has no value (R39, log entry 5); an unlisted
byte of program space is 0 (log entry 6); `IO` addresses are registers, not memory. -/
def unlisted : Space → Option Byte
  | .rxbuf | .txbuf | .io => none
  | .pgm => some 0

/-- The byte at an address; `dflt` is what an unlisted address reads as. -/
def Memory.read (dflt : Option Byte) : Memory → Nat → Option Byte
  | [], _ => dflt
  | (k, v) :: m, a => if a = k then some v else Memory.read dflt m a

/-- Write one byte, keeping the canonical form: a byte equal to what an unlisted address reads as is not listed. -/
def Memory.write (dflt : Option Byte) : Memory → Nat → Byte → Memory
  | [], a, b => if dflt = some b then [] else [(a, b)]
  | (k, v) :: m, a, b =>
    if a < k then (if dflt = some b then (k, v) :: m else (a, b) :: (k, v) :: m)
    else if a = k then (if dflt = some b then m else (a, b) :: m)
    else (k, v) :: Memory.write dflt m a b

/-- The canonical form from address `lo` on: addresses strictly rising, no entry equal to what an unlisted address reads as. -/
def Memory.wfFrom (dflt : Option Byte) : Nat → Memory → Bool
  | _, [] => true
  | lo, (k, v) :: m => decide (lo ≤ k) && decide (dflt ≠ some v) && Memory.wfFrom dflt (k + 1) m

/-- The canonical form. -/
def Memory.wf (dflt : Option Byte) (m : Memory) : Bool := Memory.wfFrom dflt 0 m

/-- The one read of a byte of any space (R50), without a side effect: `none` where there is no byte or no value. The buffers and
registers are those of the selected port. -/
def State.readByte (s : State) (sp : Space) (a : Nat) : Option Byte :=
  match sp with
  | .rxbuf => if a < s.cfg.rxCap then Memory.read (unlisted .rxbuf) s.port.rx.storage a else none
  | .txbuf => if a < s.cfg.txCap then Memory.read (unlisted .txbuf) s.port.tx.storage a else none
  | .pgm => if a < 2 ^ s.cfg.pgmAddrBits then Memory.read (unlisted .pgm) s.cfg.pgm a else none
  | .io => (ioReg s.port.io a).map s.port.image

/-- The least address from `a` on whose byte is zero, for a program space in canonical form. -/
def pgmEnd : Memory → Nat → Nat
  | [], a => a
  | (k, v) :: m, a => if k < a then pgmEnd m a else if k = a ∧ v ≠ 0 then pgmEnd m (a + 1) else a

/-- "`pgm` has a zero byte at some address `z >= a`" within program space (R131). -/
def pgmTerminated (c : Cfg) (a : Nat) : Bool := decide (pgmEnd c.pgm a < 2 ^ c.pgmAddrBits)

/-! ## Ports -/

/-- The ports in order. -/
def State.ports (s : State) : List Port := s.before ++ s.port :: s.after

/-- The number of the selected port. -/
def State.here (s : State) : Nat := s.before.length

/-- The machine with port `j` selected, if it has one. -/
def State.select (s : State) (j : Nat) : Option State :=
  match s.ports.drop j with
  | [] => none
  | p :: rest => some { s with before := s.ports.take j, port := p, after := rest }

/-! ## The foreground -/

/-- `fg.pc <- target` (R5). -/
def State.goto (s : State) (pc : Pc) : State := { s with fg := { s.fg with pc := pc } }

/-- Issuing a command sets `fg.pc` to its first control point (R110(a)), on the selected port. -/
def State.issue (s : State) (pc : Pc) : State := { s with fg := { s.fg with pc := pc, port := s.here } }

/-- Calling an inner command (R36): the return slot is set and `fg.pc` is the inner command's first control point. -/
def State.call (s : State) (ret pc : Pc) : State := { s with fg := { s.fg with pc := pc, ret := some ret } }

/-- The count of `WRITEBUF` in the return slot while an inner `WRITE` is in progress, `n` being written before it (R36, R121; log
entry 31). -/
def parkedCount (form : BufCount) (n : Nat) : Nat :=
  match form with
  | .atCall => n + 1
  | .atReturn => n

/-- The outer count once an inner command has returned `v` (R36, R121; log entry 31). -/
def resumedCount (form : BufCount) (v : Result) (n : Nat) : Nat :=
  match form, v with
  | .atReturn, .count k => n + k
  | _, _ => n

/-- The control point an outer command continues at when an inner one returns `v`: the one in the return slot, "and the inner result is
added to the outer count where the outer command keeps one" (R36): `WRITEBUF` keeps one. -/
def Pc.resume (form : BufCount) (v : Result) (pc : Pc) : Pc :=
  match pc with
  | .buf bs n => .buf bs (resumedCount form v n)
  | .idle | .begin2 _ _ _ _ _ | .begin3 | .write1 _ | .write2 _ | .write3 | .flush1 | .end2 | .pgm _ => pc

/-- `return v` (R110(c), R36): to the host if `fg.ret = none`, otherwise to the outer command. -/
def State.returnValue (s : State) (v : Result) : State :=
  match s.fg.ret with
  | none => { s with fg := { s.fg with pc := .idle }, results := s.results ++ [v] }
  | some pc => { s with fg := { s.fg with pc := pc.resume s.cfg.bufCount v, ret := none } }

/-- `raise ConfigError(reason)` (R5, R150): it "ends `BEGIN` with the result `ConfigError` and no state change". -/
def State.raiseConfigError (s : State) (r : ConfigReason) : State := s.returnValue (.configError r)

/-- The result of an internal operation (`RB.*`, `LC.*`), given to its caller (log entry 10). -/
def State.give (s : State) (v : Result) : State := { s with returned := some v }

/-- A command is issued only when `fg.pc = Idle` (R110(a)); otherwise it is refused (R162). -/
def State.whenIdle (s : State) (k : Step) : Step := if s.fg.pc = .idle then k else .refused .commandNotIdle

/-- The next state with the selected port replaced, or the fault. -/
def State.withPort (s : State) (r : Except Fault Port) : Step :=
  match r with
  | .ok p => .next { s with port := p }
  | .error f => .fault f

/-! ## Interrupts -/

/-- The end of a handler (R160): "there is no return operation in the block's interface, and nothing to restore". -/
def State.leaveHandler (s : State) : State := s

/-- Taking an interrupt (R157): when the handler is granted "its whole body runs as one atomic step", on the port alone; "Nothing of
the foreground is saved or changed by the block" and `gie` reads 1 before and after. Where it is not granted there is no such step. -/
def State.takeInterrupt (s : State) (granted : Bool) (body : Except Fault Port) : Step :=
  if granted then
    match body with
    | .ok p => .next (State.leaveHandler { s with port := p })
    | .error f => .fault f
  else .refused .notEnabled

/-- A step of an engine (R5): taken only where its guard holds. -/
def State.engineStep (s : State) (guard : Bool) (effect : Except Fault Port) : Step :=
  if guard then s.withPort effect else .refused .notEnabled

end Sys2Proof.Machine
end

