-- ==== Sys2Proof/Machine/LineConfig.lean ====
section
/-! DEFINITION. The two pure encoders (spec/41_lineconfig.md R100 to R105): `LC.DIVISOR` and `LC.FRAME`. All arithmetic is in
unbounded integers (R104). -/

namespace Sys2Proof.Machine

/-- `errgt(k, q, baud, tol)` (R101): `|F_CLK - k * q * baud| * 1000000 > tol * k * q * baud`. -/
def errgt (fClk k q baud tol : Nat) : Bool :=
  decide (tol * k * q * baud < ((fClk : Int) - (k * q * baud : Nat)).natAbs * 1000000)

/-- `F_CLK / (k * baud)` rounded to the nearest, ties up (R100, R104): `q0` with `k = 16`, `q1` with `k = 8`. -/
def quotient (fClk k baud : Nat) : Nat := (fClk + k / 2 * baud) / (k * baud)

/-- `fit` (R100): `(1 <= q) and (q <= DIV_MAX + 1)`. -/
def fits (c : Cfg) (q : Nat) : Bool := decide (1 ≤ q) && decide (q ≤ c.divMax + 1)

/-- The failure tolerance test (R100); `none` disables it (R4, R102). -/
def tooFar (c : Cfg) (q baud : Nat) : Bool :=
  match c.tolFailPpm with
  | none => false
  | some t => errgt c.fClk 8 q baud t

/-- `LC.DIVISOR baud` (R100): `(u2x, div)`, or the reason of `ConfigError`. -/
def lcDivisor (c : Cfg) (baud : Nat) : Except ConfigReason (Bool × Nat) :=
  if baud = 0 then .error .zeroBaud
  else
    let q0 := quotient c.fClk 16 baud
    if fits c q0 && !errgt c.fClk 16 q0 baud c.tolSwitchPpm then .ok (false, q0 - 1)
    else
      let q1 := quotient c.fClk 8 baud
      if !fits c q1 then .error .divisorRange
      else if tooFar c q1 baud then .error .tolerance
      else .ok (true, q1 - 1)

/-- `LC.FRAME fmt` (R103): the register bit pattern encoding the frame format. -/
def lcFrame (fmt : FrameFormat) : Byte := encodeFrame fmt

/-- The rate on the wire as numerator and denominator (R27): `F_CLK / (16 * (DIV + 1))`, or with `8` when `U2X = 1`. -/
def wireRate (c : Cfg) (p : Port) : Nat × Nat := (c.fClk, (if p.u2x then 8 else 16) * (p.div + 1))

/-- `LC.DIVISOR baud` (R100). -/
def execLcDivisor (baud : Nat) (s : State) : Step :=
  match lcDivisor s.cfg baud with
  | .error r => .next (s.give (.configError r))
  | .ok (u2x, div) => .next (s.give (.divisor u2x div))

/-- `LC.FRAME fmt` (R103). -/
def execLcFrame (fmt : FrameFormat) (s : State) : Step := .next (s.give (.pattern (lcFrame fmt)))

end Sys2Proof.Machine
end

