-- ==== Sys2Proof/Machine/RingBuffer.lean ====
section
/-! DEFINITION. The ring buffer (spec/40_ringbuffer.md R90 to R97): its operations, and the meanings of the seven `RB.*` rows,
each one atomic step that gives its result to its caller (log entry 10). -/

namespace Sys2Proof.Machine

/-- Index arithmetic (R97): the index after `i`, modulo `CAP`. -/
def nextIndex (cap i : Nat) : Nat := (i + 1) % cap

/-- R95: `q.head == q.tail`. -/
def RingBuf.isEmpty (r : RingBuf) : Bool := decide (r.head = r.tail)

/-- R94: `((q.head + 1) mod CAP) == q.tail`. -/
def RingBuf.isFull (cap : Nat) (r : RingBuf) : Bool := decide (nextIndex cap r.head = r.tail)

/-- R93: `(q.head - q.tail + CAP) mod CAP`. -/
def RingBuf.available (cap : Nat) (r : RingBuf) : Nat := (r.head + cap - r.tail) % cap

/-- R90: the byte is stored at `head` and `head` advances, unless the buffer is full. -/
def RingBuf.push (cap : Nat) (r : RingBuf) (b : Byte) : RingBuf × Bool :=
  if r.isFull cap then (r, false)
  else ({ r with storage := Memory.write none r.storage r.head b, head := nextIndex cap r.head }, true)

/-- R92: the byte at `tail`, or `empty`; an unwritten slot is a fault (R39). -/
def RingBuf.peek (r : RingBuf) : Except Fault (Option Byte) :=
  if r.isEmpty then .ok none
  else
    match Memory.read none r.storage r.tail with
    | none => .error .unwrittenSlot
    | some b => .ok (some b)

/-- R91: the byte at `tail`, removed, or `empty`; an unwritten slot is a fault (R39). -/
def RingBuf.pop (cap : Nat) (r : RingBuf) : Except Fault (Option Byte × RingBuf) :=
  match r.peek with
  | .error f => .error f
  | .ok none => .ok (none, r)
  | .ok (some b) => .ok (some b, { r with tail := nextIndex cap r.tail })

/-- `RB.CLEAR0` (R96): `q.head <- 0 ; q.tail <- 0`. -/
def RingBuf.clear0 (r : RingBuf) : RingBuf := { r with head := 0, tail := 0 }

/-- `RB.CLEARH` (R96): `q.head <- q.tail`. -/
def RingBuf.clearH (r : RingBuf) : RingBuf := { r with head := r.tail }

/-- `RB.PUSH q, b` (R90). -/
def execRbPush (q : Queue) (b : Byte) (s : State) : Step :=
  let r := (s.port.queue q).push (capOf s.cfg q) b
  .next (State.give { s with port := s.port.setQueue q r.1 } (.bool r.2))

/-- `RB.POP q` (R91). -/
def execRbPop (q : Queue) (s : State) : Step :=
  match (s.port.queue q).pop (capOf s.cfg q) with
  | .error f => .fault f
  | .ok (v, r) => .next (State.give { s with port := s.port.setQueue q r } (.byte v))

/-- `RB.PEEK q` (R92). -/
def execRbPeek (q : Queue) (s : State) : Step :=
  match (s.port.queue q).peek with
  | .error f => .fault f
  | .ok v => .next (s.give (.byte v))

/-- `RB.AVAILABLE q` (R93). -/
def execRbAvailable (q : Queue) (s : State) : Step :=
  .next (s.give (.count ((s.port.queue q).available (capOf s.cfg q))))

/-- `RB.ISFULL q` (R94). -/
def execRbIsfull (q : Queue) (s : State) : Step :=
  .next (s.give (.bool ((s.port.queue q).isFull (capOf s.cfg q))))

/-- `RB.ISEMPTY q` (R95). -/
def execRbIsempty (q : Queue) (s : State) : Step := .next (s.give (.bool (s.port.queue q).isEmpty))

/-- `RB.CLEAR q`, in the form the operand names (R96). -/
def execRbClear (q : Queue) (form : ClearForm) (s : State) : Step :=
  let r :=
    match form with
    | .clear0 => (s.port.queue q).clear0
    | .clearH => (s.port.queue q).clearH
  .next (State.give { s with port := s.port.setQueue q r } .done)

end Sys2Proof.Machine
end

