-- ==== Sys2Proof/Machine/SerialPort.lean ====
section
/-! DEFINITION. The port commands (spec/42_serialport.md R110 to R126): every numbered step of `BEGIN`, `END`, `WRITE`, `FLUSH`,
`WRITEBUF` as one atomic step of the foreground, and the one-step commands `AVAILABLE`, `PEEK`, `READ`, `READY`. The meaning
of a command issues it and takes its first step (log entry 9); the later steps are taken by `foregroundStep`
(Machine/Foreground.lean). -/

namespace Sys2Proof.Machine

/-! ## Steps -/

/-- `BEGIN` step 1 (R111): compute; on `ConfigError` no state of the port changes. -/
def beginStep1 (baud : Nat) (fmt : FrameFormat) (s : State) : State :=
  match lcDivisor s.cfg baud with
  | .error r => s.raiseConfigError r
  | .ok (u2x, div) => s.issue (.begin2 u2x div (lcFrame fmt) baud fmt)

/-- `BEGIN` step 2 (R112): program the hardware. `DIV` is `DIV_BITS` bits wide (R27; log entry 16). -/
def beginStep2 (u2x : Bool) (div : Nat) (pat : Byte) (baud : Nat) (fmt : FrameFormat) (s : State) : State :=
  State.goto
    { s with port := { s.port with
        u2x := u2x, div := div % 2 ^ s.cfg.divBits, frame := pat
        line := some { baudRate := baud, frameFormat := fmt }
        rxen := true, txen := true, rxcie := true, dreie := false } }
    .begin3

/-- `BEGIN` step 3 (R113): reset the driver state. -/
def beginStep3 (s : State) : State :=
  State.returnValue
    { s with port := { s.port with
        rx := s.port.rx.clear0, tx := s.port.tx.clear0, transmitting := false, active := true } }
    .ok

/-- `END` step 2 (R115): disable. -/
def endStep2 (s : State) : State :=
  State.returnValue
    { s with port := { s.port with
        rxen := false, txen := false, rxcie := false, dreie := false, rxc := false
        rx := s.port.rx.clearH, active := false } }
    .done

/-- `WRITE b` step 1 (R116), under its guard `p.active = 1` (R126): the fast path, or on to step 2. -/
def writeStep1 (b : Byte) (s : State) : Step :=
  if !s.port.active then .refused .portNotActive
  else if !s.port.transmitting && s.port.dre && s.port.tx.isEmpty then
    match s.port.writeData b with
    | .error f => .fault f
    | .ok p => .next (State.returnValue { s with port := { p with dreie := true, transmitting := true } } (.count 1))
  else .next (s.goto (.write2 b))

/-- The pop branch of `ISR.TX` (R159), which is also the whole of `ManualDrain` (R119): one byte from the transmit buffer into
`DATA`; `none` when the buffer is empty. -/
def Port.drainOne (c : Cfg) (p : Port) : Except Fault (Option Port) :=
  match p.tx.pop c.txCap with
  | .error f => .error f
  | .ok (none, _) => .ok none
  | .ok (some b, r) =>
    match Port.writeData { p with tx := r } b with
    | .error f => .error f
    | .ok p' => .ok (some p')

/-- `ManualDrain p` (R119), under its guard `gie = 0`, `DRE = 1`, buffer not empty; it does not touch `DREIE`. -/
def manualDrain (s : State) : Step :=
  match s.port.drainOne s.cfg with
  | .error f => .fault f
  | .ok none => .next s
  | .ok (some p) => .next { s with port := p }

/-- `WRITE` step 2 (R117): case (a) push; case (b) drain by hand; case (c) held. -/
def writeStep2 (b : Byte) (s : State) : Step :=
  if !s.port.tx.isFull s.cfg.txCap then
    .next (State.goto { s with port := { s.port with tx := (s.port.tx.push s.cfg.txCap b).1 } } .write3)
  else if !s.gie && s.port.dre then manualDrain s
  else .refused .foregroundHeld

/-- `WRITE` step 3 (R118): arm the interrupt. -/
def writeStep3 (s : State) : State :=
  State.returnValue { s with port := { s.port with dreie := true, transmitting := true } } (.count 1)

/-- `FLUSH` at `Flush1` (R120): the four cases in their order. -/
def flushStep (s : State) : Step :=
  if !s.port.transmitting then .next (s.returnValue .done)
  else if s.port.tx.isEmpty && s.port.txc then
    .next (State.returnValue { s with port := { s.port with transmitting := false } } .done)
  else if !s.gie && s.port.dre && !s.port.tx.isEmpty then manualDrain s
  else .refused .foregroundHeld

/-- `WRITEBUF` at `Buf(bs, n)` (R121, R36): the return slot holds the rest and the count, `n + 1` as R121 parks it or `n` as R36 does
(log entry 31). -/
def bufStep (bs : List Byte) (n : Nat) (s : State) : State :=
  match bs with
  | [] => s.returnValue (.count n)
  | b :: rest => s.call (.buf rest (parkedCount s.cfg.bufCount n)) (.write1 b)

/-! ## The meanings of the commands -/

/-- `BEGIN baud, fmt` (R111). -/
def execBegin (baud : Nat) (fmt : FrameFormat) (s : State) : Step := s.whenIdle (.next (beginStep1 baud fmt s))

/-- `END` step 1 (R114): `fg.ret <- End2`, `fg.pc <- Flush1`. -/
def execEnd (s : State) : Step := s.whenIdle (.next (State.call (s.issue .flush1) .end2 .flush1))

/-- `WRITE b` (R116). -/
def execWrite (b : Byte) (s : State) : Step := s.whenIdle (writeStep1 b (s.issue (.write1 b)))

/-- `FLUSH` (R120): issued; where case (d) holds it, it stands at `Flush1`. -/
def execFlush (s : State) : Step :=
  s.whenIdle
    (match flushStep (s.issue .flush1) with
      | .refused _ => .next (s.issue .flush1)
      | other => other)

/-- `WRITEBUF bs` (R121); a non-empty sequence needs an active port (R126). -/
def execWritebuf (bs : List Byte) (s : State) : Step :=
  s.whenIdle
    (if !s.port.active && !bs.isEmpty then .refused .portNotActive
      else .next (bufStep bs 0 (s.issue (.buf bs 0))))

/-- `AVAILABLE` (R122). -/
def execAvailable (s : State) : Step := s.whenIdle (.next (s.returnValue (.count (s.port.rx.available s.cfg.rxCap))))

/-- `PEEK` (R123). -/
def execPeek (s : State) : Step :=
  s.whenIdle
    (match s.port.rx.peek with
      | .error f => .fault f
      | .ok v => .next (s.returnValue (readResult v)))

/-- `READ` (R124). -/
def execRead (s : State) : Step :=
  s.whenIdle
    (match s.port.rx.pop s.cfg.rxCap with
      | .error f => .fault f
      | .ok (v, r) => .next (State.returnValue { s with port := { s.port with rx := r } } (readResult v)))

/-- `READY` (R125). -/
def execReady (s : State) : Step := s.whenIdle (.next (s.returnValue (.bool s.port.active)))

end Sys2Proof.Machine
end

