-- ==== Sys2Proof/Machine/Handlers.lean ====
section
/-! DEFINITION. The two interrupt handlers (spec/60_exceptions.md R153 to R160). -/

namespace Sys2Proof.Machine

/-- The body of `ISR.RX` (R158): the read of `DATA` first and always, then the push; a failed push counts the lost byte (R152). -/
def Port.isrRx (c : Cfg) (p : Port) : Port :=
  let (b, p1) := p.readData
  let (rx', ok) := p1.rx.push c.rxCap b
  if ok then { p1 with rx := rx' } else { p1 with rxDropped := p1.rxDropped + 1 }

/-- The body of `ISR.TX` (R159): one byte moved, or the interrupt disabled and `transmitting` left as it is. -/
def Port.isrTx (c : Cfg) (p : Port) : Except Fault Port :=
  match p.drainOne c with
  | .error f => .error f
  | .ok none => .ok { p with dreie := false }
  | .ok (some p') => .ok p'

/-- `ISR.RX` (R153, R157, R158). -/
def execIsrRx (s : State) : Step :=
  s.takeInterrupt (s.port.rxGrant s.cfg.isrOrder s.gie) (.ok (s.port.isrRx s.cfg))

/-- `ISR.TX` (R154, R157, R159). -/
def execIsrTx (s : State) : Step :=
  s.takeInterrupt (s.port.txGrant s.cfg.isrOrder s.gie) (s.port.isrTx s.cfg)

end Sys2Proof.Machine
end

