-- ==== Sys2Proof/Machine/LineEngine.lean ====
section
/-! DEFINITION. The line engine and the host's interrupt enable (spec/44_line_engine.md R135 to R143): `HW.TXLOAD`, `HW.TXDONE`,
`HW.RXARRIVE`, `GIE.SET`, `GIE.CLR`. -/

namespace Sys2Proof.Machine

/-- The effect of `HW.TXLOAD` (R136): the frame is made from `TDR` and the `FRAME` in force, `DRE` is set. -/
def Port.txload (p : Port) : Except Fault Port :=
  match decodeFrame p.frame with
  | none => .error .frameNotLegal
  | some f => .ok { p with tsr := .busy (mkFrame p.tdr f), dre := true }

/-- The effect of `HW.TXDONE` (R137): the frame is on the wire; `TXC` is set when nothing waits in `TDR`. -/
def Port.txdone (p : Port) : Port :=
  match p.tsr with
  | .idle => p
  | .busy f => { p with wireOut := p.wireOut ++ [f], tsr := .idle, txc := p.txc || p.dre }

/-- `HW.RXARRIVE f` (R138): ignored, delivered to `RDR`, or lost. -/
def Port.rxarrive (p : Port) (f : Frame) : Port :=
  if !p.rxen then p
  else if !p.rxc then { p with rdr := deliveredByte f, rxc := true }
  else { p with rxDropped := p.rxDropped + 1 }

/-- `HW.TXLOAD` (R136). -/
def execHwTxload (s : State) : Step := s.engineStep s.port.txloadGuard s.port.txload

/-- `HW.TXDONE` (R137). -/
def execHwTxdone (s : State) : Step := s.engineStep s.port.txdoneGuard (.ok s.port.txdone)

/-- `HW.RXARRIVE f` (R138): no guard. -/
def execHwRxarrive (f : Frame) (s : State) : Step := s.withPort (.ok (s.port.rxarrive f))

/-- `GIE.SET` (R139): `gie <- 1`. -/
def execGieSet (s : State) : Step := s.whenIdle (.next { s with gie := true })

/-- `GIE.CLR` (R139): `gie <- 0`. -/
def execGieClr (s : State) : Step := s.whenIdle (.next { s with gie := false })

end Sys2Proof.Machine
end

