-- ==== Sys2Proof/Machine/PgmString.lean ====
section
/-! DEFINITION. The program-space string writer `PRINTPGM` (spec/43_pgmstring.md R130 to R132). -/

namespace Sys2Proof.Machine

/-- `MemRead(PGM, a, 1)` (R130, R132): the byte at `a`, `none` past the top of program space. -/
def pgmByte (c : Cfg) (a : Nat) : Option Byte :=
  if a < 2 ^ c.pgmAddrBits then Memory.read (unlisted .pgm) c.pgm a else none

/-- `PRINTPGM` at `Pgm(a)` (R130): the null byte ends it, any other byte is written; "running past the top of `PGM` is refused" (R53). -/
def pgmStep (a : Nat) (s : State) : Step :=
  match pgmByte s.cfg a with
  | none => .refused .unterminatedString
  | some c =>
    if c = 0 then .next (s.returnValue .done)
    else .next (s.call (.pgm (a + 1)) (.write1 c))

/-- `PRINTPGM a` (R130): refused without a zero byte at or after `a` (R131); a non-empty string needs an active port (R126). -/
def execPrintpgm (a : Nat) (s : State) : Step :=
  s.whenIdle
    (if !pgmTerminated s.cfg a then .refused .unterminatedString
      else if !s.port.active && !decide (pgmByte s.cfg a = some 0) then .refused .portNotActive
      else pgmStep a (s.issue (.pgm a)))

end Sys2Proof.Machine
end

