-- ==== Sys2Proof/Machine/Dispatch.lean ====
section
/-! DEFINITION. One arm for each operation of spec/opcode_table.json. -/

namespace Sys2Proof.Machine

def exec (i : Instr) (s : State) : Host.Outcome State Fault Refusal :=
  match i with
  | .beginCmd baud fmt => Sys2Proof.Machine.execBegin baud fmt s
  | .endCmd => Sys2Proof.Machine.execEnd s
  | .available => Sys2Proof.Machine.execAvailable s
  | .peek => Sys2Proof.Machine.execPeek s
  | .read => Sys2Proof.Machine.execRead s
  | .write b => Sys2Proof.Machine.execWrite b s
  | .writebuf bs => Sys2Proof.Machine.execWritebuf bs s
  | .flush => Sys2Proof.Machine.execFlush s
  | .ready => Sys2Proof.Machine.execReady s
  | .printpgm a => Sys2Proof.Machine.execPrintpgm a s
  | .rbPush q b => Sys2Proof.Machine.execRbPush q b s
  | .rbPop q => Sys2Proof.Machine.execRbPop q s
  | .rbPeek q => Sys2Proof.Machine.execRbPeek q s
  | .rbAvailable q => Sys2Proof.Machine.execRbAvailable q s
  | .rbIsfull q => Sys2Proof.Machine.execRbIsfull q s
  | .rbIsempty q => Sys2Proof.Machine.execRbIsempty q s
  | .rbClear q form => Sys2Proof.Machine.execRbClear q form s
  | .lcDivisor baud => Sys2Proof.Machine.execLcDivisor baud s
  | .lcFrame fmt => Sys2Proof.Machine.execLcFrame fmt s
  | .isrRx => Sys2Proof.Machine.execIsrRx s
  | .isrTx => Sys2Proof.Machine.execIsrTx s
  | .hwTxload => Sys2Proof.Machine.execHwTxload s
  | .hwTxdone => Sys2Proof.Machine.execHwTxdone s
  | .hwRxarrive f => Sys2Proof.Machine.execHwRxarrive f s
  | .gieSet => Sys2Proof.Machine.execGieSet s
  | .gieClr => Sys2Proof.Machine.execGieClr s

end Sys2Proof.Machine
end

