-- ==== Sys2Proof/Machine/Foreground.lean ====
section
/-! DEFINITION. The steps of a command after its first (spec/10_state.md R36): the foreground at each control point. -/

namespace Sys2Proof.Machine

/-- The step of the foreground at its control point, on the selected port (R36). -/
def foregroundStep (s : State) : Step :=
  match s.fg.pc with
  | .idle => .refused .noCommand
  | .begin2 u2x div pat baud fmt => .next (beginStep2 u2x div pat baud fmt s)
  | .begin3 => .next (beginStep3 s)
  | .write1 b => writeStep1 b s
  | .write2 b => writeStep2 b s
  | .write3 => .next (writeStep3 s)
  | .flush1 => flushStep s
  | .end2 => .next (endStep2 s)
  | .buf bs n => .next (bufStep bs n s)
  | .pgm a => pgmStep a s

/-- The foreground has a step (R5): a command is in progress and is not held (R117 case c, R120 case d). -/
def foregroundReady (s : State) : Bool :=
  match s.fg.pc with
  | .idle => false
  | .write2 _ => !s.port.tx.isFull s.cfg.txCap || (!s.gie && s.port.dre)
  | .flush1 =>
    !s.port.transmitting || (s.port.tx.isEmpty && s.port.txc) || (!s.gie && s.port.dre && !s.port.tx.isEmpty)
  | .begin2 _ _ _ _ _ | .begin3 | .write1 _ | .write3 | .end2 | .buf _ _ | .pgm _ => true

/-- A turn of the foreground: its step, on the port its command acts on. -/
def foregroundTurn (s : State) : Step :=
  match s.select s.fg.port with
  | none => .refused .noSuchPort
  | some t => foregroundStep t

end Sys2Proof.Machine
end

