-- ==== Sys2Proof/Machine/Progress.lean ====
section
/-! DEFINITION. Which step comes next (spec/00_scope.md R6, R7, R9, spec/20_memory.md R58): reading the operation record of a
scheduled turn, and, when nothing is scheduled, the block's own progress among its enabled handler, engine and foreground steps. -/

namespace Sys2Proof.Machine

/-! ## A scheduled operation -/

/-- The operation of a record taken on port `j`, and the machine it is taken in: the port selected, the record decoded (R82) and
well-formed. Bytes after the operands are not looked at (log entry 14). -/
def fetch (s : State) (j : Nat) (record : List Byte) : Except Refusal (Instr × State) :=
  match s.select j with
  | none => .error .noSuchPort
  | some t =>
    match decode record with
    | .error e => .error (.undecodable e)
    | .ok (i, _) => if i.wf s.cfg then .ok (i, t) else .error .illFormed

/-! ## The block's own progress -/

/-- A step the block can take by itself: a handler or transmitter step of a port, or a step of the foreground. -/
inductive Move where
  | isrRx (port : Nat)
  | isrTx (port : Nat)
  | txload (port : Nat)
  | txdone (port : Nat)
  | foreground
  deriving DecidableEq, Repr

/-- The port a move acts on. -/
def moveSelect (s : State) : Move → Option State
  | .isrRx j | .isrTx j | .txload j | .txdone j => s.select j
  | .foreground => s.select s.fg.port

/-- The guard of a move, on the port it acts on (R136, R137, R153, R154, R156, R36). -/
def moveGuard (t : State) : Move → Bool
  | .isrRx _ => t.port.rxGrant t.cfg.isrOrder t.gie
  | .isrTx _ => t.port.txGrant t.cfg.isrOrder t.gie
  | .txload _ => t.port.txloadGuard
  | .txdone _ => t.port.txdoneGuard
  | .foreground => foregroundReady t

/-- A move is enabled. -/
def moveEnabled (s : State) (m : Move) : Bool :=
  match moveSelect s m with
  | none => false
  | some t => moveGuard t m

/-- The effect of a move, on the port it acts on. -/
def moveEffect (t : State) : Move → Step
  | .isrRx _ => execIsrRx t
  | .isrTx _ => execIsrTx t
  | .txload _ => execHwTxload t
  | .txdone _ => execHwTxdone t
  | .foreground => foregroundStep t

/-- Take a move. -/
def runMove (s : State) (m : Move) : Step :=
  match moveSelect s m with
  | none => .refused .noSuchPort
  | some t => moveEffect t m

/-- The moves of one port. -/
def portMoves (j : Nat) : List Move := [.isrRx j, .isrTx j, .txload j, .txdone j]

/-- Every move of the machine. -/
def allMoves (s : State) : List Move :=
  (List.range s.ports.length).flatMap portMoves ++ [.foreground]

/-- The enabled moves. -/
def enabledMoves (s : State) : List Move := (allMoves s).filter (moveEnabled s)

/-- What the free value chooses among: the enabled moves, and, where the foreground is not one of them (it is held, or idle), that no
agent takes its step yet. The hardware may so leave an enabled handler or engine step untaken for any length of time, and
for ever: weak fairness is a premise of a claim, "never a fact of the block" (R8, D27; log entry 24). -/
def choices (ms : List Move) : List (Option Move) :=
  ms.map some ++ if Move.foreground ∈ ms then [] else [none]

/-- Take a chosen move, or none. -/
def runChoice (s : State) : Option Move → Step
  | some m => runMove s m
  | none => .next s

/-- The block goes on by itself: the foreground, last of the moves, where it alone is enabled, otherwise what the free value chooses (log entries 8, 24); with
no move enabled the command in progress is held for ever (R155) or the run has ended. DESIGN CHOICE (log entry 32): the run
ends as R7 has it, once no handler or transmitter step is enabled, and not already at `fg.pc = Idle` with "engines may
still be finishing", as D26 has it. -/
def progress (s : State) : Step :=
  match enabledMoves s with
  | [] => if s.fg.pc = .idle then .fault .runEnded else .fault .stuck
  | m :: ms =>
    if m = .foreground then runMove s m
    else
      runChoice { s with tick := s.tick + 1 }
        ((choices (m :: ms)).getD (Config.freePick s.tick % (choices (m :: ms)).length) (some m))

end Sys2Proof.Machine
end

