-- ==== Sys2Proof/Machine/Step.lean ====
section
/-! DEFINITION. One step of the machine: the next turn of the schedule, or the block's own progress when nothing is scheduled; and the
placing of one operation record at the head of the schedule. -/

namespace Sys2Proof.Machine

def step (s : State) : Host.Outcome State Fault Refusal :=
  match s.turns with
  | [] => progress s
  | .foreground :: ts => foregroundTurn { s with turns := ts }
  | .op j record :: ts =>
    match fetch { s with turns := ts } j record with
    | .error r => .refused r
    | .ok (i, t) => exec i t

/-- The operation record `w` of `nbits` bits as the next turn, on the selected port (log entry 7). -/
def State.withFetchWord (s : State) (nbits w : Nat) : State :=
  { s with turns := .op s.here (layWord nbits w) :: s.turns }

end Sys2Proof.Machine
end

