-- ==== Sys2Proof/Safety.lean ====
section
/-! DEFINITION. The terms the statements are written in: the constraints on `Cfg` (spec/00_scope.md R4), well-formed buffers and states
(spec/10_state.md R11 to R15), the invariants of R37 in the form a step keeps, the observation of a run (R7), and the transmit
pipeline (R59(d), R127, R140). -/

namespace Sys2Proof

/-- The constraints R4 puts on `Cfg`, with program space in canonical form and inside its `PGM_ADDR_BITS` bits. -/
def Cfg.wf (c : Cfg) : Bool :=
  Cfg.capWf c.rxCap && Cfg.capWf c.txCap && decide (1 ≤ c.fClk) && decide (1 ≤ c.divBits) && c.tolWf &&
    decide (1 ≤ c.pgmAddrBits) && Machine.Memory.wf (some 0) c.pgm &&
    c.pgm.all fun e => decide (e.1 < 2 ^ c.pgmAddrBits)

namespace Machine

/-! ## Buffers -/

/-- The `k`-th unread slot of a buffer, oldest first (R14): `storage[(tail+k) mod CAP]`. -/
def RingBuf.slot (cap : Nat) (r : RingBuf) (k : Nat) : Option Byte :=
  Memory.read none r.storage ((r.tail + k) % cap)

/-- The unread slots, oldest first (R14). -/
def RingBuf.slots (cap : Nat) (r : RingBuf) : List (Option Byte) :=
  (List.range (r.available cap)).map (r.slot cap)

/-- The unread bytes, oldest first (R14). -/
def RingBuf.unread (cap : Nat) (r : RingBuf) : List Byte := (r.slots cap).filterMap id

/-- A buffer as the spec has it: indices in range (R15), storage in canonical form and inside `CAP` slots (R11), every unread slot written
(R16, R39). -/
def RingBuf.wf (cap : Nat) (r : RingBuf) : Bool :=
  decide (r.head < cap) && decide (r.tail < cap) && Memory.wf none r.storage &&
    (r.storage.all fun e => decide (e.1 < cap)) && (r.slots cap).all Option.isSome

/-! ## Structural invariant: kept by every step -/

/-- A port whose registers hold values of their widths (R11 to R15, R18, R27, R29). -/
structure Port.Wf (c : Cfg) (p : Port) : Prop where
  rxWf    : p.rx.wf c.rxCap = true
  txWf    : p.tx.wf c.txCap = true
  divFits : p.div < 2 ^ c.divBits
  tsrWf   : ∀ f, p.tsr = .busy f → f.wf = true
  wireWf  : ∀ f ∈ p.wireOut, f.wf = true

/-- A machine whose configuration and ports are well-formed. -/
structure State.Wf (s : State) : Prop where
  cfgWf   : s.cfg.wf = true
  portsWf : ∀ p ∈ s.ports, p.Wf s.cfg

/-! ## The invariants of R37 -/

/-- The control points of a `WRITE` and of the commands that call it: they need an active port (R116, R126). -/
def Pc.needsActive : Pc → Bool
  | .write1 _ | .write2 _ | .write3 | .buf _ _ | .pgm _ => true
  | .idle | .begin2 _ _ _ _ _ | .begin3 | .flush1 | .end2 => false

/-- The control point as one port sees it: that of the command in progress on it, `Idle` for every other port (R9, R36). -/
def State.pcOf (s : State) (j : Nat) : Pc := if s.fg.port = j then s.fg.pc else .idle

/-- `U2X`, `DIV` and `FRAME` "are functions of it and of `Cfg`" (R32); before the first `BEGIN` both engines are disabled (R28). -/
def Port.configured (c : Cfg) (p : Port) : Prop :=
  match p.line with
  | none => p.rxen = false ∧ p.txen = false
  | some l => lcDivisor c l.baudRate = .ok (p.u2x, p.div) ∧ p.frame = encodeFrame l.frameFormat

/-- The invariants of R37 for one port seen from the control point `pc`, with the facts they need to be kept. -/
structure Port.Inv (c : Cfg) (pc : Pc) (p : Port) : Prop where
  /-- R37(b). -/
  armed      : p.tx.isEmpty = false → pc ≠ .write3 → pc ≠ .begin3 → p.dreie = true
  /-- R37(d), at every control point but `Write3`. -/
  quiet      : p.transmitting = false → pc ≠ .write3 → p.tx.isEmpty = true
  /-- R37(e). -/
  complete   : p.txc = true → p.tsr = .idle ∧ p.dre = true
  /-- A burst in progress is somewhere: queued, in `TDR`, in `TSR`, or complete. -/
  owed       : p.transmitting = true ∨ pc = .write3 →
    p.tx.isEmpty = false ∨ p.dre = false ∨ p.tsr ≠ .idle ∨ p.txc = true
  /-- R112: an active port, and one between `BEGIN` steps 2 and 3, has its receiver, transmitter and receive interrupt enabled. -/
  enabled    : p.active = true ∨ pc = .begin3 → p.rxen = true ∧ p.txen = true ∧ p.rxcie = true
  /-- R115, R38: an inactive port is inert, except between `BEGIN` steps 2 and 3. -/
  inert      : p.active = false → pc ≠ .begin3 →
    p.rxen = false ∧ p.txen = false ∧ p.rxcie = false ∧ p.dreie = false
  burst      : p.transmitting = true → p.active = true
  configured : p.configured c
  writing    : pc.needsActive = true → p.active = true
  ending     : pc = .end2 → p.transmitting = false

/-- The return slot fits the control point (R36): a `WRITE` may be called by `WRITEBUF` or `PRINTPGM`, a `FLUSH` by `END`. -/
def Fg.retFits (fg : Fg) : Prop :=
  match fg.pc with
  | .write1 _ | .write2 _ | .write3 => fg.ret = none ∨ (∃ bs n, fg.ret = some (.buf bs n)) ∨ ∃ a, fg.ret = some (.pgm a)
  | .flush1 => fg.ret = none ∨ fg.ret = some .end2
  | .idle | .begin2 _ _ _ _ _ | .begin3 | .end2 | .buf _ _ | .pgm _ => fg.ret = none

/-- The foreground as a run can have it (R36). -/
structure Fg.Inv (c : Cfg) (n : Nat) (fg : Fg) : Prop where
  portOk  : fg.port < n
  retFits : fg.retFits
  begins  : ∀ u2x div pat baud fmt, fg.pc = .begin2 u2x div pat baud fmt →
    lcDivisor c baud = .ok (u2x, div) ∧ pat = encodeFrame fmt
  string  : ∀ a, fg.pc = .pgm a ∨ fg.ret = some (.pgm a) → pgmTerminated c a = true

/-- The invariants of R37 for the whole machine (R9). -/
structure State.Inv (s : State) : Prop where
  wf       : s.Wf
  fgInv    : s.fg.Inv s.cfg s.ports.length
  portsInv : ∀ (j : Nat) (p : Port), s.ports[j]? = some p → p.Inv s.cfg (s.pcOf j)

/-- Duty H-7 of R186 for the next turn: it is not one of the internal operations that write a buffer by themselves. -/
def State.keepsDuty (s : State) : Bool :=
  match s.turns with
  | .op _ record :: _ =>
    match decode record with
    | .ok (i, _) => !i.bareBufferWrite
    | .error _ => true
  | _ => true

/-! ## Observation, and the transmit pipeline -/

/-- What a run is observed by (R7): the results of the commands, and each port's `wire_out` and `rx_dropped`. -/
def State.observation (s : State) : List Result × List (List Frame × Nat) :=
  (s.results, s.ports.map fun p => (p.wireOut, p.rxDropped))

/-- The frame in the shift register, if any. -/
def Tsr.frames : Tsr → List Frame
  | .idle => []
  | .busy f => [f]

/-- Everything a port has accepted for transmission and not discarded, as frames under the format `f`, in the order they go on the
wire: on the wire already, in `TSR`, in `TDR`, queued (R59(d), R135). -/
def Port.pipeline (c : Cfg) (f : FrameFormat) (p : Port) : List Frame :=
  p.wireOut ++ p.tsr.frames ++ (if p.dre then [] else [mkFrame p.tdr f]) ++ (p.tx.unread c.txCap).map (mkFrame · f)

/-- The bytes' worth of work the transmit side still owes: three for a queued byte, two for one in `TDR`, one for one in `TSR`, one for an
armed transmit interrupt. -/
def Port.txWork (c : Cfg) (p : Port) : Nat :=
  3 * p.tx.available c.txCap + (if p.dre then 0 else 2) + (if p.tsr = .idle then 0 else 1) + (if p.dreie then 1 else 0)

/-! ## Registers that mean something only under a flag -/

/-- The state with another byte in `TDR`. -/
def State.withTdr (s : State) (v : Byte) : State := { s with port := { s.port with tdr := v } }

/-- The state with another byte in `RDR`. -/
def State.withRdr (s : State) (v : Byte) : State := { s with port := { s.port with rdr := v } }

/-- The same outcome up to `g` on the next state, wherever `keep` says the next state still carries what `g` changes. -/
def sameUpTo (g : State → State) (keep : State → Bool) (o o' : Step) : Prop :=
  match o with
  | .next t => o' = .next (if keep t then g t else t)
  | .fault f => o' = .fault f
  | .refused r => o' = .refused r

end Machine

end Sys2Proof
end

