-- ==== Sys2Proof/Certificates/Slice0/Obligations.lean ====
section
/-! DEFINITION. The statements about this model, each from a numbered rule of spec/ or derived from several. -/

open Sys2Proof Sys2Proof.Machine

/-! ## Encoding -/

/-- R71, R73 with the operand layout of log entry 13: decoding the bytes of a well-formed operation record gives it back, whatever follows. -/
def Obligations.DecodeOfEncodeIsIdentity : Prop :=
  ∀ (c : Cfg) (i : Instr) (rest : List Byte), i.wf c = true → decode (encode i ++ rest) = .ok (i, rest)

/-- The other direction (layout: log entry 13): a record that decodes is the one spelling of its operation. -/
def Obligations.EncodeOfDecodeIsIdentity : Prop :=
  ∀ (bs : List Byte) (i : Instr) (rest : List Byte), decode bs = .ok (i, rest) → encode i ++ rest = bs

/-- R77: where `decodeFrame` is defined, its three fields, the formula of `encodeFrame`, and that one is the inverse of the other. -/
def Obligations.FrameFormatDecoding : Prop :=
  (∀ fmt : Byte, (decodeFrame fmt).isSome = true ↔
      fmt.extractLsb' 6 2 = 0 ∧ fmt.getLsbD 0 = false ∧ fmt.extractLsb' 4 2 ≠ 1) ∧
  (∀ (fmt : Byte) (f : FrameFormat), decodeFrame fmt = some f →
      f.size.width = 5 + (fmt.extractLsb' 1 2).toNat ∧
      (f.parity = .none ↔ fmt.extractLsb' 4 2 = 0) ∧ (f.parity = .even ↔ fmt.extractLsb' 4 2 = 2) ∧
      (f.parity = .odd ↔ fmt.extractLsb' 4 2 = 3) ∧ f.stop.count = 1 + (fmt.extractLsb' 3 1).toNat) ∧
  (∀ f : FrameFormat, encodeFrame f =
      ((match f.parity with | .none => 0 | .even => 2 | .odd => 3 : Byte) <<< 4) |||
        (BitVec.ofNat 8 (f.stop.count - 1) <<< 3) ||| (BitVec.ofNat 8 (f.size.width - 5) <<< 1)) ∧
  (∀ f : FrameFormat, decodeFrame (encodeFrame f) = some f)

/-- R78: 24 of the 256 values are legal, and a record whose `fmt` is reserved is refused (record layout: log entry 13), as is the step
that reads it. -/
def Obligations.ReservedFrameFormatRefused : Prop :=
  ((List.range 256).filter fun n => (decodeFrame (BitVec.ofNat 8 n)).isSome).length = 24 ∧
  (∀ (baud : Nat) (fmt : Byte) (rest : List Byte), decodeFrame fmt = none →
    decode (0x01 :: (encodeNat baud ++ fmt :: rest)) = .error .reservedFormat ∧
    decode (0x21 :: fmt :: rest) = .error .reservedFormat) ∧
  (∀ (s t : State) (j baud : Nat) (fmt : Byte) (rest : List Byte) (ts : List Turn),
    s.turns = .op j (0x01 :: (encodeNat baud ++ fmt :: rest)) :: ts → decodeFrame fmt = none →
    State.select { s with turns := ts } j = some t → step s = .refused (.undecodable .reservedFormat))

/-- R82, R73: every byte that is none of the 26 operation codes decodes to `invalid`, whatever follows it. -/
def Obligations.CodesOutsideTableRejected : Prop :=
  ∀ (op : Byte) (rest : List Byte),
    op ∉ ([0x01, 0x02, 0x03, 0x04, 0x05, 0x06, 0x07, 0x08, 0x09, 0x0A, 0x10, 0x11, 0x12, 0x13, 0x14, 0x15, 0x16,
      0x20, 0x21, 0x30, 0x31, 0x40, 0x41, 0x42, 0x50, 0x51] : List Byte) →
    decode (op :: rest) = .error .invalidOpcode

/-- R73, R84 (programs P1, P2, P5 of spec/95_test_vectors.md): records written out from the codes of the table and the model's operand
layout (log entry 13). A sanity statement. -/
def Obligations.SampleRecordsDecode : Prop :=
  decode [0x01, 0x80, 0x4B, 0x06] = .ok (.beginCmd 9600 ⟨.eight, .none, .one⟩, []) ∧
  decode [0x06, 0x41] = .ok (.write 0x41, []) ∧
  decode [0x07, 0x02, 0x4F, 0x4B] = .ok (.writebuf [0x4F, 0x4B], []) ∧
  decode [0x0A, 0x80, 0x02] = .ok (.printpgm 0x0100, []) ∧
  decode [0x10, 0x01, 0x41] = .ok (.rbPush .tx 0x41, []) ∧
  decode [0x21, 0x2C] = .ok (.lcFrame ⟨.seven, .even, .two⟩, []) ∧
  decode [0x42, 0x06, 0x6F] = .ok (.hwRxarrive ⟨.eight, 0x6F, none, .one⟩, []) ∧
  decode [0x08] = .ok (.flush, []) ∧ decode [0x31] = .ok (.isrTx, []) ∧ decode [0x40] = .ok (.hwTxload, []) ∧
  decode [0x50] = .ok (.gieSet, [])

/-! ## The step -/

/-- The model's schedule (log entry 7): a scheduled record that decodes to a well-formed operation runs it on the port named; a record
placed by `withFetchWord` runs on the selected port; a scheduled turn of the foreground is its step on the port of its command. A record
that spells no operation is refused (R82, R162), so is one whose operand is out of its range (R53, R71), and a turn that names a port the
machine does not have (log entry 11). That the bytes after a record's operands are not looked at is the model's choice too (log entry 14). -/
def Obligations.StepRunsDecodedOperation : Prop :=
  (∀ (s t : State) (j : Nat) (record : List Byte) (ts : List Turn) (i : Instr) (rest : List Byte),
    s.turns = .op j record :: ts → State.select { s with turns := ts } j = some t →
    decode record = .ok (i, rest) → i.wf s.cfg = true → step s = exec i t) ∧
  (∀ (s : State) (nbits w : Nat) (i : Instr),
    decodeTableWord nbits w = some i → i.wf s.cfg = true → step (s.withFetchWord nbits w) = exec i s) ∧
  (∀ (s t : State) (ts : List Turn),
    s.turns = .foreground :: ts → State.select { s with turns := ts } s.fg.port = some t →
    step s = foregroundStep t) ∧
  (∀ (s t : State) (j : Nat) (record : List Byte) (ts : List Turn), s.turns = .op j record :: ts →
    State.select { s with turns := ts } j = some t →
    (∀ e, decode record = .error e → step s = .refused (.undecodable e)) ∧
    (∀ i rest, decode record = .ok (i, rest) → i.wf s.cfg = false → step s = .refused .illFormed)) ∧
  (∀ (s : State) (j : Nat) (record : List Byte) (ts : List Turn),
    s.turns = .op j record :: ts → s.ports.length ≤ j → step s = .refused .noSuchPort) ∧
  (∀ (s : State) (ts : List Turn),
    s.turns = .foreground :: ts → s.ports.length ≤ s.fg.port → step s = .refused .noSuchPort)

/-- R5, R58, R8 with log entries 8 and 24: with nothing scheduled the step is one of the enabled steps, whichever the free value picks, or,
unless the foreground is ready, none is taken yet; with none enabled it stops, as the end of the run (R7's end, log entry 32) or as a
permanent hold (R155). -/
def Obligations.UnscheduledStepIsAnEnabledMove : Prop :=
  ∀ s : State, s.turns = [] →
    (enabledMoves s ≠ [] →
      (∃ m ∈ enabledMoves s, ∃ k, step s = runMove { s with tick := k } m) ∨
      (Move.foreground ∉ enabledMoves s ∧ step s = .next { s with tick := s.tick + 1 })) ∧
    (enabledMoves s = [] → s.fg.pc = .idle → step s = .fault .runEnded) ∧
    (enabledMoves s = [] → s.fg.pc ≠ .idle → step s = .fault .stuck)

/-! ## Line configuration -/

/-- R101: the integer test, and that it decides the error of the produced rate relative to the request, with equality not greater. -/
def Obligations.RoundingErrorTestIsExact : Prop :=
  ∀ fClk k q baud tol : Nat,
    (errgt fClk k q baud tol = true ↔
      ((tol * k * q * baud : Nat) : Int) < |(fClk : Int) - (k * q * baud : Nat)| * 1000000) ∧
    (0 < k → 0 < q → 0 < baud →
      (errgt fClk k q baud tol = true ↔
        (tol : ℚ) / 1000000 < |(fClk : ℚ) / (k * q) - baud| / baud))

/-- R100: the result of `LC.DIVISOR` in every case, given to its caller, and no state changed. -/
def Obligations.DivisorEncoderResult : Prop :=
  ∀ (baud : Nat) (s : State) (q0 q1 : Nat),
    q0 = (s.cfg.fClk + 8 * baud) / (16 * baud) → q1 = (s.cfg.fClk + 4 * baud) / (8 * baud) →
    (baud = 0 → exec (.lcDivisor baud) s = .next { s with returned := some (.configError .zeroBaud) }) ∧
    (baud ≠ 0 → 1 ≤ q0 ∧ q0 ≤ s.cfg.divMax + 1 ∧ errgt s.cfg.fClk 16 q0 baud s.cfg.tolSwitchPpm = false →
      exec (.lcDivisor baud) s = .next { s with returned := some (.divisor false (q0 - 1)) }) ∧
    (baud ≠ 0 → ¬(1 ≤ q0 ∧ q0 ≤ s.cfg.divMax + 1 ∧ errgt s.cfg.fClk 16 q0 baud s.cfg.tolSwitchPpm = false) →
      (¬(1 ≤ q1 ∧ q1 ≤ s.cfg.divMax + 1) →
        exec (.lcDivisor baud) s = .next { s with returned := some (.configError .divisorRange) }) ∧
      (1 ≤ q1 ∧ q1 ≤ s.cfg.divMax + 1 →
        (∀ tol, s.cfg.tolFailPpm = some tol → errgt s.cfg.fClk 8 q1 baud tol = true →
          exec (.lcDivisor baud) s = .next { s with returned := some (.configError .tolerance) }) ∧
        ((∀ tol, s.cfg.tolFailPpm = some tol → errgt s.cfg.fClk 8 q1 baud tol = false) →
          exec (.lcDivisor baud) s = .next { s with returned := some (.divisor true (q1 - 1)) })))

/-- R100(b)(c)(d), R104: a returned divisor fits its register, is the rounding to nearest of the exact one, and its rate is within the
tolerance of its mode. -/
def Obligations.ReturnedDivisorIsSound : Prop :=
  ∀ (c : Cfg) (baud : Nat) (u2x : Bool) (div k : Nat), k = (if u2x then 8 else 16) →
    lcDivisor c baud = .ok (u2x, div) →
    div ≤ c.divMax ∧
    2 * |(c.fClk : Int) - (k * (div + 1) * baud : Nat)| ≤ (k * baud : Nat) ∧
    (u2x = false → errgt c.fClk 16 (div + 1) baud c.tolSwitchPpm = false) ∧
    (∀ tol, u2x = true → c.tolFailPpm = some tol → errgt c.fClk 8 (div + 1) baud tol = false)

/-- R103: `LC.FRAME` gives the pattern of the format, which is the byte that spells the format (the identity on the 24 legal values). -/
def Obligations.FrameEncoderResult : Prop :=
  ∀ (fmt : FrameFormat) (s : State),
    exec (.lcFrame fmt) s = .next { s with returned := some (.pattern (encodeFrame fmt)) } ∧
    (∀ v : Byte, decodeFrame v = some fmt → encodeFrame fmt = v)

/-! ## Ring buffer -/

/-- R90: a push into a full buffer changes nothing and returns `false`; any other stores at `head`, advances it and returns `true`. -/
def Obligations.PushStoresAtHeadUnlessFull : Prop :=
  ∀ (q : Queue) (b : Byte) (s : State) (r : RingBuf) (cap : Nat), r = s.port.queue q → cap = capOf s.cfg q →
    ((r.head + 1) % cap = r.tail →
      exec (.rbPush q b) s = .next { s with returned := some (.bool false) }) ∧
    ((r.head + 1) % cap ≠ r.tail →
      exec (.rbPush q b) s = .next { s with
        port := s.port.setQueue q
          { storage := Memory.write none r.storage r.head b, head := (r.head + 1) % cap, tail := r.tail }
        returned := some (.bool true) })

/-- R91, R92: from an empty buffer a pop and a peek return `empty` and change nothing; from any other both return the byte at `tail`, and
the pop advances `tail`, not erasing the slot. -/
def Obligations.PopAndPeekReturnByteAtTail : Prop :=
  ∀ (q : Queue) (s : State) (r : RingBuf), r = s.port.queue q →
    (r.head = r.tail →
      exec (.rbPop q) s = .next { s with returned := some (.byte none) } ∧
      exec (.rbPeek q) s = .next { s with returned := some (.byte none) }) ∧
    (∀ b, r.head ≠ r.tail → Memory.read none r.storage r.tail = some b →
      exec (.rbPop q) s = .next { s with
        port := s.port.setQueue q { r with tail := (r.tail + 1) % capOf s.cfg q }
        returned := some (.byte (some b)) } ∧
      exec (.rbPeek q) s = .next { s with returned := some (.byte (some b)) })

/-- R93, R94, R95: the count and the two tests, with no state changed; full is when a push fails and, for indices in range, a count of
`CAP - 1`, empty a count of 0, and no count is above `CAP - 1`. -/
def Obligations.CountAndTestsOfABuffer : Prop :=
  ∀ (q : Queue) (s : State) (r : RingBuf) (cap : Nat), r = s.port.queue q → cap = capOf s.cfg q →
    exec (.rbAvailable q) s = .next { s with returned := some (.count ((r.head + cap - r.tail) % cap)) } ∧
    exec (.rbIsfull q) s = .next { s with returned := some (.bool (decide ((r.head + 1) % cap = r.tail))) } ∧
    exec (.rbIsempty q) s = .next { s with returned := some (.bool (decide (r.head = r.tail))) } ∧
    (∀ b, (r.head + 1) % cap = r.tail ↔ (r.push cap b).2 = false) ∧
    (r.head < cap → r.tail < cap →
      ((r.head + 1) % cap = r.tail ↔ (r.head + cap - r.tail) % cap = cap - 1) ∧
      (r.head = r.tail ↔ (r.head + cap - r.tail) % cap = 0) ∧ (r.head + cap - r.tail) % cap ≤ cap - 1)

/-- R96: both forms of `RB.CLEAR`, storage untouched. -/
def Obligations.ClearSetsIndicesOnly : Prop :=
  ∀ (q : Queue) (s : State) (r : RingBuf), r = s.port.queue q →
    exec (.rbClear q .clear0) s =
      .next { s with port := s.port.setQueue q { r with head := 0, tail := 0 }, returned := some .done } ∧
    exec (.rbClear q .clearH) s =
      .next { s with port := s.port.setQueue q { r with head := r.tail }, returned := some .done }

/-- R98(a) to (e), R14: a buffer is a first-in first-out queue of at most `CAP - 1` bytes: every operation on it is the queue's. -/
def Obligations.RingBufferRefinesBoundedQueue : Prop :=
  ∀ (cap : Nat) (r : RingBuf), r.wf cap = true →
    r.available cap = (r.unread cap).length ∧ (r.unread cap).length ≤ cap - 1 ∧
    r.peek = .ok (r.unread cap).head? ∧
    (∃ r', r.pop cap = .ok ((r.unread cap).head?, r') ∧ r'.unread cap = (r.unread cap).tail) ∧
    (∀ b, (r.push cap b).2 = decide ((r.unread cap).length < cap - 1) ∧
      (r.push cap b).1.unread cap =
        if (r.unread cap).length < cap - 1 then r.unread cap ++ [b] else r.unread cap) ∧
    r.clear0.unread cap = [] ∧ r.clearH.unread cap = []

/-- R50, R51, R90: which byte of the buffers and of program space an operation can change: the slot at `head` of the buffer it pushes to,
and no other; every other operation leaves every byte of the three spaces as it was. -/
def Obligations.OperationsStoreOnlyAtHead : Prop :=
  ∀ (i : Instr) (s t : State), exec i s = .next t →
    ((∀ q b, i ≠ .rbPush q b) → i ≠ .isrRx →
      ∀ sp a, sp ≠ .io → t.readByte sp a = s.readByte sp a) ∧
    (∀ q b, i = .rbPush q b → ∀ sp a, sp ≠ .io →
      ¬(sp = (match q with | .rx => .rxbuf | .tx => .txbuf) ∧ a = (s.port.queue q).head) →
      t.readByte sp a = s.readByte sp a) ∧
    (i = .isrRx → ∀ sp a, sp ≠ .io → ¬(sp = .rxbuf ∧ a = s.port.rx.head) → t.readByte sp a = s.readByte sp a)

/-! ## Port commands -/

/-- R110(a), R139, R162: a command or a `GIE` action issued while `fg.pc != Idle` is refused. -/
def Obligations.CommandsNeedIdle : Prop :=
  ∀ (i : Instr) (s : State), i.hostCommand = true → s.fg.pc ≠ .idle → exec i s = .refused .commandNotIdle

/-- R110(c): `return v` gives `v` to the host and goes to `Idle` when the return slot is empty, otherwise continues at the slot and empties it.
The count a slot `Buf(bs, n)` continues with is that of the form `bufCount` names (log entry 31): `n` as R121 parks it, `n` and the inner
count as R36 adds them. -/
def Obligations.ReturnGoesToCaller : Prop :=
  ∀ (s : State) (v : Result),
    (s.fg.ret = none →
      s.returnValue v = { s with fg := { s.fg with pc := .idle }, results := s.results ++ [v] }) ∧
    (∀ pc, s.fg.ret = some pc → (∀ bs n, pc ≠ .buf bs n) →
      s.returnValue v = { s with fg := { s.fg with pc := pc, ret := none } }) ∧
    (∀ bs n, s.fg.ret = some (.buf bs n) →
      (s.cfg.bufCount = .atCall → s.returnValue v = { s with fg := { s.fg with pc := .buf bs n, ret := none } }) ∧
      (s.cfg.bufCount = .atReturn → ∀ k, v = .count k →
        s.returnValue v = { s with fg := { s.fg with pc := .buf bs (n + k), ret := none } }))

/-- R111, R150: `BEGIN` step 1 computes and goes to `Begin2`; on `ConfigError` nothing changes but that the result is given. -/
def Obligations.BeginComputesFirst : Prop :=
  ∀ (baud : Nat) (fmt : FrameFormat) (s : State), s.fg.pc = .idle →
    (∀ u2x div, lcDivisor s.cfg baud = .ok (u2x, div) →
      exec (.beginCmd baud fmt) s = .next { s with
        fg := { pc := .begin2 u2x div (encodeFrame fmt) baud fmt, ret := s.fg.ret, port := s.here } }) ∧
    (∀ r, lcDivisor s.cfg baud = .error r → s.fg.ret = none →
      exec (.beginCmd baud fmt) s = .next { s with results := s.results ++ [.configError r] })

/-- R112, R113: `BEGIN` step 2 programs the hardware (for a divisor of the register's width, R27); step 3 resets the driver state and
returns `Ok`. -/
def Obligations.BeginProgramsThenResets : Prop :=
  (∀ (s : State) (u2x : Bool) (div : Nat) (pat : Byte) (baud : Nat) (fmt : FrameFormat),
    s.fg.pc = .begin2 u2x div pat baud fmt → div ≤ s.cfg.divMax →
    foregroundStep s = .next { s with
      port := { s.port with
        u2x := u2x, div := div, frame := pat, line := some { baudRate := baud, frameFormat := fmt }
        rxen := true, txen := true, rxcie := true, dreie := false }
      fg := { s.fg with pc := .begin3 } }) ∧
  (∀ s : State, s.fg.pc = .begin3 →
    foregroundStep s = .next (State.returnValue
      { s with port := { s.port with
          rx := { s.port.rx with head := 0, tail := 0 }, tx := { s.port.tx with head := 0, tail := 0 }
          transmitting := false, active := true } } .ok))

/-- R111 to R113, R129: the three steps of a `BEGIN` that no other step interrupts, from its record to its result. -/
def Obligations.BeginRunsToOk : Prop :=
  ∀ (baud : Nat) (fmt : FrameFormat) (s : State) (u2x : Bool) (div : Nat),
    s.turns = [.op s.here (encode (.beginCmd baud fmt)), .foreground, .foreground] →
    s.fg.pc = .idle → s.fg.ret = none → lcDivisor s.cfg baud = .ok (u2x, div) →
    core.run 3 s = .next { s with
      turns := [], results := s.results ++ [.ok], fg := { s.fg with port := s.here }
      port := { s.port with
        u2x := u2x, div := div, frame := encodeFrame fmt, line := some { baudRate := baud, frameFormat := fmt }
        rxen := true, txen := true, rxcie := true, dreie := false
        rx := { s.port.rx with head := 0, tail := 0 }, tx := { s.port.tx with head := 0, tail := 0 }
        transmitting := false, active := true } }

/-- R114, R115: `END` step 1 calls `FLUSH`; step 2 disables the port. -/
def Obligations.EndFlushesThenDisables : Prop :=
  (∀ s : State, s.fg.pc = .idle →
    exec .endCmd s = .next { s with fg := { pc := .flush1, ret := some .end2, port := s.here } }) ∧
  (∀ s : State, s.fg.pc = .end2 →
    foregroundStep s = .next (State.returnValue
      { s with port := { s.port with
          rxen := false, txen := false, rxcie := false, dreie := false, rxc := false
          rx := { s.port.rx with head := s.port.rx.tail }, active := false } } .done))

/-- R116, R126: `WRITE b` issued, and called at `Write1(b)`: refused on an inactive port (R126), the fast path, or on to `Write2(b)`. That
the issue and step 1 are one step of the model is log entry 9's. -/
def Obligations.WriteTakesFastPathWhenIdle : Prop :=
  ∀ (b : Byte) (s : State),
    (s.fg.pc = .idle → s.port.active = false → exec (.write b) s = .refused .portNotActive) ∧
    (s.fg.pc = .idle → s.fg.ret = none → s.port.active = true →
      s.port.transmitting = false ∧ s.port.dre = true ∧ s.port.tx.head = s.port.tx.tail →
      exec (.write b) s = .next { s with
        port := { s.port with tdr := b, dre := false, txc := false, dreie := true, transmitting := true }
        fg := { s.fg with port := s.here }, results := s.results ++ [.count 1] }) ∧
    (s.fg.pc = .idle → s.port.active = true →
      ¬(s.port.transmitting = false ∧ s.port.dre = true ∧ s.port.tx.head = s.port.tx.tail) →
      exec (.write b) s = .next { s with fg := { pc := .write2 b, ret := s.fg.ret, port := s.here } }) ∧
    (s.fg.pc = .write1 b → s.port.active = false → foregroundStep s = .refused .portNotActive) ∧
    (s.fg.pc = .write1 b → s.port.active = true →
      s.port.transmitting = false ∧ s.port.dre = true ∧ s.port.tx.head = s.port.tx.tail →
      foregroundStep s = .next (State.returnValue
        { s with port := { s.port with tdr := b, dre := false, txc := false, dreie := true, transmitting := true } }
        (.count 1))) ∧
    (s.fg.pc = .write1 b → s.port.active = true →
      ¬(s.port.transmitting = false ∧ s.port.dre = true ∧ s.port.tx.head = s.port.tx.tail) →
      foregroundStep s = .next { s with fg := { s.fg with pc := .write2 b } })

/-- R117: `WRITE` at `Write2(b)`: (a) push; (b) drain one byte by hand and try again; (c) no step: the foreground is held. -/
def Obligations.WriteEnqueuesOrDrainsOrHolds : Prop :=
  ∀ (b : Byte) (s : State) (cap : Nat), s.fg.pc = .write2 b → cap = s.cfg.txCap →
    ((s.port.tx.head + 1) % cap ≠ s.port.tx.tail →
      foregroundStep s = .next { s with
        port := { s.port with tx :=
          { storage := Memory.write none s.port.tx.storage s.port.tx.head b
            head := (s.port.tx.head + 1) % cap, tail := s.port.tx.tail } }
        fg := { s.fg with pc := .write3 } }) ∧
    (∀ v, (s.port.tx.head + 1) % cap = s.port.tx.tail → s.gie = false → s.port.dre = true →
      s.port.tx.head ≠ s.port.tx.tail → Memory.read none s.port.tx.storage s.port.tx.tail = some v →
      foregroundStep s = .next { s with port := { s.port with
        tx := { s.port.tx with tail := (s.port.tx.tail + 1) % cap }, tdr := v, dre := false, txc := false } }) ∧
    ((s.port.tx.head + 1) % cap = s.port.tx.tail → ¬(s.gie = false ∧ s.port.dre = true) →
      ∀ t, foregroundStep s ≠ .next t)

/-- R118: `WRITE` step 3. -/
def Obligations.WriteArmsInterrupt : Prop :=
  ∀ s : State, s.fg.pc = .write3 →
    foregroundStep s = .next (State.returnValue
      { s with port := { s.port with dreie := true, transmitting := true } } (.count 1))

/-- R119: `ManualDrain`, in a blocked `WRITE` and in a `FLUSH`, does to the port exactly what `ISR.TX` would do with interrupts enabled,
wherever `ISR.TX` would not stand behind a requested `ISR.RX` (R156; log entry 28). -/
def Obligations.ManualDrainIsTheHandlersPop : Prop :=
  ∀ (s t : State), s.gie = false → s.port.dre = true → s.port.tx.isEmpty = false →
    s.port.tx.wf s.cfg.txCap = true → ¬(s.cfg.isrOrder = .rxFirst ∧ s.port.rxcie = true ∧ s.port.rxc = true) →
    ((∃ b, s.fg.pc = .write2 b ∧ s.port.tx.isFull s.cfg.txCap = true) ∨
      (s.fg.pc = .flush1 ∧ s.port.transmitting = true ∧ ¬(s.port.tx.isEmpty = true ∧ s.port.txc = true))) →
    foregroundStep s = .next t →
    exec .isrTx { s with gie := true, port := { s.port with dreie := true } } =
      .next { s with gie := true, port := { t.port with dreie := true } }

/-- R120: `FLUSH` at `Flush1`: the four cases in their order; in the last there is no step. -/
def Obligations.FlushFourCases : Prop :=
  ∀ s : State, s.fg.pc = .flush1 →
    (s.port.transmitting = false → foregroundStep s = .next (s.returnValue .done)) ∧
    (s.port.transmitting = true → s.port.tx.head = s.port.tx.tail → s.port.txc = true →
      foregroundStep s = .next (State.returnValue { s with port := { s.port with transmitting := false } } .done)) ∧
    (∀ v, s.port.transmitting = true → s.gie = false → s.port.dre = true → s.port.tx.head ≠ s.port.tx.tail →
      Memory.read none s.port.tx.storage s.port.tx.tail = some v →
      foregroundStep s = .next { s with port := { s.port with
        tx := { s.port.tx with tail := (s.port.tx.tail + 1) % s.cfg.txCap }, tdr := v, dre := false, txc := false } }) ∧
    (s.port.transmitting = true → ¬(s.port.tx.head = s.port.tx.tail ∧ s.port.txc = true) →
      ¬(s.gie = false ∧ s.port.dre = true ∧ s.port.tx.head ≠ s.port.tx.tail) →
      ∀ t, foregroundStep s ≠ .next t)

/-- R120 with log entry 9: `FLUSH` issued on an idle foreground takes its case at `Flush1` in the same step: it returns, ends the burst, drains one
byte by hand, or stands at `Flush1` held. -/
def Obligations.FlushIsIssued : Prop :=
  ∀ s : State, s.fg.pc = .idle → s.fg.ret = none →
    (s.port.transmitting = false →
      exec .flush s = .next { s with fg := { s.fg with port := s.here }, results := s.results ++ [.done] }) ∧
    (s.port.transmitting = true → s.port.tx.head = s.port.tx.tail → s.port.txc = true →
      exec .flush s = .next { s with
        port := { s.port with transmitting := false }, fg := { s.fg with port := s.here }, results := s.results ++ [.done] }) ∧
    (∀ v, s.port.transmitting = true → s.gie = false → s.port.dre = true → s.port.tx.head ≠ s.port.tx.tail →
      Memory.read none s.port.tx.storage s.port.tx.tail = some v →
      exec .flush s = .next { s with
        port := { s.port with
          tx := { s.port.tx with tail := (s.port.tx.tail + 1) % s.cfg.txCap }, tdr := v, dre := false, txc := false }
        fg := { pc := .flush1, ret := none, port := s.here } }) ∧
    (s.port.transmitting = true → ¬(s.port.tx.head = s.port.tx.tail ∧ s.port.txc = true) →
      ¬(s.gie = false ∧ s.port.dre = true ∧ s.port.tx.head ≠ s.port.tx.tail) →
      exec .flush s = .next { s with fg := { pc := .flush1, ret := none, port := s.here } })

/-- R121, R36, R126: `WRITEBUF` issued, and at `Buf(bs, n)`: the count when no byte is left, otherwise the inner `WRITE` of the first, with the
rest and the count in the return slot, `n + 1` as R121 parks it or `n` as R36 does, as `bufCount` names (log entry 31); under either the inner
`WRITE`, which returns 1, leaves the count `n + 1`. That the issue and the first step are one step of the model is log entry 9's. -/
def Obligations.WritebufForwardsToWrite : Prop :=
  (∀ s : State, s.fg.pc = .idle → s.fg.ret = none →
    exec (.writebuf []) s = .next { s with fg := { s.fg with port := s.here }, results := s.results ++ [.count 0] }) ∧
  (∀ (b : Byte) (bs : List Byte) (s : State), s.fg.pc = .idle → s.port.active = true →
    (s.cfg.bufCount = .atCall → exec (.writebuf (b :: bs)) s =
      .next { s with fg := { pc := .write1 b, ret := some (.buf bs 1), port := s.here } }) ∧
    (s.cfg.bufCount = .atReturn → exec (.writebuf (b :: bs)) s =
      .next { s with fg := { pc := .write1 b, ret := some (.buf bs 0), port := s.here } })) ∧
  (∀ (b : Byte) (bs : List Byte) (s : State), s.fg.pc = .idle → s.port.active = false →
    exec (.writebuf (b :: bs)) s = .refused .portNotActive) ∧
  (∀ (n : Nat) (s : State), s.fg.pc = .buf [] n → foregroundStep s = .next (s.returnValue (.count n))) ∧
  (∀ (b : Byte) (bs : List Byte) (n : Nat) (s : State), s.fg.pc = .buf (b :: bs) n →
    (s.cfg.bufCount = .atCall →
      foregroundStep s = .next { s with fg := { s.fg with pc := .write1 b, ret := some (.buf bs (n + 1)) } }) ∧
    (s.cfg.bufCount = .atReturn →
      foregroundStep s = .next { s with fg := { s.fg with pc := .write1 b, ret := some (.buf bs n) } }) ∧
    ∃ t, foregroundStep s = .next t ∧ (t.returnValue (.count 1)).fg.pc = .buf bs (n + 1))

/-- R122, R125: `AVAILABLE` and `READY` return the count of unread bytes and `p.active`, and change nothing. -/
def Obligations.AvailableAndReadyResults : Prop :=
  ∀ s : State, s.fg.pc = .idle → s.fg.ret = none →
    exec .available s = .next { s with results := s.results ++
      [.count ((s.port.rx.head + s.cfg.rxCap - s.port.rx.tail) % s.cfg.rxCap)] } ∧
    exec .ready s = .next { s with results := s.results ++ [.bool s.port.active] }

/-- R123, R124: `PEEK` and `READ` return the oldest unread byte or -1; `READ` removes it; on an empty buffer nothing changes. -/
def Obligations.PeekAndReadResults : Prop :=
  ∀ s : State, s.fg.pc = .idle → s.fg.ret = none →
    (s.port.rx.head = s.port.rx.tail →
      exec .peek s = .next { s with results := s.results ++ [.value (-1)] } ∧
      exec .read s = .next { s with results := s.results ++ [.value (-1)] }) ∧
    (∀ b, s.port.rx.head ≠ s.port.rx.tail → Memory.read none s.port.rx.storage s.port.rx.tail = some b →
      exec .peek s = .next { s with results := s.results ++ [.value b.toNat] } ∧
      exec .read s = .next { s with
        port := { s.port with rx := { s.port.rx with tail := (s.port.rx.tail + 1) % s.cfg.rxCap } }
        results := s.results ++ [.value b.toNat] })

/-- R130, R126, R131: `PRINTPGM` issued: refused for an unterminated string and for a non-empty one on an inactive port, at once at its
end for an empty one, otherwise the inner `WRITE` of its first byte; and at `Pgm(a)` the same step. -/
def Obligations.PrintpgmForwardsToWrite : Prop :=
  ∀ (a : Nat) (s : State),
    (s.fg.pc = .idle → pgmTerminated s.cfg a = false → exec (.printpgm a) s = .refused .unterminatedString) ∧
    (s.fg.pc = .idle → pgmTerminated s.cfg a = true → pgmByte s.cfg a ≠ some 0 → s.port.active = false →
      exec (.printpgm a) s = .refused .portNotActive) ∧
    (s.fg.pc = .idle → s.fg.ret = none → pgmTerminated s.cfg a = true → pgmByte s.cfg a = some 0 →
      exec (.printpgm a) s = .next { s with fg := { s.fg with port := s.here }, results := s.results ++ [.done] }) ∧
    (∀ b, s.fg.pc = .idle → pgmTerminated s.cfg a = true → pgmByte s.cfg a = some b → b ≠ 0 →
      s.port.active = true →
      exec (.printpgm a) s = .next { s with fg := { pc := .write1 b, ret := some (.pgm (a + 1)), port := s.here } }) ∧
    (s.fg.pc = .pgm a → pgmByte s.cfg a = some 0 → foregroundStep s = .next (s.returnValue .done)) ∧
    (∀ b, s.fg.pc = .pgm a → pgmByte s.cfg a = some b → b ≠ 0 →
      foregroundStep s = .next { s with fg := { s.fg with pc := .write1 b, ret := some (.pgm (a + 1)) } })

/-- R131: the test `PRINTPGM` makes is that program space has a zero byte at some address at or after `a`. -/
def Obligations.TerminatedMeansZeroByteAhead : Prop :=
  ∀ (c : Cfg) (a : Nat), c.wf = true →
    (pgmTerminated c a = true ↔ ∃ z, a ≤ z ∧ z < 2 ^ c.pgmAddrBits ∧ pgmByte c z = some 0)

/-! ## Line engine and interrupt enable -/

/-- R136: `HW.TXLOAD`, under its guard and only there. -/
def Obligations.TxloadMovesByteToShiftRegister : Prop :=
  ∀ s : State,
    (∀ f, s.port.txen = true ∧ s.port.dre = false ∧ s.port.tsr = .idle → decodeFrame s.port.frame = some f →
      exec .hwTxload s =
        .next { s with port := { s.port with tsr := .busy (mkFrame s.port.tdr f), dre := true } }) ∧
    (¬(s.port.txen = true ∧ s.port.dre = false ∧ s.port.tsr = .idle) → ∀ t, exec .hwTxload s ≠ .next t)

/-- R29: the frame made for a byte: its width, its data masked, its parity bit, its stop bits; and the byte a receiver delivers for it. -/
def Obligations.FrameOfAByte : Prop :=
  ∀ (b : Byte) (f : FrameFormat),
    (mkFrame b f).size = f.size ∧ (mkFrame b f).stop = f.stop ∧ (mkFrame b f).wf = true ∧
    (∀ k, k < 8 → (mkFrame b f).data.getLsbD k = (decide (k < f.size.width) && b.getLsbD k)) ∧
    (f.parity = .none → (mkFrame b f).parity = none) ∧
    (∀ x, x = decide (((List.range f.size.width).countP fun k => b.getLsbD k) % 2 = 1) →
      (f.parity = .even → (mkFrame b f).parity = some x) ∧ (f.parity = .odd → (mkFrame b f).parity = some (!x))) ∧
    deliveredByte (mkFrame b f) = (mkFrame b f).data

/-- R137: `HW.TXDONE`, under its guard and only there: the frame is on the wire, and `TXC` is set only with nothing waiting in `TDR`. -/
def Obligations.TxdonePutsFrameOnWire : Prop :=
  ∀ s : State,
    (∀ f, s.port.tsr = .busy f →
      exec .hwTxdone s = .next { s with port := { s.port with
        wireOut := s.port.wireOut ++ [f], tsr := .idle
        txc := if s.port.dre = true then true else s.port.txc } }) ∧
    (s.port.tsr = .idle → ∀ t, exec .hwTxdone s ≠ .next t)

/-- R138: `HW.RXARRIVE`, in any state: ignored, delivered, or lost with the old byte kept. -/
def Obligations.RxarriveDeliversOrDrops : Prop :=
  ∀ (f : Frame) (s : State),
    (s.port.rxen = false → exec (.hwRxarrive f) s = .next s) ∧
    (s.port.rxen = true → s.port.rxc = false →
      exec (.hwRxarrive f) s = .next { s with port := { s.port with
        rdr := BitVec.ofNat 8 (f.data.toNat % 2 ^ f.size.width), rxc := true } }) ∧
    (s.port.rxen = true → s.port.rxc = true →
      exec (.hwRxarrive f) s = .next { s with port := { s.port with rxDropped := s.port.rxDropped + 1 } })

/-- R139: `GIE.SET` and `GIE.CLR`. -/
def Obligations.GieActionsSetTheEnable : Prop :=
  ∀ s : State, s.fg.pc = .idle →
    exec .gieSet s = .next { s with gie := true } ∧ exec .gieClr s = .next { s with gie := false }

/-! ## Handlers -/

/-- R158, R157: `ISR.RX` when requested (R153) and not behind `ISR.TX` (R156): `DATA` is read, and the byte is pushed or counted as
lost; the foreground and `gie` as they were; not requested, there is no such step. -/
def Obligations.ReceiveHandlerEffect : Prop :=
  ∀ s : State,
    (s.gie = true ∧ s.port.rxcie = true ∧ s.port.rxc = true ∧
        ¬(s.cfg.isrOrder = .txFirst ∧ s.port.dreie = true ∧ s.port.dre = true) →
      ((s.port.rx.head + 1) % s.cfg.rxCap ≠ s.port.rx.tail →
        exec .isrRx s = .next { s with port := { s.port with
          rxc := false
          rx := { storage := Memory.write none s.port.rx.storage s.port.rx.head s.port.rdr
                  head := (s.port.rx.head + 1) % s.cfg.rxCap, tail := s.port.rx.tail } } }) ∧
      ((s.port.rx.head + 1) % s.cfg.rxCap = s.port.rx.tail →
        exec .isrRx s = .next { s with port := { s.port with rxc := false, rxDropped := s.port.rxDropped + 1 } })) ∧
    (¬(s.gie = true ∧ s.port.rxcie = true ∧ s.port.rxc = true) → ∀ t, exec .isrRx s ≠ .next t)

/-- R159, R157: `ISR.TX` when requested (R154) and not behind `ISR.RX` (R156): one byte moves to `DATA`, or the interrupt is disabled;
the foreground, `gie` and `transmitting` as they were; not requested, there is no such step. -/
def Obligations.TransmitHandlerEffect : Prop :=
  ∀ s : State,
    (s.gie = true ∧ s.port.dreie = true ∧ s.port.dre = true ∧
        ¬(s.cfg.isrOrder = .rxFirst ∧ s.port.rxcie = true ∧ s.port.rxc = true) →
      (∀ v, s.port.tx.head ≠ s.port.tx.tail → Memory.read none s.port.tx.storage s.port.tx.tail = some v →
        exec .isrTx s = .next { s with port := { s.port with
          tx := { s.port.tx with tail := (s.port.tx.tail + 1) % s.cfg.txCap }, tdr := v, dre := false, txc := false } }) ∧
      (s.port.tx.head = s.port.tx.tail →
        exec .isrTx s = .next { s with port := { s.port with dreie := false } })) ∧
    (¬(s.gie = true ∧ s.port.dreie = true ∧ s.port.dre = true) → ∀ t, exec .isrTx s ≠ .next t)

/-- R156: with both handlers requested, `isrOrder` decides which may run; `either` allows both, and the two orders end in the same state. -/
def Obligations.HandlersCommute : Prop :=
  ∀ s : State, s.port.rxRequest s.gie = true → s.port.txRequest s.gie = true → s.port.tx.wf s.cfg.txCap = true →
    (s.cfg.isrOrder = .rxFirst → exec .isrTx s = .refused .notEnabled ∧ ∃ t, exec .isrRx s = .next t) ∧
    (s.cfg.isrOrder = .txFirst → exec .isrRx s = .refused .notEnabled ∧ ∃ t, exec .isrTx s = .next t) ∧
    (s.cfg.isrOrder = .either →
      ∃ r t u, exec .isrRx s = .next r ∧ exec .isrTx s = .next t ∧ exec .isrTx r = .next u ∧ exec .isrRx t = .next u)

/-- R157, R163, R143: no handler step and no engine step changes the foreground, `gie`, the results, another port, the configuration
registers, `transmitting`, `active`, an index it does not own, or an enable other than `DREIE` (which only `ISR.TX` clears). -/
def Obligations.HandlersAndEnginesKeepToTheirOwn : Prop :=
  ∀ (i : Instr) (s t : State),
    i = .isrRx ∨ i = .isrTx ∨ i = .hwTxload ∨ i = .hwTxdone ∨ (∃ f, i = .hwRxarrive f) → exec i s = .next t →
    t = { s with port := t.port } ∧
    t.port.transmitting = s.port.transmitting ∧ t.port.active = s.port.active ∧
    t.port.rxen = s.port.rxen ∧ t.port.txen = s.port.txen ∧ t.port.rxcie = s.port.rxcie ∧
    t.port.u2x = s.port.u2x ∧ t.port.div = s.port.div ∧ t.port.frame = s.port.frame ∧ t.port.line = s.port.line ∧
    t.port.io = s.port.io ∧ t.port.rx.tail = s.port.rx.tail ∧ t.port.tx.head = s.port.tx.head ∧
    t.port.tx.storage = s.port.tx.storage ∧
    (i ≠ .isrRx → t.port.rx = s.port.rx) ∧
    (i ≠ .isrTx → t.port.tx = s.port.tx ∧ t.port.dreie = s.port.dreie) ∧
    (t.port.dreie = true → s.port.dreie = true)

/-- The names the model gives to the stops of R39, R142 and R162 and to turns that are no step of any run (log entries 5, 12, 18): a slot
nothing has written, a `FRAME` that is no legal pattern, an agent whose guard does not hold (R5), a handler behind the other (R156), a held
or an idle foreground. -/
def Obligations.StopsAreNamed : Prop :=
  ∀ s : State,
    (∀ q r, r = s.port.queue q → r.head ≠ r.tail → Memory.read none r.storage r.tail = none →
      exec (.rbPop q) s = .fault .unwrittenSlot ∧ exec (.rbPeek q) s = .fault .unwrittenSlot) ∧
    (s.port.txen = true ∧ s.port.dre = false ∧ s.port.tsr = .idle → decodeFrame s.port.frame = none →
      exec .hwTxload s = .fault .frameNotLegal) ∧
    (¬(s.port.txen = true ∧ s.port.dre = false ∧ s.port.tsr = .idle) → exec .hwTxload s = .refused .notEnabled) ∧
    (s.port.tsr = .idle → exec .hwTxdone s = .refused .notEnabled) ∧
    (¬(s.gie = true ∧ s.port.rxcie = true ∧ s.port.rxc = true ∧
        ¬(s.cfg.isrOrder = .txFirst ∧ s.port.dreie = true ∧ s.port.dre = true)) →
      exec .isrRx s = .refused .notEnabled) ∧
    (¬(s.gie = true ∧ s.port.dreie = true ∧ s.port.dre = true ∧
        ¬(s.cfg.isrOrder = .rxFirst ∧ s.port.rxcie = true ∧ s.port.rxc = true)) →
      exec .isrTx s = .refused .notEnabled) ∧
    (s.fg.pc = .idle → foregroundStep s = .refused .noCommand) ∧
    (∀ b, s.fg.pc = .write2 b → (s.port.tx.head + 1) % s.cfg.txCap = s.port.tx.tail →
      ¬(s.gie = false ∧ s.port.dre = true) → foregroundStep s = .refused .foregroundHeld) ∧
    (s.fg.pc = .flush1 → s.port.transmitting = true → ¬(s.port.tx.head = s.port.tx.tail ∧ s.port.txc = true) →
      ¬(s.gie = false ∧ s.port.dre = true ∧ s.port.tx.head ≠ s.port.tx.tail) →
      foregroundStep s = .refused .foregroundHeld)

/-! ## Registers -/

/-- R79, R81, R52: under a legal `PortConfig`, changing one named bit of `CTRL` by reading, modifying and writing the register changes that
control bit and nothing else of the port; a write of `STATUS` changes `U2X` alone, whatever it says of the read-only flags; a write of
`FRAME` changes `FRAME` alone, and the two halves of a divisor of at most 16 bits, written in either order, `DIV` alone, each reading back;
each address reaches its register and every other none; and the `CTRL` and `STATUS` images of R81 under the reference map. -/
def Obligations.ControlBitsThroughTheRegister : Prop :=
  (∀ (c : Cfg) (p : Port) (v : Bool) (k : Nat) (w : Byte), p.io.wf = true → k ∈ p.io.ctrlBits →
    (∀ n, n < 8 → w.getLsbD n = if n = k then v else (p.image .ctrl).getLsbD n) →
    Port.ioWrite c p .ctrl w = .ok { p with
      rxcie := if k = p.io.rxcieBit then v else p.rxcie, dreie := if k = p.io.dreieBit then v else p.dreie
      rxen := if k = p.io.rxenBit then v else p.rxen, txen := if k = p.io.txenBit then v else p.txen }) ∧
  (∀ (c : Cfg) (p : Port) (w : Byte), p.io.wf = true →
    ∃ q, Port.ioWrite c p .status w = .ok q ∧ q = { p with u2x := w.getLsbD p.io.u2xBit } ∧
      (q.image .status).getLsbD p.io.u2xBit = w.getLsbD p.io.u2xBit) ∧
  (∀ (c : Cfg) (p : Port) (w : Byte),
    ∃ q, Port.ioWrite c p .frame w = .ok q ∧ q = { p with frame := w } ∧ q.image .frame = w) ∧
  (∀ (c : Cfg) (p : Port) (d : Nat), c.divBits ≤ 16 → d < 2 ^ c.divBits →
    (∃ q, Port.ioWrite c p .divHi (BitVec.ofNat 8 (d / 256)) = .ok q ∧
      Port.ioWrite c q .divLo (BitVec.ofNat 8 d) = .ok { p with div := d }) ∧
    (∃ q, Port.ioWrite c p .divLo (BitVec.ofNat 8 d) = .ok q ∧
      Port.ioWrite c q .divHi (BitVec.ofNat 8 (d / 256)) = .ok { p with div := d }) ∧
    (Port.image { p with div := d } .divHi).toNat = d / 256 ∧ (Port.image { p with div := d } .divLo).toNat = d % 256) ∧
  (∀ io : PortConfig, io.wf = true →
    ioReg io io.statusAddr = some .status ∧ ioReg io io.ctrlAddr = some .ctrl ∧ ioReg io io.frameAddr = some .frame ∧
    ioReg io io.divLoAddr = some .divLo ∧ ioReg io io.divHiAddr = some .divHi ∧ ioReg io io.dataAddr = some .data ∧
    ∀ a, a ∉ io.addresses → ioReg io a = none) ∧
  (∀ p : Port, p.io = .ref → p.rxcie = true → p.rxen = true → p.txen = true →
    p.image .ctrl = if p.dreie = true then 0xB8 else 0x98) ∧
  (∀ p : Port, p.io = .ref →
    (p.image .status).toNat = 128 * p.rxc.toNat + 64 * p.txc.toNat + 32 * p.dre.toNat + 2 * p.u2x.toNat)

/-- R55: the side effects of the register accesses: a read of `DATA` returns `RDR` and clears `RXC`; a write of `DATA` writes `TDR` and clears
`DRE` and `TXC`, and with `DRE = 0` is a fault (R142); a read of any other register changes nothing. -/
def Obligations.DataRegisterSideEffects : Prop :=
  ∀ (c : Cfg) (p : Port) (v : Byte),
    p.ioRead .data = (p.rdr, { p with rxc := false }) ∧
    (p.dre = true → p.ioWrite c .data v = .ok { p with tdr := v, dre := false, txc := false }) ∧
    (p.dre = false → p.ioWrite c .data v = .error .dataRegisterOccupied) ∧
    (∀ r, r ≠ .data → (p.ioRead r).2 = p)

/-- R17, R19, R39: `TDR` means something only while `DRE = 0` and `RDR` only while `RXC = 1`: whatever stands there otherwise, every
operation and every foreground step ends the same. -/
def Obligations.DataRegistersMeanNothingWhenEmpty : Prop :=
  ∀ (i : Instr) (s : State) (v : Byte),
    (s.port.dre = true →
      sameUpTo (·.withTdr v) (·.port.dre) (exec i s) (exec i (s.withTdr v)) ∧
      sameUpTo (·.withTdr v) (·.port.dre) (foregroundStep s) (foregroundStep (s.withTdr v))) ∧
    (s.port.rxc = false →
      sameUpTo (·.withRdr v) (fun t => !t.port.rxc) (exec i s) (exec i (s.withRdr v)) ∧
      sameUpTo (·.withRdr v) (fun t => !t.port.rxc) (foregroundStep s) (foregroundStep (s.withRdr v)))

/-- R105, R27, R28, R32: `U2X`, `DIV`, `FRAME` and `p.line` are changed by `BEGIN` step 2 and by nothing else. -/
def Obligations.OnlyBeginConfigures : Prop :=
  (∀ (i : Instr) (s t : State), exec i s = .next t →
    t.port.u2x = s.port.u2x ∧ t.port.div = s.port.div ∧ t.port.frame = s.port.frame ∧ t.port.line = s.port.line) ∧
  (∀ s t : State, foregroundStep s = .next t → (∀ u2x div pat baud fmt, s.fg.pc ≠ .begin2 u2x div pat baud fmt) →
    t.port.u2x = s.port.u2x ∧ t.port.div = s.port.div ∧ t.port.frame = s.port.frame ∧ t.port.line = s.port.line)

/-- R9, R10, R62, R132, H-9 of R186: an operation or foreground step touches one port; the others, the configuration, program space and the
number of ports stay as they were; and only `GIE.SET` and `GIE.CLR` change `gie` (R25). -/
def Obligations.StepsTouchOnePort : Prop :=
  (∀ (i : Instr) (s t : State), exec i s = .next t →
    t.before = s.before ∧ t.after = s.after ∧ t.cfg = s.cfg ∧ t.port.io = s.port.io ∧ t.turns = s.turns ∧
    (i ≠ .gieSet → i ≠ .gieClr → t.gie = s.gie)) ∧
  (∀ s t : State, foregroundStep s = .next t →
    t.before = s.before ∧ t.after = s.after ∧ t.cfg = s.cfg ∧ t.port.io = s.port.io ∧ t.turns = s.turns ∧
    t.gie = s.gie) ∧
  (∀ s t : State, step s = .next t → t.cfg = s.cfg ∧ t.ports.length = s.ports.length)

/-! ## Reset -/

/-- R38, R181, R33: the reset state, for every configuration and launch value of `gie`, where the spec gives a value. -/
def Obligations.ResetValues : Prop :=
  ∀ (c : Cfg) (gie : Bool) (io : PortConfig) (more : List PortConfig) (p : Port),
    p ∈ (State.launch c gie io more).ports →
    p.rx.head = 0 ∧ p.rx.tail = 0 ∧ p.tx.head = 0 ∧ p.tx.tail = 0 ∧ p.transmitting = false ∧ p.active = false ∧
    p.rxen = false ∧ p.txen = false ∧ p.rxcie = false ∧ p.dreie = false ∧ p.u2x = false ∧ p.div = 0 ∧
    p.line = none ∧ p.dre = true ∧ p.txc = false ∧ p.rxc = false ∧ p.tsr = .idle ∧ p.wireOut = [] ∧
    p.rxDropped = 0 ∧ (∀ a, Memory.read none p.rx.storage a = none ∧ Memory.read none p.tx.storage a = none) ∧
    (State.launch c gie io more).fg.pc = .idle ∧ (State.launch c gie io more).fg.ret = none ∧
    (State.launch c gie io more).gie = gie

/-- R182: the consequences of the reset state that it lists. -/
def Obligations.ResetConsequences : Prop :=
  ∀ (c : Cfg) (gie : Bool) (io : PortConfig) (more : List PortConfig) (s : State),
    s = State.launch c gie io more → c.wf = true →
    exec .ready s = .next { s with results := [.bool false] } ∧
    exec .available s = .next { s with results := [.count 0] } ∧
    exec .read s = .next { s with results := [.value (-1)] } ∧
    exec .peek s = .next { s with results := [.value (-1)] } ∧
    exec .flush s = .next { s with results := [.done] } ∧
    core.run 3 { s with turns := [.op 0 (encode .endCmd), .foreground, .foreground] } =
      .next { s with results := [.done] } ∧
    exec .isrRx s = .refused .notEnabled ∧ exec .isrTx s = .refused .notEnabled ∧
    (∀ f, exec (.hwRxarrive f) s = .next s) ∧
    exec .hwTxload s = .refused .notEnabled ∧ exec .hwTxdone s = .refused .notEnabled ∧
    (∀ b, exec (.write b) s = .refused .portNotActive)

/-- R37, R38: a reset state satisfies the invariants. -/
def Obligations.LaunchStatesSatisfyInvariant : Prop :=
  ∀ (c : Cfg) (gie : Bool) (io : PortConfig) (more : List PortConfig), c.wf = true →
    (State.launch c gie io more).Inv

/-! ## Whole-machine invariants -/

/-- R11 to R15, R27, R29: every step of every agent, internal operations included, keeps indices in range, the memories in canonical form,
unread slots written, and registers within their widths. -/
def Obligations.EveryStepKeepsStatesWellFormed : Prop :=
  ∀ s t : State, s.Wf → step s = .next t → t.Wf

/-- R37: the invariants are kept by every step that keeps duty H-7. -/
def Obligations.EveryStepKeepsInvariant : Prop :=
  ∀ s t : State, s.Inv → s.keepsDuty = true → step s = .next t → t.Inv

/-- R39, R142, R53, R155: under the invariants no step faults, except to report that the run has ended: no slot or `FRAME` is read before it is
written, `DATA` is never written with `DRE = 0`, and nothing is held for ever. -/
def Obligations.OnlyTheEndOfTheRunFaults : Prop :=
  ∀ (s : State) (f : Fault), s.Inv → step s = .fault f → f = .runEnded ∧ s.turns = [] ∧ s.fg.pc = .idle

/-- R61, R117, R120, R155: a held foreground step has something that lifts it: while a command is in progress some step of some agent is enabled. -/
def Obligations.HeldCommandsAreNeverDeadlocked : Prop :=
  ∀ s : State, s.Inv → s.fg.pc ≠ .idle → enabledMoves s ≠ []

/-- R59(c)(d), R119, R127, R140, R170: no step loses, duplicates or reorders a byte accepted for transmission: handlers, engines, every command as
it is issued and every foreground step but those of `BEGIN` leave the pipeline as it is, and a `WRITE` appends its byte once, on the fast path or when
it is queued. -/
def Obligations.TransmitPipelineIsConserved : Prop :=
  ∀ (s t : State) (f : FrameFormat) (fast : Bool), s.port.tx.wf s.cfg.txCap = true → decodeFrame s.port.frame = some f →
    fast = (!s.port.transmitting && s.port.dre && s.port.tx.isEmpty) →
    (∀ i, i = .isrRx ∨ i = .isrTx ∨ i = .hwTxload ∨ i = .hwTxdone ∨ (∃ g, i = .hwRxarrive g) → exec i s = .next t →
      t.port.pipeline s.cfg f = s.port.pipeline s.cfg f) ∧
    (∀ i, i.hostCommand = true → exec i s = .next t →
      t.port.pipeline s.cfg f = s.port.pipeline s.cfg f ++
        (match i with
          | .write b => if fast then [mkFrame b f] else []
          | _ => [])) ∧
    (s.fg.pc ≠ .begin3 → (∀ u2x div pat baud fmt, s.fg.pc ≠ .begin2 u2x div pat baud fmt) → foregroundStep s = .next t →
      t.port.pipeline s.cfg f = s.port.pipeline s.cfg f ++
        (match s.fg.pc with
          | .write1 b => if fast then [mkFrame b f] else []
          | .write2 b => if s.port.tx.isFull s.cfg.txCap then [] else [mkFrame b f]
          | _ => []))

/-- R8, R155, R171: each step of the transmitter, of `ISR.TX`, and of a manual drain lowers the work the transmit side owes, so that they cannot go
on for ever without a new `WRITE`. -/
def Obligations.TransmitStepsLowerTheWork : Prop :=
  ∀ s t : State, s.Inv →
    (∀ i, i = .isrTx ∨ i = .hwTxload ∨ i = .hwTxdone → exec i s = .next t →
      t.port.txWork s.cfg < s.port.txWork s.cfg) ∧
    (foregroundStep s = .next t →
      (∃ b, s.fg.pc = .write2 b ∧ t.fg.pc = .write2 b) ∨ (s.fg.pc = .flush1 ∧ t.fg.pc = .flush1) →
      t.port.txWork s.cfg < s.port.txWork s.cfg)

/-- R7, R189, R120: with interrupts enabled, when a run has ended (R7's end and not D26's: log entry 32) every port has sent everything: its transmit buffer is empty, and an active port
has nothing in `TDR`, `TSR` or unread in `RDR`. -/
def Obligations.EndedRunsHaveSentEverything : Prop :=
  ∀ s : State, s.Inv → s.gie = true → step s = .fault .runEnded → ∀ p ∈ s.ports,
    p.tx.isEmpty = true ∧ p.dreie = false ∧ p.tsr = .idle ∧ (p.active = true → p.dre = true ∧ p.rxc = false)
end

