-- ==== Sys2Proof/Laws/LineConfig.lean ====
section
/-! SUPPORT. The laws of the divisor encoder: its tests as propositions, and the two ways it can answer a divisor. -/

namespace Sys2Proof.Machine

variable {c : Cfg}

/-- `fit` of R100. -/
theorem fits_iff {q : Nat} : fits c q = true ↔ 1 ≤ q ∧ q ≤ c.divMax + 1 := by
  unfold fits
  rw [Bool.and_eq_true, decide_eq_true_eq, decide_eq_true_eq]

/-- `errgt` of R101. -/
theorem errgt_iff {fClk k q baud tol : Nat} : errgt fClk k q baud tol = true ↔
    tol * k * q * baud < ((fClk : Int) - (k * q * baud : Nat)).natAbs * 1000000 := by
  unfold errgt
  rw [decide_eq_true_eq]

/-- A divisor that was returned is that of the standard mode, within the switch tolerance, or that of the double-speed mode, not too far off. -/
theorem lcDivisor_ok {baud div : Nat} {u2x : Bool} (h : lcDivisor c baud = .ok (u2x, div)) : baud ≠ 0 ∧
    ((u2x = false ∧ div = quotient c.fClk 16 baud - 1 ∧ fits c (quotient c.fClk 16 baud) = true ∧
        errgt c.fClk 16 (quotient c.fClk 16 baud) baud c.tolSwitchPpm = false) ∨
      (u2x = true ∧ div = quotient c.fClk 8 baud - 1 ∧ fits c (quotient c.fClk 8 baud) = true ∧
        tooFar c (quotient c.fClk 8 baud) baud = false)) := by
  unfold lcDivisor at h
  split at h
  · cases h
  · rename_i h0
    refine ⟨h0, ?_⟩
    simp only at h
    split at h
    · rename_i hf
      rw [Bool.and_eq_true, Bool.not_eq_true'] at hf
      cases h
      exact .inl ⟨rfl, rfl, hf.1, hf.2⟩
    · split at h
      · cases h
      · rename_i hf
        split at h
        · cases h
        · rename_i ht
          cases h
          exact .inr ⟨rfl, rfl, by simpa using hf, by simpa using ht⟩

/-- A divisor that was returned fits its register. -/
theorem lcDivisor_div_lt {baud div : Nat} {u2x : Bool} (h : lcDivisor c baud = .ok (u2x, div)) : div < 2 ^ c.divBits := by
  have hp := Nat.two_pow_pos c.divBits
  obtain ⟨-, ⟨-, rfl, hf, -⟩ | ⟨-, rfl, hf, -⟩⟩ := lcDivisor_ok h <;>
    · obtain ⟨h1, h2⟩ := fits_iff.1 hf
      simp only [Cfg.divMax] at h2
      omega

end Sys2Proof.Machine
end

