-- ==== Sys2Proof/Laws/Memory.lean ====
section
/-! SUPPORT. The laws of byte memory: what a read gives after a write, and that a write keeps the canonical form. -/

namespace Sys2Proof.Machine

/-- The canonical form from a higher address on is the canonical form from a lower one on. -/
theorem Memory.wfFrom_mono {d : Option Byte} {lo lo' : Nat} {m : Memory} (h : lo' ≤ lo) (hm : Memory.wfFrom d lo m = true) :
    Memory.wfFrom d lo' m = true := by
  cases m with
  | nil => rfl
  | cons e m =>
    simp only [Memory.wfFrom, Bool.and_eq_true, decide_eq_true_eq] at hm ⊢
    exact ⟨⟨by omega, hm.1.2⟩, hm.2⟩

/-- Below its first address a memory reads as unlisted. -/
theorem Memory.read_of_wfFrom {d : Option Byte} {lo : Nat} {m : Memory} {a : Nat} (hm : Memory.wfFrom d lo m = true) (h : a < lo) :
    Memory.read d m a = d := by
  induction m generalizing lo with
  | nil => rfl
  | cons e m ih =>
    simp only [Memory.wfFrom, Bool.and_eq_true, decide_eq_true_eq] at hm
    rw [Memory.read, if_neg (by omega), ih hm.2 (by omega)]

/-- A byte written reads back, in a memory in canonical form. -/
theorem Memory.read_write_self {d : Option Byte} {lo : Nat} {m : Memory} (a : Nat) (b : Byte) (hm : Memory.wfFrom d lo m = true) :
    Memory.read d (Memory.write d m a b) a = some b := by
  induction m generalizing lo with
  | nil => by_cases h : d = some b <;> simp [Memory.write, Memory.read, h]
  | cons e m ih =>
    obtain ⟨k, v⟩ := e
    simp only [Memory.wfFrom, Bool.and_eq_true, decide_eq_true_eq] at hm
    rw [Memory.write]
    by_cases h1 : a < k
    · by_cases h2 : d = some b
      · rw [if_pos h1, if_pos h2, Memory.read, if_neg (by omega)]
        rw [Memory.read_of_wfFrom (Memory.wfFrom_mono (Nat.le_refl _) hm.2) (by omega), h2]
      · simp [h1, h2, Memory.read]
    · by_cases h3 : a = k
      · by_cases h2 : d = some b
        · rw [if_neg h1, if_pos h3, if_pos h2, Memory.read_of_wfFrom hm.2 (by omega), h2]
        · simp [h3, h2, Memory.read]
      · rw [if_neg h1, if_neg h3, Memory.read, if_neg h3]
        exact ih hm.2

/-- A write leaves every other address alone. -/
theorem Memory.read_write_ne {d : Option Byte} {m : Memory} {a a' : Nat} (b : Byte) (h : a' ≠ a) :
    Memory.read d (Memory.write d m a b) a' = Memory.read d m a' := by
  induction m with
  | nil => by_cases h2 : d = some b <;> simp [Memory.write, Memory.read, h2, h]
  | cons e m ih =>
    obtain ⟨k, v⟩ := e
    rw [Memory.write]
    split
    · split <;> simp [Memory.read, h]
    · split
      · rename_i h3
        subst h3
        split <;> simp [Memory.read, h]
      · simp only [Memory.read, ih]

/-- A write keeps the canonical form, from any address not above the one written. -/
theorem Memory.wfFrom_write {d : Option Byte} {lo : Nat} {m : Memory} {a : Nat} (b : Byte) (hlo : lo ≤ a)
    (hm : Memory.wfFrom d lo m = true) : Memory.wfFrom d lo (Memory.write d m a b) = true := by
  induction m generalizing lo with
  | nil => by_cases h2 : d = some b <;> simp [Memory.write, Memory.wfFrom, h2, hlo]
  | cons e m ih =>
    obtain ⟨k, v⟩ := e
    have hm' := hm
    simp only [Memory.wfFrom, Bool.and_eq_true, decide_eq_true_eq] at hm'
    obtain ⟨⟨hk, hv⟩, hrest⟩ := hm'
    rw [Memory.write]
    by_cases h1 : a < k
    · by_cases h2 : d = some b
      · rw [if_pos h1, if_pos h2]; exact hm
      · rw [if_pos h1, if_neg h2]
        simp only [Memory.wfFrom, Bool.and_eq_true, decide_eq_true_eq]
        exact ⟨⟨hlo, h2⟩, ⟨by omega, hv⟩, hrest⟩
    · by_cases h3 : a = k
      · by_cases h2 : d = some b
        · rw [if_neg h1, if_pos h3, if_pos h2]; exact Memory.wfFrom_mono (by omega) hrest
        · rw [if_neg h1, if_pos h3, if_neg h2]
          simp only [Memory.wfFrom, Bool.and_eq_true, decide_eq_true_eq]
          exact ⟨⟨hlo, h2⟩, h3 ▸ hrest⟩
      · rw [if_neg h1, if_neg h3]
        simp only [Memory.wfFrom, Bool.and_eq_true, decide_eq_true_eq]
        exact ⟨⟨hk, hv⟩, ih (by omega) hrest⟩

/-- A write keeps the canonical form. -/
theorem Memory.wf_write {d : Option Byte} {m : Memory} (a : Nat) (b : Byte) (hm : Memory.wf d m = true) :
    Memory.wf d (Memory.write d m a b) = true := Memory.wfFrom_write b (Nat.zero_le a) hm

/-- A write lists no address but the one written and those listed before. -/
theorem Memory.all_lt_write {d : Option Byte} {m : Memory} {cap a : Nat} (b : Byte) (ha : a < cap)
    (hm : (m.all fun e => decide (e.1 < cap)) = true) :
    ((Memory.write d m a b).all fun e => decide (e.1 < cap)) = true := by
  induction m with
  | nil => by_cases h2 : d = some b <;> simp [Memory.write, h2, ha]
  | cons e m ih =>
    obtain ⟨k, v⟩ := e
    simp only [List.all_cons, Bool.and_eq_true, decide_eq_true_eq] at hm
    rw [Memory.write]
    by_cases h1 : a < k
    · by_cases h2 : d = some b <;> simp [h1, h2, ha, hm.1] <;> simpa using hm.2
    · by_cases h3 : a = k
      · by_cases h2 : d = some b <;> simp [h3, h2, hm.1] <;> simpa using hm.2
      · simp only [if_neg h1, if_neg h3, List.all_cons, Bool.and_eq_true, decide_eq_true_eq]
        exact ⟨hm.1, ih hm.2⟩

/-- An empty memory is in canonical form. -/
@[simp] theorem Memory.wf_nil (d : Option Byte) : Memory.wf d [] = true := rfl

end Sys2Proof.Machine
end

