-- ==== Sys2Proof/Laws/State.lean ====
section
/-! SUPPORT. What each update of the state does to each field, once: later proofs rewrite with these and never unfold an update. -/

namespace Sys2Proof.Machine

variable (s : State) (p : Port) (pc ret : Pc) (v : Result)

/-! ## `fg.pc <- target` -/
@[simp] theorem State.goto_pc : (s.goto pc).fg.pc = pc := rfl
@[simp] theorem State.goto_ret : (s.goto pc).fg.ret = s.fg.ret := rfl
@[simp] theorem State.goto_fgPort : (s.goto pc).fg.port = s.fg.port := rfl
@[simp] theorem State.goto_port : (s.goto pc).port = s.port := rfl
@[simp] theorem State.goto_before : (s.goto pc).before = s.before := rfl
@[simp] theorem State.goto_after : (s.goto pc).after = s.after := rfl
@[simp] theorem State.goto_cfg : (s.goto pc).cfg = s.cfg := rfl
@[simp] theorem State.goto_gie : (s.goto pc).gie = s.gie := rfl
@[simp] theorem State.goto_turns : (s.goto pc).turns = s.turns := rfl
@[simp] theorem State.goto_tick : (s.goto pc).tick = s.tick := rfl
@[simp] theorem State.goto_results : (s.goto pc).results = s.results := rfl
@[simp] theorem State.goto_returned : (s.goto pc).returned = s.returned := rfl

/-! ## Issuing a command -/
@[simp] theorem State.issue_pc : (s.issue pc).fg.pc = pc := rfl
@[simp] theorem State.issue_ret : (s.issue pc).fg.ret = s.fg.ret := rfl
@[simp] theorem State.issue_fgPort : (s.issue pc).fg.port = s.here := rfl
@[simp] theorem State.issue_port : (s.issue pc).port = s.port := rfl
@[simp] theorem State.issue_before : (s.issue pc).before = s.before := rfl
@[simp] theorem State.issue_after : (s.issue pc).after = s.after := rfl
@[simp] theorem State.issue_cfg : (s.issue pc).cfg = s.cfg := rfl
@[simp] theorem State.issue_gie : (s.issue pc).gie = s.gie := rfl
@[simp] theorem State.issue_turns : (s.issue pc).turns = s.turns := rfl
@[simp] theorem State.issue_tick : (s.issue pc).tick = s.tick := rfl
@[simp] theorem State.issue_results : (s.issue pc).results = s.results := rfl
@[simp] theorem State.issue_returned : (s.issue pc).returned = s.returned := rfl

/-! ## Calling an inner command -/
@[simp] theorem State.call_pc : (s.call ret pc).fg.pc = pc := rfl
@[simp] theorem State.call_ret : (s.call ret pc).fg.ret = some ret := rfl
@[simp] theorem State.call_fgPort : (s.call ret pc).fg.port = s.fg.port := rfl
@[simp] theorem State.call_port : (s.call ret pc).port = s.port := rfl
@[simp] theorem State.call_before : (s.call ret pc).before = s.before := rfl
@[simp] theorem State.call_after : (s.call ret pc).after = s.after := rfl
@[simp] theorem State.call_cfg : (s.call ret pc).cfg = s.cfg := rfl
@[simp] theorem State.call_gie : (s.call ret pc).gie = s.gie := rfl
@[simp] theorem State.call_turns : (s.call ret pc).turns = s.turns := rfl
@[simp] theorem State.call_tick : (s.call ret pc).tick = s.tick := rfl
@[simp] theorem State.call_results : (s.call ret pc).results = s.results := rfl
@[simp] theorem State.call_returned : (s.call ret pc).returned = s.returned := rfl

/-! ## `return v`: it touches the foreground and the results alone -/
@[simp] theorem State.returnValue_fgPort : (s.returnValue v).fg.port = s.fg.port := by
  unfold State.returnValue; split <;> rfl
@[simp] theorem State.returnValue_ret : (s.returnValue v).fg.ret = none := by
  unfold State.returnValue; split <;> simp_all
@[simp] theorem State.returnValue_pc :
    (s.returnValue v).fg.pc = (s.fg.ret.map (Pc.resume s.cfg.bufCount v)).getD .idle := by
  unfold State.returnValue; split <;> simp_all
/- Resuming an outer command: only the count of `WRITEBUF` can change. -/
@[simp] theorem Pc.resume_end2 (form : BufCount) : Pc.resume form v .end2 = .end2 := rfl
@[simp] theorem Pc.resume_pgm (form : BufCount) (a : Nat) : Pc.resume form v (.pgm a) = .pgm a := rfl
@[simp] theorem Pc.resume_buf (form : BufCount) (bs : List Byte) (n : Nat) :
    Pc.resume form v (.buf bs n) = .buf bs (resumedCount form v n) := rfl
/-- Whichever form, an inner `WRITE`, which returns 1, adds 1 to the count that was parked. -/
@[simp] theorem resumedCount_parkedCount (form : BufCount) (n : Nat) :
    resumedCount form (.count 1) (parkedCount form n) = n + 1 := by cases form <;> rfl
@[simp] theorem Pc.needsActive_resume (form : BufCount) : (Pc.resume form v pc).needsActive = pc.needsActive := by cases pc <;> rfl

@[simp] theorem State.returnValue_port : (s.returnValue v).port = s.port := by
  unfold State.returnValue; split <;> rfl
@[simp] theorem State.returnValue_before : (s.returnValue v).before = s.before := by
  unfold State.returnValue; split <;> rfl
@[simp] theorem State.returnValue_after : (s.returnValue v).after = s.after := by
  unfold State.returnValue; split <;> rfl
@[simp] theorem State.returnValue_cfg : (s.returnValue v).cfg = s.cfg := by
  unfold State.returnValue; split <;> rfl
@[simp] theorem State.returnValue_gie : (s.returnValue v).gie = s.gie := by
  unfold State.returnValue; split <;> rfl
@[simp] theorem State.returnValue_turns : (s.returnValue v).turns = s.turns := by
  unfold State.returnValue; split <;> rfl
@[simp] theorem State.returnValue_tick : (s.returnValue v).tick = s.tick := by
  unfold State.returnValue; split <;> rfl
@[simp] theorem State.returnValue_returned : (s.returnValue v).returned = s.returned := by
  unfold State.returnValue; split <;> rfl

/-! ## The result of an internal operation -/
@[simp] theorem State.give_port : (s.give v).port = s.port := rfl
@[simp] theorem State.give_before : (s.give v).before = s.before := rfl
@[simp] theorem State.give_after : (s.give v).after = s.after := rfl
@[simp] theorem State.give_cfg : (s.give v).cfg = s.cfg := rfl
@[simp] theorem State.give_gie : (s.give v).gie = s.gie := rfl
@[simp] theorem State.give_fg : (s.give v).fg = s.fg := rfl
@[simp] theorem State.give_turns : (s.give v).turns = s.turns := rfl
@[simp] theorem State.give_tick : (s.give v).tick = s.tick := rfl
@[simp] theorem State.give_results : (s.give v).results = s.results := rfl
@[simp] theorem State.give_returned : (s.give v).returned = some v := rfl

/-! ## The buffer an operand names -/
@[simp] theorem Port.queue_rx : p.queue .rx = p.rx := rfl
@[simp] theorem Port.queue_tx : p.queue .tx = p.tx := rfl
@[simp] theorem Port.setQueue_rx (r : RingBuf) : p.setQueue .rx r = { p with rx := r } := rfl
@[simp] theorem Port.setQueue_tx (r : RingBuf) : p.setQueue .tx r = { p with tx := r } := rfl
@[simp] theorem capOf_rx (c : Cfg) : capOf c .rx = c.rxCap := rfl
@[simp] theorem capOf_tx (c : Cfg) : capOf c .tx = c.txCap := rfl

/-! ## Registers that mean something only under a flag -/
@[simp] theorem State.withTdr_port (b : Byte) : (s.withTdr b).port = { s.port with tdr := b } := rfl
@[simp] theorem State.withRdr_port (b : Byte) : (s.withRdr b).port = { s.port with rdr := b } := rfl

/-! ## The ports of the machine -/
@[simp] theorem State.length_ports : s.ports.length = s.before.length + s.after.length + 1 := by
  simp [State.ports]; omega

/-- The selected port is the one at its number. -/
@[simp] theorem State.ports_here : s.ports[s.here]? = some s.port := by simp [State.ports, State.here]

/-- Selecting the selected port changes nothing. -/
@[simp] theorem State.select_here : s.select s.here = some s := by
  unfold State.select
  simp [State.ports, State.here]

/-- Selecting port `j` keeps everything but which port is selected: the ports in order are the same, port `j` is the selected one. -/
theorem State.select_eq_some {s t : State} {j : Nat} (h : s.select j = some t) :
    t.ports = s.ports ∧ t.here = j ∧ s.ports[j]? = some t.port ∧ t.cfg = s.cfg ∧ t.gie = s.gie ∧ t.fg = s.fg ∧
      t.turns = s.turns ∧ t.tick = s.tick ∧ t.results = s.results ∧ t.returned = s.returned := by
  unfold State.select at h
  split at h
  · cases h
  · rename_i p rest heq
    cases h
    have hj : j < s.ports.length := by
      rcases Nat.lt_or_ge j s.ports.length with hlt | hge
      · exact hlt
      · rw [List.drop_eq_nil_of_le hge] at heq
        cases heq
    have hget : s.ports[j]? = some p := by
      have := List.getElem?_drop (xs := s.ports) (i := j) (j := 0)
      simp only [heq] at this
      simpa using this.symm
    refine ⟨?_, ?_, hget, rfl, rfl, rfl, rfl, rfl, rfl, rfl⟩
    · show s.ports.take j ++ p :: rest = s.ports
      rw [← heq, List.take_append_drop]
    · simp only [State.here, List.length_take]; omega

/-- A port the machine has can be selected. -/
theorem State.select_isSome {s : State} {j : Nat} (h : j < s.ports.length) : ∃ t, s.select j = some t := by
  unfold State.select
  split
  · rename_i heq
    have := congrArg List.length heq
    simp only [List.length_drop, List.length_nil] at this
    omega
  · exact ⟨_, rfl⟩

end Sys2Proof.Machine
end

