-- ==== Sys2Proof/Laws/Ops.lean ====
section
/-! SUPPORT. One inversion lemma for each shared operation: when it answers a next state (or a value), everything that can have
happened. Later proofs cite these and do not unfold the operations. -/

namespace Sys2Proof.Machine

variable {s t : State} {c : Cfg} {p p' : Port} {r : RingBuf}

/-! ## Shapes of a step -/

/-- A command that answers a next state was issued at `Idle`. -/
theorem State.whenIdle_next {k : Step} (h : s.whenIdle k = .next t) : s.fg.pc = .idle ∧ k = .next t := by
  unfold State.whenIdle at h
  split at h
  · exact ⟨‹_›, h⟩
  · cases h

/-- A command that faults was issued at `Idle`. -/
theorem State.whenIdle_fault {k : Step} {f : Fault} (h : s.whenIdle k = .fault f) : s.fg.pc = .idle ∧ k = .fault f := by
  unfold State.whenIdle at h
  split at h
  · exact ⟨‹_›, h⟩
  · cases h

/-- At `Idle` a command is what it does there. -/
theorem State.whenIdle_of_idle (h : s.fg.pc = .idle) (k : Step) : s.whenIdle k = k := if_pos h

/-- The next state of an operation on the selected port. -/
theorem State.withPort_next {x : Except Fault Port} (h : s.withPort x = .next t) :
    ∃ p, x = .ok p ∧ t = { s with port := p } := by
  unfold State.withPort at h
  split at h
  · exact ⟨_, rfl, (Host.Outcome.next.inj h).symm⟩
  · cases h

/-- A handler that ran was granted, and its body changed the port alone. -/
theorem State.takeInterrupt_next {g : Bool} {x : Except Fault Port} (h : s.takeInterrupt g x = .next t) :
    g = true ∧ ∃ p, x = .ok p ∧ t = { s with port := p } := by
  unfold State.takeInterrupt at h
  split at h
  · rename_i hg
    split at h
    · exact ⟨hg, _, rfl, (Host.Outcome.next.inj h).symm⟩
    · cases h
  · cases h

/-- A handler that faults was granted, and its body faults. -/
theorem State.takeInterrupt_fault {g : Bool} {x : Except Fault Port} {f : Fault} (h : s.takeInterrupt g x = .fault f) :
    g = true ∧ x = .error f := by
  unfold State.takeInterrupt at h
  split at h
  · rename_i hg
    split at h
    · cases h
    · exact ⟨hg, by rw [Host.Outcome.fault.inj h]⟩
  · cases h

/-- An engine step that was taken had its guard, and changed the port alone. -/
theorem State.engineStep_next {g : Bool} {x : Except Fault Port} (h : s.engineStep g x = .next t) :
    g = true ∧ ∃ p, x = .ok p ∧ t = { s with port := p } := by
  unfold State.engineStep at h
  split at h
  · exact ⟨‹_›, State.withPort_next h⟩
  · cases h

/-! ## The data register -/

/-- A write of `DATA` that was made found `DRE = 1`. -/
theorem Port.writeData_ok {b : Byte} (h : p.writeData b = .ok p') :
    p.dre = true ∧ p' = { p with tdr := b, dre := false, txc := false } := by
  unfold Port.writeData at h
  split at h
  · exact ⟨‹_›, (Except.ok.inj h).symm⟩
  · cases h

/-! ## Ring buffer -/

/-- The two ways a push can go. -/
theorem RingBuf.push_cases (cap : Nat) (r : RingBuf) (b : Byte) :
    (r.isFull cap = true ∧ r.push cap b = (r, false)) ∨
    (r.isFull cap = false ∧
      r.push cap b = ({ r with storage := Memory.write none r.storage r.head b, head := nextIndex cap r.head }, true)) := by
  unfold RingBuf.push
  cases h : r.isFull cap
  · exact .inr ⟨rfl, if_neg (by simp)⟩
  · exact .inl ⟨rfl, if_pos rfl⟩

/-- The two ways a pop can answer. -/
theorem RingBuf.pop_ok {cap : Nat} {r r' : RingBuf} {v : Option Byte} (h : r.pop cap = .ok (v, r')) :
    (r.isEmpty = true ∧ v = none ∧ r' = r) ∨
    (∃ b, r.isEmpty = false ∧ Memory.read none r.storage r.tail = some b ∧ v = some b ∧
      r' = { r with tail := nextIndex cap r.tail }) := by
  unfold RingBuf.pop RingBuf.peek at h
  cases he : r.isEmpty
  · simp only [he, Bool.false_eq_true, if_false] at h
    cases hr : Memory.read none r.storage r.tail with
    | none => simp [hr] at h
    | some b =>
      simp only [hr, Except.ok.injEq, Prod.mk.injEq] at h
      exact .inr ⟨b, rfl, rfl, h.1.symm, h.2.symm⟩
  · simp only [he, if_true, Except.ok.injEq, Prod.mk.injEq] at h
    exact .inl ⟨rfl, h.1.symm, h.2.symm⟩

/-- A pop faults only at an unread slot that nothing has written. -/
theorem RingBuf.pop_error {cap : Nat} {r : RingBuf} {f : Fault} (h : r.pop cap = .error f) :
    f = .unwrittenSlot ∧ r.isEmpty = false ∧ Memory.read none r.storage r.tail = none := by
  unfold RingBuf.pop RingBuf.peek at h
  cases he : r.isEmpty
  · simp only [he, Bool.false_eq_true, if_false] at h
    cases hr : Memory.read none r.storage r.tail with
    | none => simp only [hr, Except.error.injEq] at h; exact ⟨h.symm, rfl, rfl⟩
    | some b => simp [hr] at h
  · simp [he] at h

/-- A peek faults only at an unread slot that nothing has written. -/
theorem RingBuf.peek_error {r : RingBuf} {f : Fault} (h : r.peek = .error f) :
    f = .unwrittenSlot ∧ r.isEmpty = false ∧ Memory.read none r.storage r.tail = none := by
  unfold RingBuf.peek at h
  cases he : r.isEmpty
  · simp only [he, Bool.false_eq_true, if_false] at h
    cases hr : Memory.read none r.storage r.tail with
    | none => simp only [hr, Except.error.injEq] at h; exact ⟨h.symm, rfl, rfl⟩
    | some b => simp [hr] at h
  · simp [he] at h

/-- Moving one byte from the transmit buffer to `DATA`: nothing on an empty buffer, otherwise the oldest byte, with `DRE = 1` before. -/
theorem Port.drainOne_ok {o : Option Port} (h : p.drainOne c = .ok o) :
    (p.tx.isEmpty = true ∧ o = none) ∨
    (∃ b, p.tx.isEmpty = false ∧ Memory.read none p.tx.storage p.tx.tail = some b ∧ p.dre = true ∧
      o = some { p with tx := { p.tx with tail := nextIndex c.txCap p.tx.tail }, tdr := b, dre := false, txc := false }) := by
  unfold Port.drainOne at h
  cases hp : p.tx.pop c.txCap with
  | error f => simp [hp] at h
  | ok x =>
    obtain ⟨v, r'⟩ := x
    rcases RingBuf.pop_ok hp with ⟨he, rfl, rfl⟩ | ⟨b, he, hr, rfl, rfl⟩
    · simp only [hp, Except.ok.injEq] at h
      exact .inl ⟨he, h.symm⟩
    · simp only [hp] at h
      cases hw : Port.writeData { p with tx := { p.tx with tail := nextIndex c.txCap p.tx.tail } } b with
      | error f => simp [hw] at h
      | ok p' =>
        simp only [hw, Except.ok.injEq] at h
        obtain ⟨hd, rfl⟩ := Port.writeData_ok hw
        exact .inr ⟨b, he, hr, hd, h.symm⟩

/-- Moving one byte faults only at an unwritten slot, or on an occupied data register. -/
theorem Port.drainOne_error {f : Fault} (h : p.drainOne c = .error f) :
    p.tx.isEmpty = false ∧ (Memory.read none p.tx.storage p.tx.tail = none ∨ p.dre = false) := by
  unfold Port.drainOne at h
  cases hp : p.tx.pop c.txCap with
  | error f' => exact ⟨(RingBuf.pop_error hp).2.1, .inl (RingBuf.pop_error hp).2.2⟩
  | ok x =>
    obtain ⟨v, r'⟩ := x
    rcases RingBuf.pop_ok hp with ⟨he, rfl, rfl⟩ | ⟨b, he, hr, rfl, rfl⟩
    · simp [hp] at h
    · simp only [hp, Port.writeData] at h
      cases hd : p.dre
      · exact ⟨he, .inr rfl⟩
      · simp [hd] at h

/-! ## Steps of the foreground -/

/-- A manual drain: nothing on an empty buffer, otherwise one byte moved. -/
theorem manualDrain_next (h : manualDrain s = .next t) :
    (s.port.tx.isEmpty = true ∧ t = s) ∨
    (∃ b, s.port.tx.isEmpty = false ∧ Memory.read none s.port.tx.storage s.port.tx.tail = some b ∧ s.port.dre = true ∧
      t = { s with port := { s.port with
        tx := { s.port.tx with tail := nextIndex s.cfg.txCap s.port.tx.tail }, tdr := b, dre := false, txc := false } }) := by
  unfold manualDrain at h
  cases hd : s.port.drainOne s.cfg with
  | error f => simp [hd] at h
  | ok o =>
    rcases Port.drainOne_ok hd with ⟨he, rfl⟩ | ⟨b, he, hr, hdre, rfl⟩
    · simp only [hd, Host.Outcome.next.injEq] at h
      exact .inl ⟨he, h.symm⟩
    · simp only [hd, Host.Outcome.next.injEq] at h
      exact .inr ⟨b, he, hr, hdre, h.symm⟩

/-- `WRITE` step 1 goes by the fast path or on to step 2, on an active port. -/
theorem writeStep1_next {b : Byte} (h : writeStep1 b s = .next t) :
    s.port.active = true ∧
    ((s.port.transmitting = false ∧ s.port.dre = true ∧ s.port.tx.isEmpty = true ∧
        t = State.returnValue
          { s with port := { s.port with tdr := b, dre := false, txc := false, dreie := true, transmitting := true } }
          (.count 1)) ∨
      (¬(s.port.transmitting = false ∧ s.port.dre = true ∧ s.port.tx.isEmpty = true) ∧ t = s.goto (.write2 b))) := by
  unfold writeStep1 at h
  cases ha : s.port.active
  · simp [ha] at h
  refine ⟨rfl, ?_⟩
  simp only [ha, Bool.not_true, Bool.false_eq_true, if_false] at h
  by_cases hf : (!s.port.transmitting && s.port.dre && s.port.tx.isEmpty) = true
  · rw [if_pos hf] at h
    simp only [Bool.and_eq_true, Bool.not_eq_true'] at hf
    simp only [Port.writeData, hf.1.2, if_true, Host.Outcome.next.injEq] at h
    exact .inl ⟨hf.1.1, hf.1.2, hf.2, h.symm⟩
  · rw [if_neg hf, Host.Outcome.next.injEq] at h
    simp only [Bool.and_eq_true, Bool.not_eq_true', and_assoc] at hf
    exact .inr ⟨hf, h.symm⟩

/-- `WRITE` step 2 pushes, or drains a full buffer by hand with interrupts off. -/
theorem writeStep2_next {b : Byte} (h : writeStep2 b s = .next t) :
    (s.port.tx.isFull s.cfg.txCap = false ∧
      t = State.goto { s with port := { s.port with tx :=
        { s.port.tx with
          storage := Memory.write none s.port.tx.storage s.port.tx.head b
          head := nextIndex s.cfg.txCap s.port.tx.head } } } .write3) ∨
    (s.port.tx.isFull s.cfg.txCap = true ∧ s.gie = false ∧ s.port.dre = true ∧ manualDrain s = .next t) := by
  unfold writeStep2 at h
  cases hf : s.port.tx.isFull s.cfg.txCap
  · simp only [hf, Bool.not_false, if_true, Host.Outcome.next.injEq] at h
    rcases RingBuf.push_cases s.cfg.txCap s.port.tx b with ⟨h1, -⟩ | ⟨-, h2⟩
    · rw [hf] at h1; cases h1
    · rw [h2] at h; exact .inl ⟨rfl, h.symm⟩
  · simp only [hf, Bool.not_true, Bool.false_eq_true, if_false] at h
    split at h
    · rename_i hg
      simp only [Bool.and_eq_true, Bool.not_eq_true'] at hg
      exact .inr ⟨rfl, hg.1, hg.2, h⟩
    · cases h

/-- `FLUSH` returns at once, ends the burst, or drains by hand with interrupts off. -/
theorem flushStep_next (h : flushStep s = .next t) :
    (s.port.transmitting = false ∧ t = s.returnValue .done) ∨
    (s.port.transmitting = true ∧ s.port.tx.isEmpty = true ∧ s.port.txc = true ∧
      t = State.returnValue { s with port := { s.port with transmitting := false } } .done) ∨
    (s.port.transmitting = true ∧ s.gie = false ∧ s.port.dre = true ∧ s.port.tx.isEmpty = false ∧ manualDrain s = .next t) := by
  unfold flushStep at h
  cases htr : s.port.transmitting
  · simp only [htr, Bool.not_false, if_true, Host.Outcome.next.injEq] at h
    exact .inl ⟨rfl, h.symm⟩
  · simp only [htr, Bool.not_true, Bool.false_eq_true, if_false] at h
    split at h
    · rename_i hc
      simp only [Bool.and_eq_true] at hc
      exact .inr (.inl ⟨rfl, hc.1, hc.2, (Host.Outcome.next.inj h).symm⟩)
    · split at h
      · rename_i hc
        simp only [Bool.and_eq_true, Bool.not_eq_true'] at hc
        exact .inr (.inr ⟨rfl, hc.1.1, hc.1.2, hc.2, h⟩)
      · cases h

/-- `WRITEBUF` returns its count, or calls `WRITE` for its next byte. -/
theorem bufStep_cases (bs : List Byte) (n : Nat) (s : State) :
    (bs = [] ∧ bufStep bs n s = s.returnValue (.count n)) ∨
    (∃ b rest, bs = b :: rest ∧ bufStep bs n s = s.call (.buf rest (parkedCount s.cfg.bufCount n)) (.write1 b)) := by
  cases bs with
  | nil => exact .inl ⟨rfl, rfl⟩
  | cons b rest => exact .inr ⟨b, rest, rfl, rfl⟩

/-- `PRINTPGM` returns at the null byte, or calls `WRITE` for the byte it has read. -/
theorem pgmStep_next {a : Nat} (h : pgmStep a s = .next t) :
    (pgmByte s.cfg a = some 0 ∧ t = s.returnValue .done) ∨
    (∃ b, pgmByte s.cfg a = some b ∧ b ≠ 0 ∧ t = s.call (.pgm (a + 1)) (.write1 b)) := by
  unfold pgmStep at h
  split at h
  · cases h
  · rename_i b hb
    split at h
    · rename_i h0
      exact .inl ⟨h0 ▸ hb, (Host.Outcome.next.inj h).symm⟩
    · exact .inr ⟨b, hb, ‹_›, (Host.Outcome.next.inj h).symm⟩

/-- `BEGIN` step 1 reports the error, or goes on to step 2 with what it has computed. -/
theorem beginStep1_cases (baud : Nat) (fmt : FrameFormat) (s : State) :
    (∃ r, lcDivisor s.cfg baud = .error r ∧ beginStep1 baud fmt s = s.returnValue (.configError r)) ∨
    (∃ u2x div, lcDivisor s.cfg baud = .ok (u2x, div) ∧
      beginStep1 baud fmt s = s.issue (.begin2 u2x div (encodeFrame fmt) baud fmt)) := by
  unfold beginStep1
  cases h : lcDivisor s.cfg baud with
  | error r => exact .inl ⟨r, rfl, rfl⟩
  | ok x => exact .inr ⟨x.1, x.2, rfl, rfl⟩

/-! ## The step -/

/-- What a fetched operation is: the port selected, the record decoded and well-formed. -/
theorem fetch_ok {j : Nat} {record : List Byte} {i : Instr} (h : fetch s j record = .ok (i, t)) :
    s.select j = some t ∧ (∃ rest, decode record = .ok (i, rest)) ∧ i.wf s.cfg = true := by
  unfold fetch at h
  cases hs : s.select j with
  | none => simp [hs] at h
  | some u =>
    cases hd : decode record with
    | error e => simp [hs, hd] at h
    | ok x =>
      obtain ⟨i', rest⟩ := x
      simp only [hs, hd] at h
      split at h
      · simp only [Except.ok.injEq, Prod.mk.injEq] at h
        obtain ⟨rfl, rfl⟩ := h
        exact ⟨rfl, ⟨rest, rfl⟩, ‹_›⟩
      · cases h

/-- The three ways a step can go: a scheduled operation, a scheduled turn of the foreground, or the block's own progress. -/
theorem step_cases (s : State) :
    (s.turns = [] ∧ step s = progress s) ∨
    (∃ ts, s.turns = .foreground :: ts ∧ step s = foregroundTurn { s with turns := ts }) ∨
    (∃ j record ts, s.turns = .op j record :: ts ∧
      ((∃ r, fetch { s with turns := ts } j record = .error r ∧ step s = .refused r) ∨
        ∃ i t, fetch { s with turns := ts } j record = .ok (i, t) ∧ step s = exec i t)) := by
  unfold step
  cases ht : s.turns with
  | nil => exact .inl ⟨rfl, rfl⟩
  | cons x ts =>
    cases x with
    | foreground => exact .inr (.inl ⟨ts, rfl, rfl⟩)
    | op j record =>
      refine .inr (.inr ⟨j, record, ts, rfl, ?_⟩)
      simp only
      split
      · exact .inl ⟨_, ‹_›, rfl⟩
      · exact .inr ⟨_, _, ‹_›, rfl⟩

/-- A turn of the foreground is its step on the port of its command. -/
theorem foregroundTurn_next (h : foregroundTurn s = .next t) : ∃ u, s.select s.fg.port = some u ∧ foregroundStep u = .next t := by
  unfold foregroundTurn at h
  split at h
  · cases h
  · exact ⟨_, ‹_›, h⟩

/-- An enabled move is one of the machine's moves, on a port it has, with its guard. -/
theorem enabledMoves_mem {m : Move} (h : m ∈ enabledMoves s) :
    m ∈ allMoves s ∧ ∃ u, moveSelect s m = some u ∧ moveGuard u m = true := by
  unfold enabledMoves at h
  rw [List.mem_filter] at h
  refine ⟨h.1, ?_⟩
  have := h.2
  unfold moveEnabled at this
  split at this
  · cases this
  · exact ⟨_, ‹_›, this⟩

/-- What the free value chooses from a list with no end: one of the moves, or, without the foreground among them, none. -/
theorem choices_getD {ms : List Move} {m : Move} (h : m ∈ ms) (k : Nat) :
    (∃ m' ∈ ms, (choices ms).getD k (some m) = some m') ∨
    (Move.foreground ∉ ms ∧ (choices ms).getD k (some m) = none) := by
  have hmem : (choices ms).getD k (some m) = some m ∨ (choices ms).getD k (some m) ∈ choices ms := by
    rw [List.getD_eq_getElem?_getD]
    cases hk : (choices ms)[k]? with
    | none => exact .inl rfl
    | some x => exact .inr (List.mem_of_getElem? hk)
  rcases hmem with e | e
  · exact .inl ⟨m, h, e⟩
  · rcases List.mem_append.1 e with e | e
    · obtain ⟨m', hm', he⟩ := List.mem_map.1 e
      exact .inl ⟨m', hm', he.symm⟩
    · split at e
      · cases e
      · exact .inr ⟨‹_›, List.mem_singleton.1 e⟩

/-- Everything the block can do by itself: stop, take an enabled move, or, unless the foreground is ready, take none yet. -/
theorem progress_cases (s : State) :
    (enabledMoves s = [] ∧ progress s = .fault (if s.fg.pc = .idle then .runEnded else .stuck)) ∨
    (∃ m ∈ enabledMoves s, ∃ k, progress s = runMove { s with tick := k } m) ∨
    (enabledMoves s ≠ [] ∧ Move.foreground ∉ enabledMoves s ∧ progress s = .next { s with tick := s.tick + 1 }) := by
  unfold progress
  cases he : enabledMoves s with
  | nil => exact .inl ⟨rfl, by simp only; split <;> rfl⟩
  | cons m ms =>
    refine .inr ?_
    simp only
    split
    · exact .inl ⟨m, List.mem_cons_self, s.tick, rfl⟩
    · rcases choices_getD (List.mem_cons_self (a := m) (l := ms)) (Config.freePick s.tick % (choices (m :: ms)).length) with
        ⟨m', h, e⟩ | ⟨h, e⟩
      · exact .inl ⟨m', h, s.tick + 1, by rw [e]; rfl⟩
      · exact .inr ⟨List.cons_ne_nil _ _, h, by rw [e]; rfl⟩

/-- Taking a move is its effect on the port it acts on. -/
theorem runMove_next {m : Move} (h : runMove s m = .next t) : ∃ u, moveSelect s m = some u ∧ moveEffect u m = .next t := by
  unfold runMove at h
  split at h
  · cases h
  · exact ⟨_, ‹_›, h⟩

end Sys2Proof.Machine
end

