-- ==== Sys2Proof/Laws/PerInstr.lean ====
section
/-! SUPPORT. The statement made of every operation as syntax: its record begins with its code, and whether a host can issue it is what the table's
codes say (spec/30_encoding.md R71, R73). -/

namespace Sys2Proof.Laws.Code

/-- R71: the record begins with the operation code. R73: "Only the rows `0x01` to `0x0A`, `0x50` and `0x51` are commands a host can issue". -/
def Statement (i : Instr) : Prop :=
  (encode i).head? = some (opcode i) ∧
    (i.hostCommand = true ↔ (1 ≤ (opcode i).toNat ∧ (opcode i).toNat ≤ 0x0A) ∨ opcode i = 0x50 ∨ opcode i = 0x51)

/-- An operation that is no host command and whose code is above those of the commands and below those of the interrupt enable. -/
theorem notCommand {c : Bool} {n : Byte} (hc : c = false) (hn : (!(decide (n.toNat ≤ 0x0A)) && (decide (n ≠ 0x50) && decide (n ≠ 0x51))) = true) :
    c = true ↔ (1 ≤ n.toNat ∧ n.toNat ≤ 0x0A) ∨ n = 0x50 ∨ n = 0x51 := by
  subst hc
  simp only [Bool.and_eq_true, Bool.not_eq_true', decide_eq_false_iff_not, decide_eq_true_eq] at hn
  refine iff_of_false Bool.noConfusion ?_
  rintro (⟨-, h⟩ | h | h)
  · exact hn.1 h
  · exact hn.2.1 h
  · exact hn.2.2 h

theorem beginCmd (baud : Nat) (fmt : FrameFormat) : Statement (.beginCmd baud fmt) :=
  ⟨rfl, iff_of_true rfl (.inl ⟨Nat.le_of_ble_eq_true rfl, Nat.le_of_ble_eq_true rfl⟩)⟩
theorem endCmd : Statement (.endCmd) :=
  ⟨rfl, iff_of_true rfl (.inl ⟨Nat.le_of_ble_eq_true rfl, Nat.le_of_ble_eq_true rfl⟩)⟩
theorem available : Statement (.available) :=
  ⟨rfl, iff_of_true rfl (.inl ⟨Nat.le_of_ble_eq_true rfl, Nat.le_of_ble_eq_true rfl⟩)⟩
theorem peek : Statement (.peek) :=
  ⟨rfl, iff_of_true rfl (.inl ⟨Nat.le_of_ble_eq_true rfl, Nat.le_of_ble_eq_true rfl⟩)⟩
theorem read : Statement (.read) :=
  ⟨rfl, iff_of_true rfl (.inl ⟨Nat.le_of_ble_eq_true rfl, Nat.le_of_ble_eq_true rfl⟩)⟩
theorem write (b : Byte) : Statement (.write b) :=
  ⟨rfl, iff_of_true rfl (.inl ⟨Nat.le_of_ble_eq_true rfl, Nat.le_of_ble_eq_true rfl⟩)⟩
theorem writebuf (bs : List Byte) : Statement (.writebuf bs) :=
  ⟨rfl, iff_of_true rfl (.inl ⟨Nat.le_of_ble_eq_true rfl, Nat.le_of_ble_eq_true rfl⟩)⟩
theorem flush : Statement (.flush) :=
  ⟨rfl, iff_of_true rfl (.inl ⟨Nat.le_of_ble_eq_true rfl, Nat.le_of_ble_eq_true rfl⟩)⟩
theorem ready : Statement (.ready) :=
  ⟨rfl, iff_of_true rfl (.inl ⟨Nat.le_of_ble_eq_true rfl, Nat.le_of_ble_eq_true rfl⟩)⟩
theorem printpgm (a : Nat) : Statement (.printpgm a) :=
  ⟨rfl, iff_of_true rfl (.inl ⟨Nat.le_of_ble_eq_true rfl, Nat.le_of_ble_eq_true rfl⟩)⟩
theorem rbPush (q : Queue) (b : Byte) : Statement (.rbPush q b) :=
  ⟨rfl, notCommand rfl rfl⟩
theorem rbPop (q : Queue) : Statement (.rbPop q) :=
  ⟨rfl, notCommand rfl rfl⟩
theorem rbPeek (q : Queue) : Statement (.rbPeek q) :=
  ⟨rfl, notCommand rfl rfl⟩
theorem rbAvailable (q : Queue) : Statement (.rbAvailable q) :=
  ⟨rfl, notCommand rfl rfl⟩
theorem rbIsfull (q : Queue) : Statement (.rbIsfull q) :=
  ⟨rfl, notCommand rfl rfl⟩
theorem rbIsempty (q : Queue) : Statement (.rbIsempty q) :=
  ⟨rfl, notCommand rfl rfl⟩
theorem rbClear (q : Queue) (form : ClearForm) : Statement (.rbClear q form) :=
  ⟨rfl, notCommand rfl rfl⟩
theorem lcDivisor (baud : Nat) : Statement (.lcDivisor baud) :=
  ⟨rfl, notCommand rfl rfl⟩
theorem lcFrame (fmt : FrameFormat) : Statement (.lcFrame fmt) :=
  ⟨rfl, notCommand rfl rfl⟩
theorem isrRx : Statement (.isrRx) :=
  ⟨rfl, notCommand rfl rfl⟩
theorem isrTx : Statement (.isrTx) :=
  ⟨rfl, notCommand rfl rfl⟩
theorem hwTxload : Statement (.hwTxload) :=
  ⟨rfl, notCommand rfl rfl⟩
theorem hwTxdone : Statement (.hwTxdone) :=
  ⟨rfl, notCommand rfl rfl⟩
theorem hwRxarrive (f : Frame) : Statement (.hwRxarrive f) :=
  ⟨rfl, notCommand rfl rfl⟩
theorem gieSet : Statement (.gieSet) :=
  ⟨rfl, iff_of_true rfl (.inr (.inl rfl))⟩
theorem gieClr : Statement (.gieClr) :=
  ⟨rfl, iff_of_true rfl (.inr (.inr rfl))⟩

end Sys2Proof.Laws.Code
end

