-- ==== Sys2Proof/Laws/RingBuffer.lean ====
section
/-! SUPPORT. The laws of the ring buffer: its index arithmetic without `mod`, its tests as equations, and what a pop, a push and a clear do to
the unread slots and to well-formedness. -/

namespace Sys2Proof.Machine

variable {cap : Nat} {r : RingBuf}

/-! ## Index arithmetic -/

/-- The count of unread slots, without `mod`. -/
theorem sub_mod_cap {cap h t : Nat} (hh : h < cap) (ht : t < cap) :
    (h + cap - t) % cap = if t ≤ h then h - t else h + cap - t := by
  split
  · rw [show h + cap - t = (h - t) + cap by omega, Nat.add_mod_right, Nat.mod_eq_of_lt (by omega)]
  · exact Nat.mod_eq_of_lt (by omega)

/-- The next index, without `mod`. -/
theorem succ_mod_cap {cap i : Nat} (hi : i < cap) : (i + 1) % cap = if i + 1 = cap then 0 else i + 1 := by
  split
  · rename_i h; rw [h, Nat.mod_self]
  · exact Nat.mod_eq_of_lt (by omega)

/-- The index `k` slots after `t`, without `mod`. -/
theorem add_mod_cap {cap t k : Nat} (ht : t < cap) (hk : k < cap) :
    (t + k) % cap = if t + k < cap then t + k else t + k - cap := by
  split
  · exact Nat.mod_eq_of_lt ‹_›
  · rw [Nat.mod_eq_sub_mod (by omega), Nat.mod_eq_of_lt (by omega)]

/-! ## The tests as equations -/

theorem RingBuf.isFull_iff : r.isFull cap = true ↔ (r.head + 1) % cap = r.tail := decide_eq_true_iff

theorem RingBuf.isFull_false_iff : r.isFull cap = false ↔ ¬(r.head + 1) % cap = r.tail := decide_eq_false_iff_not

theorem RingBuf.isEmpty_iff : r.isEmpty = true ↔ r.head = r.tail := decide_eq_true_iff

theorem RingBuf.isEmpty_false_iff : r.isEmpty = false ↔ ¬r.head = r.tail := decide_eq_false_iff_not

/-- For indices in range, full is a count of `CAP - 1`. -/
theorem full_iff_count {cap h t : Nat} (hh : h < cap) (ht : t < cap) : (h + 1) % cap = t ↔ (h + cap - t) % cap = cap - 1 := by
  rw [sub_mod_cap hh ht, succ_mod_cap hh]
  split <;> split <;> omega

/-- For indices in range, empty is a count of 0. -/
theorem empty_iff_count {cap h t : Nat} (hh : h < cap) (ht : t < cap) : h = t ↔ (h + cap - t) % cap = 0 := by
  rw [sub_mod_cap hh ht]
  split <;> omega

/-! ## Well-formed buffers -/

/-- The parts of well-formedness. -/
theorem RingBuf.wf_iff : r.wf cap = true ↔
    r.head < cap ∧ r.tail < cap ∧ Memory.wf none r.storage = true ∧
      (r.storage.all fun e => decide (e.1 < cap)) = true ∧ ∀ k < r.available cap, (r.slot cap k).isSome = true := by
  simp [RingBuf.wf, RingBuf.slots, and_assoc]

/-- A buffer just after reset is well-formed. -/
theorem RingBuf.wf_reset (h : 0 < cap) : RingBuf.reset.wf cap = true := by
  simp [RingBuf.wf_iff, RingBuf.reset, RingBuf.available, h]

/-- In a well-formed buffer that is not empty the slot at `tail` has been written. -/
theorem RingBuf.read_tail_of_wf (h : r.wf cap = true) (he : r.isEmpty = false) :
    ∃ b, Memory.read none r.storage r.tail = some b := by
  obtain ⟨h1, h2, -, -, h5⟩ := wf_iff.1 h
  have hne := isEmpty_false_iff.1 he
  have h0 : 0 < r.available cap := by
    have := mt (empty_iff_count h1 h2).2 hne
    simp only [RingBuf.available]; omega
  have := h5 0 h0
  rw [RingBuf.slot, Nat.add_zero, Nat.mod_eq_of_lt h2] at this
  exact Option.isSome_iff_exists.1 this

/-- The unread bytes of a well-formed buffer fill its unread slots. -/
theorem RingBuf.map_some_unread (h : r.wf cap = true) : (r.unread cap).map some = r.slots cap := by
  have hs : ∀ x ∈ r.slots cap, x.isSome = true := by
    simpa [RingBuf.slots] using (wf_iff.1 h).2.2.2.2
  unfold RingBuf.unread
  generalize r.slots cap = l at hs
  induction l with
  | nil => rfl
  | cons x l ih =>
    obtain ⟨b, rfl⟩ := Option.isSome_iff_exists.1 (hs x (by simp))
    show some b :: (List.filterMap id l).map some = _
    rw [ih (fun y hy => hs y (by simp [hy]))]

/-- The unread bytes are determined by the unread slots. -/
theorem RingBuf.unread_of_slots {l : List Byte} (h : r.slots cap = l.map some) : r.unread cap = l := by
  rw [RingBuf.unread, h]
  simp [List.filterMap_map]

/-- A pop takes the first unread slot away. -/
theorem RingBuf.slots_pop (h : r.wf cap = true) (he : r.isEmpty = false) :
    r.slots cap = Memory.read none r.storage r.tail :: RingBuf.slots cap { r with tail := nextIndex cap r.tail } ∧
      RingBuf.wf cap { r with tail := nextIndex cap r.tail } = true ∧
      r.available cap = RingBuf.available cap { r with tail := nextIndex cap r.tail } + 1 := by
  obtain ⟨h1, h2, h3, h4, h5⟩ := wf_iff.1 h
  have hne := isEmpty_false_iff.1 he
  have ha : r.available cap = RingBuf.available cap { r with tail := nextIndex cap r.tail } + 1 := by
    simp only [RingBuf.available, nextIndex]
    rw [sub_mod_cap h1 h2, sub_mod_cap h1 (Nat.mod_lt _ (by omega)), succ_mod_cap h2]
    split <;> split <;> (try split) <;> omega
  have hslot : ∀ k, RingBuf.slot cap { r with tail := nextIndex cap r.tail } k = r.slot cap (k + 1) := by
    intro k
    simp only [RingBuf.slot, nextIndex]
    congr 1
    rw [Nat.mod_add_mod]
    congr 1
    omega
  refine ⟨?_, wf_iff.2 ⟨h1, Nat.mod_lt _ (by omega), h3, h4, fun k hk => ?_⟩, ha⟩
  · rw [RingBuf.slots, ha, List.range_succ_eq_map, List.map_cons, List.map_map]
    congr 1
    · simp [RingBuf.slot, Nat.mod_eq_of_lt h2]
    · exact List.map_congr_left (fun k _ => (hslot k).symm)
  · rw [hslot]
    exact h5 _ (by omega)

/-- A push that succeeds adds one unread slot at the end; it succeeds below a count of `CAP - 1`. -/
theorem RingBuf.slots_push (b : Byte) (h : r.wf cap = true) (he : r.isFull cap = false) :
    RingBuf.slots cap { r with storage := Memory.write none r.storage r.head b, head := nextIndex cap r.head } =
        r.slots cap ++ [some b] ∧
      RingBuf.wf cap { r with storage := Memory.write none r.storage r.head b, head := nextIndex cap r.head } = true ∧
      r.available cap < cap - 1 := by
  obtain ⟨h1, h2, h3, h4, h5⟩ := wf_iff.1 h
  have hne := isFull_false_iff.1 he
  have ha : RingBuf.available cap { r with storage := Memory.write none r.storage r.head b, head := nextIndex cap r.head } =
      r.available cap + 1 := by
    simp only [RingBuf.available, nextIndex]
    rw [succ_mod_cap h1] at hne ⊢
    rw [sub_mod_cap h1 h2, sub_mod_cap (by split <;> omega) h2]
    split at hne <;> (simp only [if_pos, *, ite_false]) <;> (split <;> (try split) <;> omega)
  have hlt : r.available cap < cap - 1 := by
    have h6 := Nat.mod_lt (r.head + cap - r.tail) (show cap > 0 by omega)
    have h7 := mt (full_iff_count h1 h2).2 hne
    simp only [RingBuf.available]; omega
  have hpos : (r.tail + r.available cap) % cap = r.head := by
    rw [add_mod_cap h2 (by omega), RingBuf.available, sub_mod_cap h1 h2]
    split <;> split <;> omega
  have hslot : ∀ k, k < r.available cap →
      RingBuf.slot cap { r with storage := Memory.write none r.storage r.head b, head := nextIndex cap r.head } k =
        r.slot cap k := by
    intro k hk
    refine Memory.read_write_ne b fun hc => ?_
    rw [← hpos] at hc
    simp only at hc
    rw [add_mod_cap h2 (by omega), add_mod_cap h2 (by omega)] at hc
    split at hc <;> split at hc <;> omega
  have hlast : RingBuf.slot cap { r with storage := Memory.write none r.storage r.head b, head := nextIndex cap r.head }
      (r.available cap) = some b := by
    simp only [RingBuf.slot]
    rw [hpos]
    exact Memory.read_write_self r.head b h3
  refine ⟨?_, wf_iff.2 ⟨Nat.mod_lt _ (by omega), h2, Memory.wf_write _ _ h3, Memory.all_lt_write b h1 h4, fun k hk => ?_⟩, hlt⟩
  · rw [RingBuf.slots, ha, List.range_succ, List.map_append]
    congr 1
    · exact List.map_congr_left fun k hk => hslot k (List.mem_range.1 hk)
    · simp [hlast]
  · rw [ha] at hk
    by_cases hk' : k < r.available cap
    · rw [hslot k hk']; exact h5 k hk'
    · rw [show k = r.available cap by omega, hlast]; rfl

/-- Both clears keep a buffer well-formed. -/
theorem RingBuf.wf_clear (h : r.wf cap = true) : r.clear0.wf cap = true ∧ r.clearH.wf cap = true := by
  obtain ⟨h1, h2, h3, h4, -⟩ := wf_iff.1 h
  constructor
  · refine wf_iff.2 ⟨by show 0 < cap; omega, by show 0 < cap; omega, h3, h4, fun k hk => ?_⟩
    simp [RingBuf.available, RingBuf.clear0] at hk
  · refine wf_iff.2 ⟨h2, h2, h3, h4, fun k hk => ?_⟩
    simp [RingBuf.available, RingBuf.clearH] at hk

/-- A push keeps a buffer well-formed. -/
theorem RingBuf.wf_push (b : Byte) (h : r.wf cap = true) : (r.push cap b).1.wf cap = true := by
  rcases RingBuf.push_cases cap r b with ⟨-, he⟩ | ⟨hf, he⟩ <;> rw [he]
  · exact h
  · exact (slots_push b h hf).2.1

/-- A pop keeps a buffer well-formed, and does not fault on a well-formed one. -/
theorem RingBuf.wf_pop (h : r.wf cap = true) : ∃ v r', r.pop cap = .ok (v, r') ∧ r'.wf cap = true := by
  cases hp : r.pop cap with
  | error f =>
    obtain ⟨-, he, hr⟩ := RingBuf.pop_error hp
    obtain ⟨b, hb⟩ := RingBuf.read_tail_of_wf h he
    rw [hb] at hr; cases hr
  | ok x =>
    refine ⟨x.1, x.2, rfl, ?_⟩
    rcases RingBuf.pop_ok hp with ⟨-, -, e⟩ | ⟨b, he, -, -, e⟩ <;> rw [e]
    · exact h
    · exact (slots_pop h he).2.1

end Sys2Proof.Machine
end

