-- ==== Sys2Proof/Laws/Steps.lean ====
section
/-! SUPPORT. One inversion lemma for each meaning that is more than a shared operation: when it answers a next state, which case of its rule was taken
and what the state is then. -/

namespace Sys2Proof.Machine

variable {s t : State} {c : Cfg} {p : Port}

/-! ## Guards as propositions -/

/-- The guard of `ISR.RX`, with its place in `isrOrder`. -/
theorem Port.rxGrant_iff {order : IsrOrder} {gie : Bool} : p.rxGrant order gie = true ↔
    gie = true ∧ p.rxcie = true ∧ p.rxc = true ∧ ¬(order = .txFirst ∧ p.dreie = true ∧ p.dre = true) := by
  simp only [Port.rxGrant, Port.rxRequest, Port.txRequest]
  cases gie <;> cases p.rxcie <;> cases p.rxc <;> cases p.dreie <;> cases p.dre <;> simp

/-- The guard of `ISR.TX`, with its place in `isrOrder`. -/
theorem Port.txGrant_iff {order : IsrOrder} {gie : Bool} : p.txGrant order gie = true ↔
    gie = true ∧ p.dreie = true ∧ p.dre = true ∧ ¬(order = .rxFirst ∧ p.rxcie = true ∧ p.rxc = true) := by
  simp only [Port.txGrant, Port.rxRequest, Port.txRequest]
  cases gie <;> cases p.rxcie <;> cases p.rxc <;> cases p.dreie <;> cases p.dre <;> simp

/-- The guard of `HW.TXLOAD`. -/
theorem Port.txloadGuard_iff : p.txloadGuard = true ↔ p.txen = true ∧ p.dre = false ∧ p.tsr = .idle := by
  simp [Port.txloadGuard, and_assoc]

/-- The guard of `HW.TXDONE`. -/
theorem Port.txdoneGuard_iff : p.txdoneGuard = true ↔ ∃ f, p.tsr = .busy f := by
  unfold Port.txdoneGuard
  cases p.tsr <;> simp

/-! ## Handlers -/

/-- The body of `ISR.RX`: the flag is cleared, and the byte is pushed or counted as lost. -/
theorem Port.isrRx_cases (c : Cfg) (p : Port) :
    (p.rx.isFull c.rxCap = true ∧ p.isrRx c = { p with rxc := false, rxDropped := p.rxDropped + 1 }) ∨
    (p.rx.isFull c.rxCap = false ∧ p.isrRx c = { p with
      rxc := false
      rx := { p.rx with
        storage := Memory.write none p.rx.storage p.rx.head p.rdr, head := nextIndex c.rxCap p.rx.head } }) := by
  unfold Port.isrRx Port.readData
  rcases RingBuf.push_cases c.rxCap p.rx p.rdr with ⟨hf, he⟩ | ⟨hf, he⟩
  · exact .inl ⟨hf, by simp [he]⟩
  · exact .inr ⟨hf, by simp [he]⟩

/-- An `ISR.RX` that ran was granted. -/
theorem execIsrRx_next (h : execIsrRx s = .next t) :
    s.port.rxGrant s.cfg.isrOrder s.gie = true ∧ t = { s with port := s.port.isrRx s.cfg } := by
  obtain ⟨hg, p, hp, rfl⟩ := State.takeInterrupt_next h
  cases hp
  exact ⟨hg, rfl⟩

/-- An `ISR.TX` that ran was granted; it disabled itself on an empty buffer, or moved the oldest byte to `DATA`. -/
theorem execIsrTx_next (h : execIsrTx s = .next t) :
    s.port.txGrant s.cfg.isrOrder s.gie = true ∧
    ((s.port.tx.isEmpty = true ∧ t = { s with port := { s.port with dreie := false } }) ∨
      (∃ b, s.port.tx.isEmpty = false ∧ Memory.read none s.port.tx.storage s.port.tx.tail = some b ∧ s.port.dre = true ∧
        t = { s with port := { s.port with
          tx := { s.port.tx with tail := nextIndex s.cfg.txCap s.port.tx.tail }, tdr := b, dre := false, txc := false } })) := by
  obtain ⟨hg, p, hp, rfl⟩ := State.takeInterrupt_next h
  refine ⟨hg, ?_⟩
  unfold Port.isrTx at hp
  cases hd : s.port.drainOne s.cfg with
  | error f => simp [hd] at hp
  | ok o =>
    rcases Port.drainOne_ok hd with ⟨he, rfl⟩ | ⟨b, he, hr, hdre, rfl⟩ <;> simp only [hd, Except.ok.injEq] at hp <;> subst hp
    · exact .inl ⟨he, rfl⟩
    · exact .inr ⟨b, he, hr, hdre, rfl⟩

/-- `ISR.TX` faults only at an unread slot that nothing has written: its guard has `DRE = 1`. -/
theorem execIsrTx_fault {f : Fault} (h : execIsrTx s = .fault f) :
    s.port.tx.isEmpty = false ∧ Memory.read none s.port.tx.storage s.port.tx.tail = none := by
  obtain ⟨hg, hx⟩ := State.takeInterrupt_fault h
  have hdre := (Port.txGrant_iff.1 hg).2.2.1
  unfold Port.isrTx at hx
  cases hd : s.port.drainOne s.cfg with
  | error f' =>
    obtain ⟨he, hr | hr⟩ := Port.drainOne_error hd
    · exact ⟨he, hr⟩
    · rw [hdre] at hr; cases hr
  | ok o =>
    rcases Port.drainOne_ok hd with ⟨-, rfl⟩ | ⟨b, -, -, -, rfl⟩ <;> simp [hd] at hx

/-! ## Engines -/

/-- An `HW.TXLOAD` that was taken had its guard and a legal `FRAME`. -/
theorem execHwTxload_next (h : execHwTxload s = .next t) :
    s.port.txen = true ∧ s.port.dre = false ∧ s.port.tsr = .idle ∧
    ∃ f, decodeFrame s.port.frame = some f ∧
      t = { s with port := { s.port with tsr := .busy (mkFrame s.port.tdr f), dre := true } } := by
  obtain ⟨hg, p, hp, rfl⟩ := State.engineStep_next h
  obtain ⟨h1, h2, h3⟩ := Port.txloadGuard_iff.1 hg
  refine ⟨h1, h2, h3, ?_⟩
  unfold Port.txload at hp
  split at hp
  · cases hp
  · cases hp
    exact ⟨_, ‹_›, rfl⟩

/-- An `HW.TXDONE` that was taken put the frame of the shift register on the wire. -/
theorem execHwTxdone_next (h : execHwTxdone s = .next t) :
    ∃ f, s.port.tsr = .busy f ∧ t = { s with port := { s.port with
      wireOut := s.port.wireOut ++ [f], tsr := .idle, txc := s.port.txc || s.port.dre } } := by
  obtain ⟨hg, p, hp, rfl⟩ := State.engineStep_next h
  obtain ⟨f, hf⟩ := Port.txdoneGuard_iff.1 hg
  cases hp
  exact ⟨f, hf, by simp only [Port.txdone, hf]⟩

/-- The three branches of `HW.RXARRIVE`. -/
theorem Port.rxarrive_cases (p : Port) (f : Frame) :
    (p.rxen = false ∧ p.rxarrive f = p) ∨
    (p.rxen = true ∧ p.rxc = false ∧ p.rxarrive f = { p with rdr := deliveredByte f, rxc := true }) ∨
    (p.rxen = true ∧ p.rxc = true ∧ p.rxarrive f = { p with rxDropped := p.rxDropped + 1 }) := by
  unfold Port.rxarrive
  cases h1 : p.rxen
  · exact .inl ⟨rfl, rfl⟩
  · cases h2 : p.rxc
    · exact .inr (.inl ⟨rfl, rfl, rfl⟩)
    · exact .inr (.inr ⟨rfl, rfl, rfl⟩)

/-- `HW.RXARRIVE` changes the port alone. -/
theorem execHwRxarrive_next {f : Frame} (h : execHwRxarrive f s = .next t) : t = { s with port := s.port.rxarrive f } := by
  obtain ⟨p, hp, rfl⟩ := State.withPort_next h
  cases hp
  rfl

/-! ## Commands issued by the host -/

/-- A `WRITE` that was issued took its step 1. -/
theorem execWrite_next {b : Byte} (h : execWrite b s = .next t) :
    s.fg.pc = .idle ∧ writeStep1 b (s.issue (.write1 b)) = .next t := State.whenIdle_next h

/-- A `FLUSH` that was issued took its step, or stands at `Flush1` held. -/
theorem execFlush_next (h : execFlush s = .next t) :
    s.fg.pc = .idle ∧ (flushStep (s.issue .flush1) = .next t ∨
      ((∃ r, flushStep (s.issue .flush1) = .refused r) ∧ t = s.issue .flush1)) := by
  obtain ⟨hi, hk⟩ := State.whenIdle_next h
  refine ⟨hi, ?_⟩
  split at hk
  · rename_i r hr
    exact .inr ⟨⟨r, hr⟩, (Host.Outcome.next.inj hk).symm⟩
  · exact .inl hk

/-- A `WRITEBUF` that was issued had an active port or no byte, and took its step. -/
theorem execWritebuf_next {bs : List Byte} (h : execWritebuf bs s = .next t) :
    s.fg.pc = .idle ∧ (s.port.active = true ∨ bs = []) ∧ t = bufStep bs 0 (s.issue (.buf bs 0)) := by
  obtain ⟨hi, hk⟩ := State.whenIdle_next h
  split at hk
  · cases hk
  · rename_i hc
    refine ⟨hi, ?_, (Host.Outcome.next.inj hk).symm⟩
    cases ha : s.port.active
    · right; simpa [ha] using hc
    · exact .inl rfl

/-- A `PRINTPGM` that was issued had a terminated string, and an active port or an empty string, and took its step. -/
theorem execPrintpgm_next {a : Nat} (h : execPrintpgm a s = .next t) :
    s.fg.pc = .idle ∧ pgmTerminated s.cfg a = true ∧ (s.port.active = true ∨ pgmByte s.cfg a = some 0) ∧
      pgmStep a (s.issue (.pgm a)) = .next t := by
  obtain ⟨hi, hk⟩ := State.whenIdle_next h
  split at hk
  · cases hk
  · rename_i ht
    split at hk
    · cases hk
    · rename_i hc
      refine ⟨hi, by simpa using ht, ?_, hk⟩
      cases ha : s.port.active
      · right
        simp only [ha, Bool.not_false, Bool.true_and, Bool.not_eq_true', decide_eq_false_iff_not] at hc
        exact Decidable.not_not.1 hc
      · exact .inl rfl

/-- A `READ` that was issued returned the sentinel, or removed the oldest byte. -/
theorem execRead_next (h : execRead s = .next t) :
    s.fg.pc = .idle ∧ ∃ v r, s.port.rx.pop s.cfg.rxCap = .ok (v, r) ∧
      t = State.returnValue { s with port := { s.port with rx := r } } (readResult v) := by
  obtain ⟨hi, hk⟩ := State.whenIdle_next h
  refine ⟨hi, ?_⟩
  cases hp : s.port.rx.pop s.cfg.rxCap with
  | error f => simp [hp] at hk
  | ok x => exact ⟨x.1, x.2, rfl, by simpa [hp] using hk.symm⟩

/-- A `PEEK` that was issued returned the sentinel or the oldest byte. -/
theorem execPeek_next (h : execPeek s = .next t) :
    s.fg.pc = .idle ∧ ∃ v, s.port.rx.peek = .ok v ∧ t = s.returnValue (readResult v) := by
  obtain ⟨hi, hk⟩ := State.whenIdle_next h
  refine ⟨hi, ?_⟩
  cases hp : s.port.rx.peek with
  | error f => simp [hp] at hk
  | ok v => exact ⟨v, rfl, by simpa [hp] using hk.symm⟩

end Sys2Proof.Machine
end

