-- ==== Sys2Proof/Tests/Slice0.lean ====
section
/-! SUPPORT. The model's own tests. Every expected value is taken from spec/ (the vectors V-… of spec/95_test_vectors.md, the tables of
spec/30_encoding.md and spec/41_lineconfig.md, the examples of the rules), and each test is one step on a small state. Then, for every statement with hypotheses, a
witness: a concrete state and operands that meet them, clause by clause, at the ends of their ranges. -/

namespace Sys2Proof.Machine

set_option Elab.async false

/-! ## Helpers -/

/-- The next state, if the outcome is one. -/
def nextOf : Step → Option State
  | .next t => some t
  | .fault _ => none
  | .refused _ => none

/-- The refusal, if the outcome is one. -/
def refusalOf : Step → Option Refusal
  | .refused r => some r
  | .next _ => none
  | .fault _ => none

/-- The fault, if the outcome is one. -/
def faultOf : Step → Option Fault
  | .fault f => some f
  | .next _ => none
  | .refused _ => none

/-- A part of the next state. -/
def seen {α : Type} (o : Step) (f : State → α) : Option α := (nextOf o).map f

/-- `CFG_REF` with buffers of four slots. -/
def cfg4 : Cfg := { Cfg.ref with rxCap := 4, txCap := 4 }

/-- V-PG-2's program space, in `cfg4`. -/
def cfgPgm : Cfg := { cfg4 with pgm := [(0x0100, 0x6F), (0x0101, 0x6B)] }

/-- The port after `BEGIN 9600` (spec/95_test_vectors.md, "Port commands"). -/
def begun : Port :=
  { Port.reset .ref with
    active := true, rxen := true, txen := true, rxcie := true, div := 103, frame := 0x06
    line := some { baudRate := 9600, frameFormat := .default8N1 } }

/-- That port after `WRITE 0x41` by the fast path (V-SP-4). -/
def sending : Port := { begun with tdr := 0x41, dre := false, dreie := true, transmitting := true }

/-- A machine with that port, four-slot buffers, an idle foreground. -/
def st (p : Port) (gie : Bool := true) (c : Cfg := cfg4) : State := { State.launch c gie .ref [] with port := p }

/-- The same at another control point. -/
def stAt (pc : Pc) (p : Port) (gie : Bool := true) (ret : Option Pc := none) (c : Cfg := cfg4) : State :=
  { st p gie c with fg := { pc := pc, ret := ret, port := 0 } }

/-- A buffer holding `A1 A2 A3` from slot 0 (V-RB-2): full with four slots. -/
def ring3 : RingBuf := { storage := [(0, 0xA1), (1, 0xA2), (2, 0xA3)], head := 3, tail := 0 }

/-- A buffer holding `0x42` in slot 0 (V-IS-4). -/
def ring1 : RingBuf := { storage := [(0, 0x42)], head := 1, tail := 0 }

/-- V-RB-5: full, wrapped. -/
def ring4 : RingBuf := { storage := [(0, 0xA1), (1, 0xA2), (2, 0xA3), (3, 0xA4)], head := 0, tail := 1 }

/-- A frame `(8, d, none, 1)`. -/
def frame8 (d : Byte) : Frame := { size := .eight, data := d, parity := none, stop := .one }

/-! ## Well-formedness: an ill-formed term for each check (R4, R29, R53, R71) -/

theorem test_wf_refuses_wide_program_address : (Instr.printpgm 0x10000).wf .ref = false := by decide
theorem test_wf_takes_last_program_address : (Instr.printpgm 0xFFFF).wf .ref = true := by decide
theorem test_wf_refuses_wide_frame : (Instr.hwRxarrive ⟨.five, 0x20, none, .one⟩).wf .ref = false := by decide
theorem test_wf_takes_widest_frame : (Instr.hwRxarrive ⟨.five, 0x1F, none, .one⟩).wf .ref = true := by decide
theorem test_step_refuses_ill_formed :
    refusalOf (step { st begun with turns := [.op 0 (encode (.printpgm 0x10000))] }) = some .illFormed := by decide
theorem test_cfg_ref_wf : Cfg.ref.wf = true := by decide
theorem test_cfg_refuses_capacity_three : Cfg.wf { Cfg.ref with rxCap := 3 } = false := by decide
theorem test_cfg_refuses_capacity_one : Cfg.wf { Cfg.ref with txCap := 1 } = false := by decide
theorem test_cfg_refuses_low_failure_tolerance : Cfg.wf { Cfg.ref with tolFailPpm := some 19999 } = false := by decide
theorem test_cfg_refuses_program_byte_out_of_range : Cfg.wf { Cfg.ref with pgm := [(0x10000, 1)] } = false := by decide
theorem test_cfg_refuses_listed_zero_byte : Cfg.wf { Cfg.ref with pgm := [(1, 0)] } = false := by decide
theorem test_port_config_ref_wf : PortConfig.ref.wf = true := by decide
theorem test_port_config_refuses_shared_address : PortConfig.wf { PortConfig.ref with dataAddr := 0xC0 } = false := by decide
theorem test_port_config_refuses_shared_bit : PortConfig.wf { PortConfig.ref with txcBit := 7 } = false := by decide
theorem test_port_config_refuses_bit_eight : PortConfig.wf { PortConfig.ref with txenBit := 8 } = false := by decide

/-! ## Decoding: every constructor, from records written out from R71 to R78 -/

theorem test_decode_port_commands :
    decode [0x01, 0x80, 0x4B, 0x24] = .ok (.beginCmd 9600 ⟨.seven, .even, .one⟩, []) ∧
    decode [0x02] = .ok (.endCmd, []) ∧ decode [0x03] = .ok (.available, []) ∧ decode [0x04] = .ok (.peek, []) ∧
    decode [0x05] = .ok (.read, []) ∧ decode [0x06, 0xFF] = .ok (.write 0xFF, []) ∧
    decode [0x07, 0x02, 0x4F, 0x4B] = .ok (.writebuf [0x4F, 0x4B], []) ∧ decode [0x08] = .ok (.flush, []) ∧
    decode [0x09] = .ok (.ready, []) ∧ decode [0x0A, 0x80, 0x02] = .ok (.printpgm 0x0100, []) := by
  refine ⟨rfl, rfl, rfl, rfl, rfl, rfl, rfl, rfl, rfl, rfl⟩

theorem test_decode_ring_buffer :
    decode [0x10, 0x00, 0x7E] = .ok (.rbPush .rx 0x7E, []) ∧ decode [0x11, 0x01] = .ok (.rbPop .tx, []) ∧
    decode [0x12, 0x00] = .ok (.rbPeek .rx, []) ∧ decode [0x13, 0x01] = .ok (.rbAvailable .tx, []) ∧
    decode [0x14, 0x00] = .ok (.rbIsfull .rx, []) ∧ decode [0x15, 0x01] = .ok (.rbIsempty .tx, []) ∧
    decode [0x16, 0x01] = .ok (.rbClear .tx .clear0, []) ∧ decode [0x16, 0x02] = .ok (.rbClear .rx .clearH, []) := by
  refine ⟨rfl, rfl, rfl, rfl, rfl, rfl, rfl, rfl⟩

theorem test_decode_encoders_handlers_engine :
    decode [0x20, 0x92, 0xF4, 0x01] = .ok (.lcDivisor 31250, []) ∧ decode [0x21, 0x3E] = .ok (.lcFrame ⟨.eight, .odd, .two⟩, []) ∧
    decode [0x30] = .ok (.isrRx, []) ∧ decode [0x31] = .ok (.isrTx, []) ∧ decode [0x40] = .ok (.hwTxload, []) ∧
    decode [0x41] = .ok (.hwTxdone, []) ∧ decode [0x42, 0x34, 0x6B] = .ok (.hwRxarrive ⟨.seven, 0x6B, some true, .one⟩, []) ∧
    decode [0x50] = .ok (.gieSet, []) ∧ decode [0x51] = .ok (.gieClr, []) := by
  refine ⟨rfl, rfl, rfl, rfl, rfl, rfl, rfl, rfl, rfl⟩

/-- The rejections, each by its name (R78, R82, log entry 13). -/
theorem test_decode_rejects_by_name :
    decode [] = .error .emptyRecord ∧ decode [0x0B] = .error .invalidOpcode ∧ decode [0x06] = .error .truncated ∧
    decode [0x0A, 0x80, 0x00] = .error .nonMinimalNumber ∧ decode [0x21, 0x16] = .error .reservedFormat ∧
    decode [0x11, 0x02] = .error .reservedQueue ∧ decode [0x16, 0x04] = .error .reservedQueue ∧
    decode [0x42, 0x00, 0x20] = .error .reservedFrame := by
  refine ⟨rfl, rfl, rfl, rfl, rfl, rfl, rfl, rfl⟩

/-- R76's table: the bytes of the 24 formats, row by row. -/
theorem test_frame_format_table :
    ([DataBits.five, .six, .seven, .eight].map fun n =>
      [(Parity.none, StopBits.one), (.none, .two), (.even, .one), (.even, .two), (.odd, .one), (.odd, .two)].map fun x =>
        (encodeFrame ⟨n, x.1, x.2⟩).toNat) =
    [[0x00, 0x08, 0x20, 0x28, 0x30, 0x38], [0x02, 0x0A, 0x22, 0x2A, 0x32, 0x3A],
     [0x04, 0x0C, 0x24, 0x2C, 0x34, 0x3C], [0x06, 0x0E, 0x26, 0x2E, 0x36, 0x3E]] := by decide

/-- R78's reserved examples. -/
theorem test_reserved_frame_formats :
    ([0x01, 0x07, 0x10, 0x16, 0x40, 0x86, 0xC6, 0xFF] : List Byte).map decodeFrame = List.replicate 8 none := by decide

theorem test_decode_table_word :
    decodeTableWord 32 0x06_4B_80_01 = some (.beginCmd 9600 .default8N1) ∧ decodeTableWord 8 0x0A = some (.printpgm 0) ∧
    decodeTableWord 8 0x42 = some (.hwRxarrive ⟨.five, 0, none, .one⟩) := by decide

theorem test_step_runs_fetched_word :
    seen (step (State.reset.withFetchWord 8 0x50)) (fun t => (t.gie, t.turns)) = some (true, []) := by decide

/-! ## Ring buffer (V-RB) -/

theorem test_push_wraps : -- V-RB-5
    seen (exec (.rbPush .tx 0xA4) (st { begun with tx := { ring3 with tail := 1 } })) (fun t => (t.port.tx, t.returned)) =
      some (ring4, some (.bool true)) := by decide
theorem test_push_full_changes_nothing : -- V-RB-2
    seen (exec (.rbPush .tx 0xA4) (st { begun with tx := ring3 })) (fun t => (t.port.tx, t.returned)) =
      some (ring3, some (.bool false)) := by decide
theorem test_pop_keeps_slot : -- V-RB-4
    seen (exec (.rbPop .tx) (st { begun with tx := ring3 })) (fun t => (t.port.tx, t.returned)) =
      some ({ ring3 with tail := 1 }, some (.byte (some 0xA1))) := by decide
theorem test_pop_empty : -- V-RB-10
    seen (exec (.rbPop .rx) (st { begun with rx := { ring3 with head := 2, tail := 2 } })) (fun t => (t.port.rx.tail, t.returned)) =
      some (2, some (.byte none)) := by decide
theorem test_peek_removes_nothing : -- V-RB-8
    seen (exec (.rbPeek .tx) (st { begun with tx := ring4 })) (fun t => (t.port.tx, t.returned)) =
      some (ring4, some (.byte (some 0xA2))) := by decide
theorem test_peek_unwritten_slot_faults : -- R39
    faultOf (exec (.rbPeek .rx) (st { begun with rx := { storage := [], head := 1, tail := 0 } })) = some .unwrittenSlot := by decide
theorem test_available_wraps : -- V-RB-15
    seen (exec (.rbAvailable .rx) (st { begun with rx := { storage := [], head := 2, tail := 63 } } true .ref)) (·.returned) =
      some (some (.count 3)) := by decide
theorem test_isfull : -- R94's example
    seen (exec (.rbIsfull .rx) (st { begun with rx := { storage := [], head := 4, tail := 5 } } true .ref)) (·.returned) =
      some (some (.bool true)) := by decide
theorem test_isempty : -- V-RB-7
    seen (exec (.rbIsempty .tx) (st { begun with tx := ring4 })) (·.returned) = some (some (.bool false)) := by decide
theorem test_clear_forms : -- R96's example
    seen (exec (.rbClear .rx .clearH) (st { begun with rx := { storage := [], head := 9, tail := 4 } })) (·.port.rx) =
      some { storage := [], head := 4, tail := 4 } ∧
    seen (exec (.rbClear .rx .clear0) (st { begun with rx := { storage := [], head := 9, tail := 4 } })) (·.port.rx) =
      some { storage := [], head := 0, tail := 0 } := by decide
theorem test_unread_oldest_first : ring4.unread 4 = [0xA2, 0xA3, 0xA4] := by decide

/-! ## Encoders (R106, V-LC, V-FR) -/

/-- What `LC.DIVISOR` answers, as plain data. -/
def divisorOf (c : Cfg) (baud : Nat) : Option ConfigReason × Bool × Nat :=
  match lcDivisor c baud with
  | .error r => (some r, false, 0)
  | .ok (u2x, div) => (none, u2x, div)

/-- Rows of R106's table. -/
theorem test_divisor_table :
    [0, 1, 244, 245, 9600, 31250, 57600, 115200, 230400, 1000000, 2000000, 3000000].map (divisorOf .ref) =
    [(some .zeroBaud, false, 0), (some .divisorRange, false, 0), (some .divisorRange, false, 0), (none, false, 4081),
     (none, false, 103), (none, false, 31), (none, true, 34), (none, true, 16), (none, true, 8), (none, false, 0),
     (none, true, 0), (some .tolerance, false, 0)] := by decide
/-- V-LC-8 to V-LC-11, V-LC-14 to V-LC-16: equality passes, the two tolerances, the width of the register. -/
theorem test_divisor_corners :
    divisorOf { Cfg.ref with fClk := 1020000 } 62500 = (none, false, 0) ∧
    divisorOf { Cfg.ref with fClk := 1020001 } 62500 = (none, true, 1) ∧
    divisorOf { Cfg.ref with fClk := 1050000 } 125000 = (none, true, 0) ∧
    divisorOf { Cfg.ref with fClk := 1050001 } 125000 = (some .tolerance, false, 0) ∧
    divisorOf { Cfg.ref with tolFailPpm := none } 4000000 = (none, true, 0) ∧
    divisorOf { Cfg.ref with tolFailPpm := none } 40000000 = (some .divisorRange, false, 0) ∧
    divisorOf { Cfg.ref with tolSwitchPpm := 0 } 9600 = (none, true, 207) ∧
    divisorOf { Cfg.ref with divBits := 8 } 3906 = (none, false, 255) := by decide
theorem test_divisor_given_to_caller :
    seen (exec (.lcDivisor 400000) (st begun)) (·.returned) = some (some (.divisor true 4)) := by decide -- V-LC-1
theorem test_frame_pattern : -- R103's example
    seen (exec (.lcFrame ⟨.seven, .even, .two⟩) (st begun)) (·.returned) = some (some (.pattern 0x2C)) := by decide
/-- V-FR-1 to V-FR-8. -/
theorem test_frames :
    mkFrame 0x41 ⟨.eight, .none, .one⟩ = ⟨.eight, 0x41, none, .one⟩ ∧
    mkFrame 0x41 ⟨.eight, .even, .one⟩ = ⟨.eight, 0x41, some false, .one⟩ ∧
    mkFrame 0x41 ⟨.eight, .odd, .two⟩ = ⟨.eight, 0x41, some true, .two⟩ ∧
    mkFrame 0xEB ⟨.seven, .even, .one⟩ = ⟨.seven, 0x6B, some true, .one⟩ ∧
    mkFrame 0xFF ⟨.five, .none, .one⟩ = ⟨.five, 0x1F, none, .one⟩ ∧
    mkFrame 0x00 ⟨.eight, .odd, .one⟩ = ⟨.eight, 0x00, some true, .one⟩ ∧
    mkFrame 0xFF ⟨.six, .odd, .two⟩ = ⟨.six, 0x3F, some true, .two⟩ ∧ deliveredByte (mkFrame 0xEB ⟨.seven, .even, .one⟩) = 0x6B := by
  decide
/-- R29: start bit, data bits with bit 0 first, parity bit, stop bit. -/
theorem test_wire_bits : wireBits (mkFrame 0xEB ⟨.seven, .even, .one⟩) =
    [false, true, true, false, true, false, true, true, true, true] := by decide
theorem test_wire_rate : wireRate .ref begun = (16000000, 1664) := by decide -- R27: F_CLK / (16 * 104)

/-! ## Port commands (V-SP) -/

theorem test_begin_computes : -- V-SP-1
    seen (exec (.beginCmd 9600 .default8N1) State.reset) (fun t => (t.fg.pc, t.port)) =
      some (.begin2 false 103 0x06 9600 .default8N1, Port.reset .ref) := by decide
theorem test_begin_error_changes_nothing : -- V-SP-3
    seen (exec (.beginCmd 110 .default8N1) (st sending)) (fun t => (t.port, t.fg.pc, t.results)) =
      some (sending, .idle, [.configError .divisorRange]) := by decide
theorem test_begin_programs : -- V-SP-2
    seen (foregroundStep (stAt (.begin2 true 16 0x06 115200 .default8N1) { begun with dreie := true })) (fun t =>
        (t.port.u2x, t.port.div, t.port.image .divHi, t.port.image .divLo, t.port.image .ctrl, t.fg.pc)) =
      some (true, 16, 0x00, 0x10, 0x98, .begin3) := by decide
theorem test_begin_resets : -- V-SP-2
    seen (foregroundStep (stAt .begin3 { begun with rx := { ring3 with tail := 2 }, active := false })) (fun t =>
        (t.port.rx.head, t.port.rx.tail, t.port.active, t.fg.pc, t.results)) = some (0, 0, true, .idle, [.ok]) := by decide
theorem test_end_calls_flush : -- R114
    seen (exec .endCmd (st begun)) (fun t => (t.fg.pc, t.fg.ret)) = some (.flush1, some .end2) := by decide
theorem test_end_disables : -- V-SP-18
    seen (foregroundStep (stAt .end2 { begun with dreie := true, rxc := true, rx := { storage := [], head := 3, tail := 2 } })) (fun t =>
        (t.port.image .ctrl, t.port.rxc, t.port.rx.head, t.port.active, t.port.div)) = some (0x00, false, 2, false, 103) := by decide
theorem test_write_fast_path : -- V-SP-4
    seen (exec (.write 0x41) (st begun)) (fun t => (t.port, t.port.image .ctrl, t.results)) = some (sending, 0xB8, [.count 1]) := by decide
theorem test_write_inactive_refused : refusalOf (exec (.write 0x41) State.reset) = some .portNotActive := by decide -- V-SP-16
theorem test_write_enqueues : -- V-SP-5
    seen (foregroundStep (stAt (.write2 0x42) sending)) (fun t => (t.port.tx, t.fg.pc)) = some (ring1, .write3) := by decide
theorem test_write_drains_by_hand : -- V-SP-8
    seen (foregroundStep (stAt (.write2 0x35) { begun with tx := ring3, transmitting := true } false)) (fun t =>
        (t.port.tdr, t.port.dre, t.port.txc, t.port.tx.tail, t.fg.pc)) = some (0xA1, false, false, 1, .write2 0x35) := by decide
theorem test_flush_returns : -- V-SP-10
    seen (exec .flush (st { begun with transmitting := true, txc := true })) (fun t => (t.port.transmitting, t.fg.pc, t.results)) =
      some (false, .idle, [.done]) := by decide
theorem test_flush_held_on_data_register_empty : -- V-SP-11
    refusalOf (foregroundStep (stAt .flush1 { begun with transmitting := true, tsr := .busy (frame8 0x41) })) = some .foregroundHeld := by
  decide
theorem test_writebuf_empty : -- V-SP-17
    seen (exec (.writebuf []) (st begun)) (fun t => (t.port, t.results)) = some (begun, [.count 0]) := by decide
/-- P3, row 5 of spec/95_test_vectors.md, with the return slot as R121 has it and then as R36 has it (log entry 31), and `Buf(rest, 1)` after either. -/
theorem test_writebuf_calls_write :
    seen (exec (.writebuf [0x4F, 0x4B]) (st begun)) (fun t => (t.fg.pc, t.fg.ret)) = some (.write1 0x4F, some (.buf [0x4B] 1)) ∧
    seen (exec (.writebuf [0x4F, 0x4B]) (st begun true { cfg4 with bufCount := .atReturn })) (fun t => (t.fg.pc, t.fg.ret, (t.returnValue (.count 1)).fg.pc)) =
      some (.write1 0x4F, some (.buf [0x4B] 0), .buf [0x4B] 1) := by decide
theorem test_available : seen (exec .available (st { begun with rx := ring3 })) (·.results) = some [.count 3] := by decide -- P2, row 13
theorem test_peek_255_is_no_sentinel : -- V-SP-14
    seen (exec .peek (st { begun with rx := { storage := [(0, 0xFF)], head := 1, tail := 0 } })) (·.results) = some [.value 255] := by decide
theorem test_read_removes : -- V-SP-13
    seen (exec .read (st { begun with rx := { storage := [(0, 0x6F), (1, 0x6B)], head := 2, tail := 0 } })) (fun t => (t.port.rx.tail, t.results)) =
      some (1, [.value 0x6F]) := by decide
theorem test_read_empty : seen (exec .read State.reset) (·.results) = some [.value (-1)] := by decide -- V-SP-15
theorem test_ready : seen (exec .ready (st begun)) (·.results) = some [.bool true] := by decide -- P4, row 6
theorem test_command_in_progress_refused : -- R110(a)
    refusalOf (exec .ready (stAt .flush1 begun)) = some .commandNotIdle := by decide
theorem test_printpgm_first_byte : -- V-PG-2, P5 row 5
    seen (exec (.printpgm 0x0100) (st begun true cfgPgm)) (fun t => (t.fg.pc, t.fg.ret)) = some (.write1 0x6F, some (.pgm 0x0101)) := by decide
theorem test_printpgm_null_byte : -- V-PG-1
    seen (foregroundStep (stAt (.pgm 0x0102) begun true none cfgPgm)) (fun t => (t.port, t.fg.pc, t.results)) =
      some (begun, .idle, [.done]) := by decide

/-! ## Engines, handlers, interrupt enable (V-HW, V-IS, V-GI), registers (R81) -/

theorem test_txload : -- V-HW-1
    seen (exec .hwTxload (st sending)) (fun t => (t.port.tsr, t.port.dre, t.port.txc)) = some (.busy (frame8 0x41), true, false) := by decide
theorem test_txload_not_enabled : -- V-HW-4
    refusalOf (exec .hwTxload (st { sending with txen := false })) = some .notEnabled := by decide
theorem test_txdone_last_byte : -- V-HW-2
    seen (exec .hwTxdone (st { begun with tsr := .busy (frame8 0x41) })) (fun t => (t.port.wireOut, t.port.tsr, t.port.txc)) =
      some ([frame8 0x41], .idle, true) := by decide
theorem test_txdone_byte_waiting : -- V-HW-3
    seen (exec .hwTxdone (st { sending with tsr := .busy (frame8 0x40) })) (fun t => (t.port.wireOut, t.port.txc)) =
      some ([frame8 0x40], false) := by decide
theorem test_rxarrive_other_format : -- V-HW-9
    seen (exec (.hwRxarrive ⟨.seven, 0x6B, some true, .one⟩) (st begun)) (fun t => (t.port.rdr, t.port.rxc)) = some (0x6B, true) := by decide
theorem test_rxarrive_overrun : -- V-HW-7
    seen (exec (.hwRxarrive (frame8 0x70)) (st { begun with rdr := 0x6F, rxc := true })) (fun t => (t.port.rdr, t.port.rxDropped)) =
      some (0x6F, 1) := by decide
theorem test_isr_rx : -- V-IS-1
    seen (exec .isrRx (st { begun with rdr := 0x6F, rxc := true })) (fun t => (t.port.rx, t.port.rxc)) =
      some ({ storage := [(0, 0x6F)], head := 1, tail := 0 }, false) := by decide
theorem test_isr_rx_overflow : -- V-IS-2
    seen (exec .isrRx (st { begun with rdr := 0x6F, rxc := true, rx := ring3 })) (fun t => (t.port.rx, t.port.rxc, t.port.rxDropped)) =
      some (ring3, false, 1) := by decide
theorem test_isr_tx_moves_byte : -- V-IS-4
    seen (exec .isrTx (st { begun with dreie := true, tx := ring1 })) (fun t =>
        (t.port.tdr, t.port.dre, t.port.txc, t.port.tx.tail, t.port.dreie)) = some (0x42, false, false, 1, true) := by decide
theorem test_isr_tx_disables_itself : -- V-IS-5
    seen (exec .isrTx (st { begun with dreie := true, transmitting := true })) (fun t => (t.port.dreie, t.port.transmitting, t.port.dre)) =
      some (false, true, true) := by decide
theorem test_gie_actions : -- V-GI-1
    seen (exec .gieClr (st begun)) id = some (st begun false) ∧ seen (exec .gieSet (st begun false)) id = some (st begun) := by decide
/-- P4's end state: `STATUS = 0x62`; P1's: `STATUS = 0x60`. -/
theorem test_status_image :
    Port.image { begun with u2x := true, txc := true } .status = 0x62 ∧ Port.image { begun with txc := true } .status = 0x60 := by decide
theorem test_write_of_occupied_data_register_faults : -- R142
    (match Port.ioWrite .ref sending .data 0x42 with | .error f => some f | .ok _ => none) = some Fault.dataRegisterOccupied := by decide
theorem test_halves_of_divisor : -- R52: DIV_HI then DIV_LO
    (match Port.ioWrite .ref { begun with div := 0x067 } .divHi 0x02 with | .ok p => some p.div | .error _ => none) = some 0x267 := by decide
theorem test_io_address : (st sending).readByte .io 0xC1 = some 0xB8 ∧ (st sending).readByte .io 0xC3 = none := by decide
/-- The observation of R7 is of the results, the wire and the lost bytes. -/
theorem test_observation :
    State.observation { st { begun with wireOut := [frame8 0x41], rxDropped := 2 } with results := [.ok] } =
      ([.ok], [([frame8 0x41], 2)]) := by decide
theorem test_second_port_selected :
    ((State.launch .ref true .ref [{ PortConfig.ref with statusAddr := 0xC8 }]).select 1).map (fun t => (t.here, t.port.io.statusAddr)) =
      some (1, 0xC8) := by decide

/-! ## Witnesses: states and operands that meet the hypotheses of the statements -/

/-! ### Encoding and the step -/

theorem witness_DecodeOfEncodeIsIdentity : Instr.wf .ref (.printpgm 0xFFFF) = true ∧ Instr.wf .ref (.hwRxarrive ⟨.five, 0x1F, none, .one⟩) = true := by
  decide
theorem witness_EncodeOfDecodeIsIdentity : decode [0x0A, 0x80, 0x02, 0x99] = .ok (.printpgm 0x0100, [0x99]) := rfl
theorem witness_FrameFormatDecoding : decodeFrame 0x00 = some ⟨.five, .none, .one⟩ ∧ decodeFrame 0x3E = some ⟨.eight, .odd, .two⟩ := by decide
theorem witness_ReservedFrameFormatRefused :
    decodeFrame 0x01 = none ∧ decodeFrame 0xFF = none ∧
    (State.select { st begun with turns := [] } 0).map (·.turns) = some [] := by decide
theorem witness_CodesOutsideTableRejected : (0x00 : Byte) ∉ ([0x01, 0x51] : List Byte) ∧
    (∀ op ∈ ([0x00, 0x0B, 0x17, 0xFF] : List Byte), op ∉ ([0x01, 0x02, 0x03, 0x04, 0x05, 0x06, 0x07, 0x08, 0x09, 0x0A, 0x10, 0x11, 0x12,
      0x13, 0x14, 0x15, 0x16, 0x20, 0x21, 0x30, 0x31, 0x40, 0x41, 0x42, 0x50, 0x51] : List Byte)) := by decide
theorem witness_StepRunsDecodedOperation_scheduled :
    (State.select { st begun with turns := [] } 0).map (·.fg.pc) = some .idle ∧ decode [0x09] = .ok (.ready, []) ∧ Instr.ready.wf cfg4 = true :=
  ⟨by decide, rfl, rfl⟩
theorem witness_StepRunsDecodedOperation_fetched : decodeTableWord 16 0x4106 = some (.write 0x41) ∧ (Instr.write 0x41).wf cfg4 = true := by decide
theorem witness_StepRunsDecodedOperation_foreground :
    (State.select { stAt .begin3 begun with turns := [] } (stAt .begin3 begun).fg.port).map (·.fg.pc) = some .begin3 := by decide
/-- A record with a reserved format; an address above 16 bits; a port that is not there, scheduled and in `fg.port`. -/
theorem witness_StepRunsDecodedOperation_refused :
    (∃ e, decode [0x21, 0x16] = .error e) ∧ decode [0x0A, 0x80, 0x80, 0x04] = .ok (.printpgm 0x10000, []) ∧
    (Instr.printpgm 0x10000).wf Cfg.ref = false ∧ (st begun).ports.length ≤ 1 ∧
    { st begun with fg := { (st begun).fg with port := 1 } }.fg.port = 1 := ⟨⟨_, rfl⟩, by decide, by decide, by decide, by decide⟩
/-- Something enabled; nothing enabled at `Idle`; nothing enabled with a command held (a state that no run reaches). -/
theorem witness_UnscheduledStepIsAnEnabledMove :
    (st sending).turns = [] ∧ enabledMoves (st sending) = [.txload 0] ∧
    enabledMoves (st begun) = [] ∧ (st begun).fg.pc = .idle ∧
    enabledMoves (stAt .flush1 { begun with transmitting := true }) = [] := by decide

/-! ### Line configuration -/

theorem witness_RoundingErrorTestIsExact : 0 < 16 ∧ 0 < 1 ∧ 0 < 62500 := by decide
/-- The quotients at the ends of the register's range, and each outcome. -/
theorem witness_DivisorEncoderResult :
    (16000000 + 8 * 3906) / (16 * 3906) = 256 ∧ Cfg.divMax { Cfg.ref with divBits := 8 } + 1 = 256 ∧
    errgt 16000000 16 256 3906 20000 = false ∧
    (16000000 + 8 * 1000000) / (16 * 1000000) = 1 ∧ errgt 16000000 16 1 1000000 20000 = false ∧
    (16000000 + 8 * 3000000) / (16 * 3000000) = 0 ∧ (16000000 + 4 * 3000000) / (8 * 3000000) = 1 ∧ errgt 16000000 8 1 3000000 50000 = true ∧
    (16000000 + 4 * 244) / (8 * 244) = 8197 ∧ Cfg.divMax .ref + 1 = 4096 ∧
    errgt 16000000 16 17 57600 20000 = true ∧ errgt 16000000 8 35 57600 50000 = false := by decide
theorem witness_ReturnedDivisorIsSound : lcDivisor .ref 1000000 = .ok (false, 0) ∧ lcDivisor .ref 57600 = .ok (true, 34) := by
  decide +kernel
theorem witness_FrameEncoderResult : decodeFrame 0x06 = some .default8N1 := by decide

/-! ### Ring buffer and memory -/

theorem witness_PushStoresAtHeadUnlessFull : (ring3.head + 1) % 4 = ring3.tail ∧ ({ ring3 with tail := 1 }.head + 1) % 4 ≠ { ring3 with tail := 1 }.tail := by
  decide
theorem witness_PopAndPeekReturnByteAtTail :
    ring3.head ≠ ring3.tail ∧ Memory.read none ring3.storage ring3.tail = some 0xA1 ∧
    { ring3 with tail := 3 }.head = { ring3 with tail := 3 }.tail := by decide
theorem witness_CountAndTestsOfABuffer : ring3.head < 4 ∧ ring3.tail < 4 ∧ ring4.head < 4 := by decide
theorem witness_RingBufferRefinesBoundedQueue : ring3.wf 4 = true ∧ ring4.wf 4 = true ∧ RingBuf.reset.wf 2 = true := by decide
theorem witness_OperationsStoreOnlyAtHead :
    (seen (exec .flush (st begun)) id).isSome = true ∧ (seen (exec (.rbPush .tx 1) (st begun)) id).isSome = true ∧
    (seen (exec .isrRx (st { begun with rxc := true })) id).isSome = true := by decide

/-! ### Port commands -/

theorem witness_CommandsNeedIdle : Instr.gieClr.hostCommand = true ∧ (stAt .flush1 begun).fg.pc ≠ .idle := by decide
theorem witness_ReturnGoesToCaller : (st begun).fg.ret = none ∧ (stAt .flush1 begun true (some .end2)).fg.ret = some .end2 ∧
    (stAt .write3 begun true (some (.buf [] 1))).fg.ret = some (.buf [] 1) ∧ cfg4.bufCount = .atCall ∧
    { cfg4 with bufCount := .atReturn }.bufCount = .atReturn := by decide
theorem witness_BeginComputesFirst :
    (st begun).fg.pc = .idle ∧ (st begun).fg.ret = none ∧ lcDivisor cfg4 9600 = .ok (false, 103) ∧ lcDivisor cfg4 0 = .error .zeroBaud :=
  ⟨rfl, rfl, by decide +kernel, rfl⟩
theorem witness_BeginProgramsThenResets :
    (stAt (.begin2 false 4095 0x06 244 .default8N1) begun).fg.pc = .begin2 false 4095 0x06 244 .default8N1 ∧ 4095 ≤ cfg4.divMax ∧
    (stAt .begin3 begun).fg.pc = .begin3 := ⟨rfl, by decide, rfl⟩
theorem witness_BeginRunsToOk :
    (st begun).here = 0 ∧ (st begun).fg.pc = .idle ∧ (st begun).fg.ret = none ∧ lcDivisor (st begun).cfg 115200 = .ok (true, 16) :=
  ⟨rfl, rfl, rfl, by decide +kernel⟩
theorem witness_EndFlushesThenDisables : (st begun).fg.pc = .idle ∧ (stAt .end2 begun).fg.pc = .end2 := by decide
theorem witness_WriteTakesFastPathWhenIdle :
    State.reset.fg.pc = .idle ∧ State.reset.port.active = false ∧
    ((st begun).fg.pc = .idle ∧ (st begun).fg.ret = none ∧ begun.active = true ∧ begun.transmitting = false ∧ begun.dre = true ∧
      begun.tx.head = begun.tx.tail) ∧
    (sending.active = true ∧ ¬(sending.transmitting = false ∧ sending.dre = true ∧ sending.tx.head = sending.tx.tail)) ∧
    (stAt (.write1 0x41) begun).fg.pc = .write1 0x41 := by decide
theorem witness_WriteEnqueuesOrDrainsOrHolds :
    (stAt (.write2 0x35) begun).fg.pc = .write2 0x35 ∧ (begun.tx.head + 1) % 4 ≠ begun.tx.tail ∧
    ((ring3.head + 1) % 4 = ring3.tail ∧ (st begun false).gie = false ∧ begun.dre = true ∧ ring3.head ≠ ring3.tail ∧
      Memory.read none ring3.storage ring3.tail = some 0xA1) ∧
    ¬((st sending).gie = false ∧ sending.dre = true) ∧ ¬((st sending false).gie = false ∧ sending.dre = true) := by decide
theorem witness_WriteArmsInterrupt : (stAt .write3 sending).fg.pc = .write3 := by decide
/-- Both callers of `ManualDrain`: a blocked `WRITE`, and a `FLUSH`. -/
theorem witness_ManualDrainIsTheHandlersPop :
    (stAt (.write2 0x35) { begun with tx := ring3, transmitting := true } false).gie = false ∧ begun.dre = true ∧ ring3.isEmpty = false ∧
    ring3.wf 4 = true ∧
    ¬({ cfg4 with isrOrder := .rxFirst }.isrOrder = .rxFirst ∧ begun.rxcie = true ∧ begun.rxc = true) ∧ ring3.isFull 4 = true ∧
    (seen (foregroundStep (stAt (.write2 0x35) { begun with tx := ring3, transmitting := true } false)) id).isSome = true ∧
    ring1.isEmpty = false ∧ ring1.wf 4 = true ∧
    (seen (foregroundStep (stAt .flush1 { begun with tx := ring1, transmitting := true } false)) id).isSome = true := by decide
theorem witness_FlushFourCases :
    (stAt .flush1 begun).fg.pc = .flush1 ∧ begun.transmitting = false ∧
    (begun.tx.head = begun.tx.tail ∧ { begun with txc := true }.txc = true) ∧
    ((st begun false).gie = false ∧ begun.dre = true ∧ ring1.head ≠ ring1.tail ∧ Memory.read none ring1.storage ring1.tail = some 0x42) ∧
    (sending.transmitting = true ∧ ¬(sending.tx.head = sending.tx.tail ∧ sending.txc = true) ∧
      ¬((st sending).gie = false ∧ sending.dre = true ∧ sending.tx.head ≠ sending.tx.tail)) := by decide
theorem witness_FlushIsIssued :
    (st begun).fg.pc = .idle ∧ (st begun).fg.ret = none ∧ begun.transmitting = false ∧
    (begun.tx.head = begun.tx.tail ∧ { begun with transmitting := true, txc := true }.txc = true) ∧
    ((st begun false).gie = false ∧ begun.dre = true ∧ ring1.head ≠ ring1.tail ∧ Memory.read none ring1.storage ring1.tail = some 0x42) ∧
    (sending.transmitting = true ∧ ¬(sending.tx.head = sending.tx.tail ∧ sending.txc = true) ∧
      ¬((st sending).gie = false ∧ sending.dre = true ∧ sending.tx.head ≠ sending.tx.tail)) := by decide
theorem witness_WritebufForwardsToWrite :
    (st begun).fg.pc = .idle ∧ (st begun).fg.ret = none ∧ begun.active = true ∧ State.reset.fg.pc = .idle ∧ State.reset.port.active = false ∧
    (stAt (.buf [] 6) begun).fg.pc = .buf [] 6 ∧ (stAt (.buf [0x4B] 1) begun).fg.pc = .buf [0x4B] 1 ∧
    cfg4.bufCount = .atCall ∧ { cfg4 with bufCount := .atReturn }.bufCount = .atReturn := by decide
theorem witness_AvailableAndReadyResults : State.reset.fg.pc = .idle ∧ State.reset.fg.ret = none := by decide
theorem witness_PeekAndReadResults :
    (st begun).fg.pc = .idle ∧ (st begun).fg.ret = none ∧ begun.rx.head = begun.rx.tail ∧
    ring3.head ≠ ring3.tail ∧ Memory.read none ring3.storage ring3.tail = some 0xA1 := by decide
theorem witness_PrintpgmForwardsToWrite :
    (st begun true cfgPgm).fg.pc = .idle ∧ (st begun true cfgPgm).fg.ret = none ∧ begun.active = true ∧
    pgmTerminated { Cfg.ref with pgmAddrBits := 1, pgm := [(0, 1), (1, 2)] } 0 = false ∧
    (pgmTerminated cfgPgm 0x0100 = true ∧ pgmByte cfgPgm 0x0100 = some 0x6F ∧ (0x6F : Byte) ≠ 0) ∧ State.reset.port.active = false ∧
    (pgmTerminated cfgPgm 0x0102 = true ∧ pgmByte cfgPgm 0x0102 = some 0) ∧
    (stAt (.pgm 0x0101) begun true none cfgPgm).fg.pc = .pgm 0x0101 := by decide
/-- A string that ends at the last address, and one that does not end. -/
theorem witness_TerminatedMeansZeroByteAhead :
    Cfg.wf { Cfg.ref with pgmAddrBits := 1, pgm := [(0, 1)] } = true ∧ pgmTerminated { Cfg.ref with pgmAddrBits := 1, pgm := [(0, 1)] } 0 = true ∧
    Cfg.wf { Cfg.ref with pgmAddrBits := 1, pgm := [(0, 1), (1, 2)] } = true ∧
    pgmTerminated { Cfg.ref with pgmAddrBits := 1, pgm := [(0, 1), (1, 2)] } 0 = false := by decide

/-! ### Engines and handlers -/

theorem witness_TxloadMovesByteToShiftRegister :
    (sending.txen = true ∧ sending.dre = false ∧ sending.tsr = .idle ∧ decodeFrame sending.frame = some .default8N1) ∧
    ¬(begun.txen = true ∧ begun.dre = false ∧ begun.tsr = .idle) := by decide
theorem witness_FrameOfAByte :
    (Parity.none = .none ∧ Parity.even = .even ∧ Parity.odd = .odd) ∧
    true = decide (((List.range 7).countP fun k => (0xEB : Byte).getLsbD k) % 2 = 1) := by decide
theorem witness_TxdonePutsFrameOnWire : { begun with tsr := .busy (frame8 0x41) }.tsr = .busy (frame8 0x41) ∧ begun.tsr = .idle := by decide
theorem witness_RxarriveDeliversOrDrops :
    State.reset.port.rxen = false ∧ (begun.rxen = true ∧ begun.rxc = false) ∧ { begun with rxc := true }.rxc = true := by decide
theorem witness_GieActionsSetTheEnable : (st begun).fg.pc = .idle := by decide
theorem witness_ReceiveHandlerEffect :
    ((st begun).gie = true ∧ begun.rxcie = true ∧ { begun with rxc := true }.rxc = true ∧
      ¬(cfg4.isrOrder = .txFirst ∧ begun.dreie = true ∧ begun.dre = true)) ∧
    (begun.rx.head + 1) % 4 ≠ begun.rx.tail ∧ (ring3.head + 1) % 4 = ring3.tail ∧ begun.rxc = false := by decide
theorem witness_TransmitHandlerEffect :
    ((st begun).gie = true ∧ { begun with dreie := true }.dreie = true ∧ begun.dre = true ∧
      ¬(cfg4.isrOrder = .rxFirst ∧ begun.rxcie = true ∧ begun.rxc = true)) ∧
    (ring1.head ≠ ring1.tail ∧ Memory.read none ring1.storage ring1.tail = some 0x42) ∧ begun.tx.head = begun.tx.tail ∧ begun.dreie = false := by
  decide
theorem witness_StopsAreNamed :
    ((1 : Nat) ≠ 0 ∧ Memory.read none [] 0 = none) ∧
    (sending.txen = true ∧ sending.dre = false ∧ sending.tsr = .idle ∧ decodeFrame { sending with frame := 0xFF }.frame = none) ∧
    ¬(begun.txen = true ∧ begun.dre = false ∧ begun.tsr = .idle) ∧ begun.tsr = .idle ∧ begun.rxc = false ∧ begun.dreie = false ∧
    (st begun).fg.pc = .idle ∧ ((ring3.head + 1) % 4 = ring3.tail ∧ ¬((st begun).gie = false ∧ begun.dre = true)) ∧
    (sending.transmitting = true ∧ ¬(sending.tx.head = sending.tx.tail ∧ sending.txc = true) ∧
      ¬((st sending).gie = false ∧ sending.dre = true ∧ sending.tx.head ≠ sending.tx.tail)) := by decide
theorem witness_HandlersCommute :
    Port.rxRequest true { begun with dreie := true, rxc := true, tx := ring1 } = true ∧
    Port.txRequest true { begun with dreie := true, rxc := true, tx := ring1 } = true ∧ ring1.wf 4 = true ∧ cfg4.isrOrder = .either ∧
    { cfg4 with isrOrder := .rxFirst }.isrOrder = .rxFirst ∧ { cfg4 with isrOrder := .txFirst }.isrOrder = .txFirst := by decide
theorem witness_HandlersAndEnginesKeepToTheirOwn :
    (seen (exec .isrRx (st { begun with rxc := true })) id).isSome = true ∧ (seen (exec .isrTx (st { begun with dreie := true })) id).isSome = true ∧
    (seen (exec .hwTxload (st sending)) id).isSome = true ∧
    (seen (exec .hwTxdone (st { begun with tsr := .busy (frame8 0x41) })) id).isSome = true ∧
    (seen (exec (.hwRxarrive (frame8 0)) (st begun)) id).isSome = true := by decide

/-! ### Registers -/

/-- Setting `DREIE` (bit 5 of `CTRL`, R80) in `CTRL = 0x98` writes `0xB8` (R81). -/
theorem witness_ControlBitsThroughTheRegister :
    begun.io.wf = true ∧ 5 ∈ begun.io.ctrlBits ∧ (∀ n, n < 8 → (0xB8 : Byte).getLsbD n = if n = 5 then true else (begun.image .ctrl).getLsbD n) ∧
    begun.io = .ref ∧ begun.rxcie = true ∧ begun.rxen = true ∧ begun.txen = true ∧
    (cfg4.divBits ≤ 16 ∧ 4095 < 2 ^ cfg4.divBits) ∧ 0xC3 ∉ begun.io.addresses := by decide
theorem witness_DataRegisterSideEffects : begun.dre = true ∧ sending.dre = false ∧ IoReg.status ≠ .data := by decide
theorem witness_DataRegistersMeanNothingWhenEmpty : (st begun).port.dre = true ∧ (st begun).port.rxc = false := by decide
theorem witness_OnlyBeginConfigures :
    (seen (exec .ready (st begun)) id).isSome = true ∧ (seen (foregroundStep (stAt .begin3 begun)) id).isSome = true := by decide

/-! ### Reset and invariants -/

theorem witness_ResetValues : (State.launch .ref true .ref []).port ∈ (State.launch .ref true .ref []).ports := by decide
theorem witness_ResetConsequences : Cfg.ref.wf = true ∧ cfg4.wf = true := by decide
theorem witness_LaunchStatesSatisfyInvariant : cfgPgm.wf = true := by decide

/-- A well-formed port with buffers in use. -/
theorem wf_of_decide {c : Cfg} {p : Port} (h1 : p.rx.wf c.rxCap = true) (h2 : p.tx.wf c.txCap = true) (h3 : p.div < 2 ^ c.divBits)
    (h4 : p.tsr = .idle) (h5 : p.wireOut = []) : p.Wf c :=
  ⟨h1, h2, h3, fun f e => (by rw [h4] at e; cases e), fun f e => (by rw [h5] at e; cases e)⟩

/-- A one-port machine satisfies the invariants when its port and its foreground do. -/
theorem inv_of_one {s : State} (hb : s.before = []) (ha : s.after = []) (hc : s.cfg.wf = true) (hw : s.port.Wf s.cfg) (hf : s.fg.Inv s.cfg 1)
    (hp : s.port.Inv s.cfg (s.pcOf 0)) : s.Inv := by
  have hports : s.ports = [s.port] := by simp [State.ports, hb, ha]
  refine ⟨⟨hc, fun p h => ?_⟩, by rw [hports]; exact hf, fun j p h => ?_⟩
  · rw [hports, List.mem_singleton] at h
    rw [h]; exact hw
  · rw [hports] at h
    cases j with
    | zero => cases h; exact hp
    | succ j => cases h

/-- The port after `WRITE 0x41` with `0x42` queued behind it, in a `FLUSH` (P1, row 9), with `HW.TXLOAD` the next turn. -/
def flushing : State := { stAt .flush1 { sending with tx := ring1 } with turns := [.op 0 [0x40]] }

theorem witness_StepsTouchOnePort :
    (seen (exec .ready (st begun)) id).isSome = true ∧ (seen (foregroundStep (stAt .begin3 begun)) id).isSome = true ∧
    (seen (step flushing) id).isSome = true := by decide

theorem flushing_inv : flushing.Inv :=
  inv_of_one rfl rfl (by decide) (wf_of_decide (by decide) (by decide) (by decide +kernel) rfl rfl)
    ⟨by decide, .inl rfl, nofun, fun a h => h.elim nofun nofun⟩
    { armed := fun _ _ _ => rfl, quiet := nofun, complete := nofun, owed := fun _ => .inl rfl, enabled := fun _ => ⟨rfl, rfl, rfl⟩
      inert := nofun, burst := fun _ => rfl, configured := ⟨by decide +kernel, rfl⟩, writing := nofun, ending := nofun }

/-- The port with everything sent (P1, row 16). -/
theorem begun_inv : (st begun).Inv :=
  inv_of_one rfl rfl (by decide) (wf_of_decide (by decide) (by decide) (by decide +kernel) rfl rfl)
    ⟨by decide, rfl, nofun, fun a h => h.elim nofun nofun⟩
    { armed := nofun, quiet := fun _ _ => rfl, complete := nofun, owed := fun h => h.elim nofun nofun, enabled := fun _ => ⟨rfl, rfl, rfl⟩
      inert := nofun, burst := nofun, configured := ⟨by decide +kernel, rfl⟩, writing := nofun, ending := nofun }

/-- A `WRITE` blocked on a full buffer with interrupts off and `DRE = 1` (V-SP-8). -/
def blocked : State := stAt (.write2 0x35) { sending with tx := ring3, dre := true } false

theorem blocked_inv : blocked.Inv :=
  inv_of_one rfl rfl (by decide) (wf_of_decide (by decide) (by decide) (by decide +kernel) rfl rfl)
    ⟨by decide, .inl rfl, nofun, fun a h => h.elim nofun nofun⟩
    { armed := fun _ _ _ => rfl, quiet := nofun, complete := nofun, owed := fun _ => .inl rfl, enabled := fun _ => ⟨rfl, rfl, rfl⟩
      inert := nofun, burst := fun _ => rfl, configured := ⟨by decide +kernel, rfl⟩, writing := fun _ => rfl, ending := nofun }

theorem witness_EveryStepKeepsStatesWellFormed : flushing.Wf ∧ (seen (step flushing) id).isSome = true := ⟨flushing_inv.wf, by decide⟩
theorem witness_EveryStepKeepsInvariant :
    flushing.Inv ∧ flushing.keepsDuty = true ∧ (seen (step flushing) id).isSome = true ∧
    State.keepsDuty { st begun with turns := [.op 0 [0x10, 0x01, 0x00]] } = false := ⟨flushing_inv, by decide, by decide, by decide⟩
theorem witness_OnlyTheEndOfTheRunFaults : (st begun).Inv ∧ faultOf (step (st begun)) = some .runEnded := ⟨begun_inv, by decide⟩
theorem witness_HeldCommandsAreNeverDeadlocked : flushing.Inv ∧ flushing.fg.pc ≠ .idle := ⟨flushing_inv, by decide⟩
theorem witness_TransmitPipelineIsConserved :
    (flushing.port.tx.wf flushing.cfg.txCap = true ∧ decodeFrame flushing.port.frame = some .default8N1) ∧
    (seen (exec .hwTxload flushing) id).isSome = true ∧ (seen (exec (.write 0x41) (st begun)) id).isSome = true ∧
    (blocked.port.tx.wf blocked.cfg.txCap = true ∧ (seen (foregroundStep blocked) id).isSome = true) ∧
    (seen (foregroundStep (stAt (.write2 0x42) sending)) id).isSome = true := by decide
theorem witness_TransmitStepsLowerTheWork :
    blocked.Inv ∧ (seen (foregroundStep blocked) (·.fg.pc)) = some (.write2 0x35) ∧ flushing.Inv ∧
      (seen (exec .hwTxload flushing) id).isSome = true := ⟨blocked_inv, by decide, flushing_inv, by decide⟩
theorem witness_EndedRunsHaveSentEverything :
    (st begun).Inv ∧ (st begun).gie = true ∧ faultOf (step (st begun)) = some .runEnded ∧ begun ∈ (st begun).ports :=
  ⟨begun_inv, by decide, by decide, by decide⟩

end Sys2Proof.Machine
end

section
/-! PROOF. What every operation and every foreground step leaves unchanged (spec/00_scope.md R9, spec/10_state.md R25), the work each step of the
transmit side pays for (R8), the faults an operation can raise, and what an ended run has sent (R7). -/

namespace Sys2Proof.Machine

variable {s t u : State} {c : Cfg} {p : Port}

/-- What a step on the selected port leaves as it was: the other ports, the configuration, the register map, the schedule, and `gie`. -/
structure State.SameAround (s t : State) : Prop where
  before : t.before = s.before
  after  : t.after = s.after
  cfg    : t.cfg = s.cfg
  io     : t.port.io = s.port.io
  turns  : t.turns = s.turns
  gie    : t.gie = s.gie

namespace State.SameAround

theorem refl (s : State) : s.SameAround s := ⟨rfl, rfl, rfl, rfl, rfl, rfl⟩

theorem trans (h : s.SameAround t) (h' : t.SameAround u) : s.SameAround u :=
  ⟨h'.before.trans h.before, h'.after.trans h.after, h'.cfg.trans h.cfg, h'.io.trans h.io, h'.turns.trans h.turns, h'.gie.trans h.gie⟩

theorem goto (s : State) (pc : Pc) : s.SameAround (s.goto pc) := ⟨rfl, rfl, rfl, rfl, rfl, rfl⟩

theorem issue (s : State) (pc : Pc) : s.SameAround (s.issue pc) := ⟨rfl, rfl, rfl, rfl, rfl, rfl⟩

theorem call (s : State) (ret pc : Pc) : s.SameAround (s.call ret pc) := ⟨rfl, rfl, rfl, rfl, rfl, rfl⟩

theorem give (s : State) (v : Result) : s.SameAround (s.give v) := ⟨rfl, rfl, rfl, rfl, rfl, rfl⟩

theorem returnValue (s : State) (v : Result) : s.SameAround (s.returnValue v) := by constructor <;> simp

/-- Replacing the selected port by one with the same register map. -/
theorem withPort (s : State) (h : p.io = s.port.io) : s.SameAround { s with port := p } := ⟨rfl, rfl, rfl, h, rfl, rfl⟩

/-- Replacing the selected port, then going on to another control point. -/
theorem withPort_goto (s : State) (pc : Pc) (h : p.io = s.port.io) :
    s.SameAround (State.goto { s with port := p } pc) := (withPort s h).trans (goto _ pc)

/-- Replacing the selected port, then giving the result to the caller. -/
theorem withPort_give (s : State) (v : Result) (h : p.io = s.port.io) :
    s.SameAround (State.give { s with port := p } v) := (withPort s h).trans (give _ v)

/-- Replacing the selected port, then returning. -/
theorem withPort_returnValue (s : State) (v : Result) (h : p.io = s.port.io) :
    s.SameAround (State.returnValue { s with port := p } v) := (withPort s h).trans (returnValue _ v)

/-- The number of ports stays as it was (R9). -/
theorem length_ports (h : s.SameAround t) : t.ports.length = s.ports.length := by
  rw [State.length_ports, State.length_ports, h.before, h.after]

end State.SameAround

/-! ## The steps of the foreground -/

theorem manualDrain_sameAround (h : manualDrain s = .next t) : s.SameAround t := by
  rcases manualDrain_next h with ⟨-, rfl⟩ | ⟨b, -, -, -, rfl⟩
  · exact .refl _
  · exact .withPort s rfl

theorem beginStep1_sameAround (baud : Nat) (fmt : FrameFormat) (s : State) : s.SameAround (beginStep1 baud fmt s) := by
  rcases beginStep1_cases baud fmt s with ⟨r, -, e⟩ | ⟨u2x, div, -, e⟩ <;> rw [e]
  · exact .returnValue s _
  · exact .issue s _

theorem writeStep1_sameAround {b : Byte} (h : writeStep1 b s = .next t) : s.SameAround t := by
  obtain ⟨-, ⟨-, -, -, rfl⟩ | ⟨-, rfl⟩⟩ := writeStep1_next h
  · exact .withPort_returnValue s _ rfl
  · exact .goto s _

theorem writeStep2_sameAround {b : Byte} (h : writeStep2 b s = .next t) : s.SameAround t := by
  rcases writeStep2_next h with ⟨-, rfl⟩ | ⟨-, -, -, hd⟩
  · exact .withPort_goto s _ rfl
  · exact manualDrain_sameAround hd

theorem flushStep_sameAround (h : flushStep s = .next t) : s.SameAround t := by
  rcases flushStep_next h with ⟨-, rfl⟩ | ⟨-, -, -, rfl⟩ | ⟨-, -, -, -, hd⟩
  · exact .returnValue s _
  · exact .withPort_returnValue s _ rfl
  · exact manualDrain_sameAround hd

theorem bufStep_sameAround (bs : List Byte) (n : Nat) (s : State) : s.SameAround (bufStep bs n s) := by
  rcases bufStep_cases bs n s with ⟨-, e⟩ | ⟨b, rest, -, e⟩ <;> rw [e]
  · exact .returnValue s _
  · exact .call s _ _

theorem pgmStep_sameAround {a : Nat} (h : pgmStep a s = .next t) : s.SameAround t := by
  rcases pgmStep_next h with ⟨-, rfl⟩ | ⟨b, -, -, rfl⟩
  · exact .returnValue s _
  · exact .call s _ _

/-- A foreground step touches the selected port and the foreground alone. -/
theorem foregroundStep_sameAround (h : foregroundStep s = .next t) : s.SameAround t := by
  unfold foregroundStep at h
  cases hpc : s.fg.pc <;> rw [hpc] at h
  case idle => cases h
  case begin2 => cases h; exact .withPort_goto s _ rfl
  case begin3 => cases h; exact .withPort_returnValue s _ rfl
  case write1 => exact writeStep1_sameAround h
  case write2 => exact writeStep2_sameAround h
  case write3 => cases h; exact .withPort_returnValue s _ rfl
  case flush1 => exact flushStep_sameAround h
  case end2 => cases h; exact .withPort_returnValue s _ rfl
  case buf => cases h; exact bufStep_sameAround _ _ s
  case pgm => exact pgmStep_sameAround h

/-! ## The operations -/

@[simp] theorem Port.setQueue_io (p : Port) (q : Queue) (r : RingBuf) : (p.setQueue q r).io = p.io := by cases q <;> rfl

@[simp] theorem Port.isrRx_io (c : Cfg) (p : Port) : (p.isrRx c).io = p.io := by
  rcases p.isrRx_cases c with ⟨-, e⟩ | ⟨-, e⟩ <;> rw [e]

@[simp] theorem Port.rxarrive_io (p : Port) (f : Frame) : (p.rxarrive f).io = p.io := by
  rcases p.rxarrive_cases f with ⟨-, e⟩ | ⟨-, -, e⟩ | ⟨-, -, e⟩ <;> rw [e]

/-- An `RB.POP` that answered replaced its buffer and gave the result. -/
theorem execRbPop_next {q : Queue} (h : execRbPop q s = .next t) :
    ∃ v r, (s.port.queue q).pop (capOf s.cfg q) = .ok (v, r) ∧
      t = State.give { s with port := s.port.setQueue q r } (.byte v) := by
  unfold execRbPop at h
  split at h
  · cases h
  · exact ⟨_, _, ‹_›, (Host.Outcome.next.inj h).symm⟩

/-- An `RB.PEEK` that answered gave the result. -/
theorem execRbPeek_next {q : Queue} (h : execRbPeek q s = .next t) :
    ∃ v, (s.port.queue q).peek = .ok v ∧ t = s.give (.byte v) := by
  unfold execRbPeek at h
  split at h
  · cases h
  · exact ⟨_, ‹_›, (Host.Outcome.next.inj h).symm⟩

/-- `LC.DIVISOR` gives its result, whichever it is. -/
theorem execLcDivisor_next {baud : Nat} (h : execLcDivisor baud s = .next t) : ∃ v, t = s.give v := by
  unfold execLcDivisor at h
  split at h <;> exact ⟨_, (Host.Outcome.next.inj h).symm⟩

/-- `ISR.TX` touches the selected port alone. -/
theorem execIsrTx_sameAround (h : execIsrTx s = .next t) : s.SameAround t := by
  obtain ⟨-, ⟨-, rfl⟩ | ⟨b, -, -, -, rfl⟩⟩ := execIsrTx_next h <;> exact .withPort s rfl

/-- `FLUSH` touches the selected port and the foreground alone. -/
theorem execFlush_sameAround (h : execFlush s = .next t) : s.SameAround t := by
  obtain ⟨-, hf | ⟨-, rfl⟩⟩ := execFlush_next h
  · exact .trans (.issue s _) (flushStep_sameAround hf)
  · exact .issue s _

/-- An operation touches the selected port and the foreground alone, except that `GIE.SET` and `GIE.CLR` change `gie` and nothing else (R25). -/
theorem exec_sameAround {i : Instr} (h : exec i s = .next t) :
    s.SameAround t ∨ ((i = .gieSet ∨ i = .gieClr) ∧ ∃ g, t = { s with gie := g }) := by
  cases i with
  | gieSet => obtain ⟨-, e⟩ := State.whenIdle_next h; cases e; exact .inr ⟨.inl rfl, true, rfl⟩
  | gieClr => obtain ⟨-, e⟩ := State.whenIdle_next h; cases e; exact .inr ⟨.inr rfl, false, rfl⟩
  | beginCmd baud fmt => obtain ⟨-, e⟩ := State.whenIdle_next h; cases e; exact .inl (beginStep1_sameAround baud fmt s)
  | endCmd => obtain ⟨-, e⟩ := State.whenIdle_next h; cases e; exact .inl (.trans (.issue s _) (.call _ _ _))
  | available => obtain ⟨-, e⟩ := State.whenIdle_next h; cases e; exact .inl (.returnValue s _)
  | ready => obtain ⟨-, e⟩ := State.whenIdle_next h; cases e; exact .inl (.returnValue s _)
  | peek => obtain ⟨-, v, -, rfl⟩ := execPeek_next h; exact .inl (.returnValue s _)
  | read => obtain ⟨-, v, r, -, rfl⟩ := execRead_next h; exact .inl (.withPort_returnValue s _ rfl)
  | write b => exact .inl (.trans (.issue s _) (writeStep1_sameAround (execWrite_next h).2))
  | writebuf bs =>
    obtain ⟨-, -, rfl⟩ := execWritebuf_next h
    exact .inl (.trans (.issue s _) (bufStep_sameAround bs 0 _))
  | flush => exact .inl (execFlush_sameAround h)
  | printpgm a =>
    obtain ⟨-, -, -, hp⟩ := execPrintpgm_next h
    exact .inl (.trans (.issue s _) (pgmStep_sameAround hp))
  | rbPush q b => cases h; exact .inl (.withPort_give s _ (s.port.setQueue_io q _))
  | rbPop q =>
    obtain ⟨v, r, -, rfl⟩ := execRbPop_next h
    exact .inl (.withPort_give s _ (s.port.setQueue_io q r))
  | rbPeek q => obtain ⟨v, -, rfl⟩ := execRbPeek_next h; exact .inl (.give s _)
  | rbAvailable q => cases h; exact .inl (.give s _)
  | rbIsfull q => cases h; exact .inl (.give s _)
  | rbIsempty q => cases h; exact .inl (.give s _)
  | rbClear q form => cases h; exact .inl (.withPort_give s _ (s.port.setQueue_io q _))
  | lcDivisor baud => obtain ⟨v, rfl⟩ := execLcDivisor_next h; exact .inl (.give s v)
  | lcFrame fmt => cases h; exact .inl (.give s _)
  | isrRx => obtain ⟨-, rfl⟩ := execIsrRx_next h; exact .inl (.withPort s (s.port.isrRx_io s.cfg))
  | isrTx => exact .inl (execIsrTx_sameAround h)
  | hwTxload => obtain ⟨-, -, -, f, -, rfl⟩ := execHwTxload_next h; exact .inl (.withPort s rfl)
  | hwTxdone => obtain ⟨f, -, rfl⟩ := execHwTxdone_next h; exact .inl (.withPort s rfl)
  | hwRxarrive f => cases execHwRxarrive_next h; exact .inl (.withPort s (s.port.rxarrive_io f))

/-! ## The steps of the machine -/

/-- The configuration and the number of ports, which every step keeps (R9, H-9 of R186). -/
def State.SamePlatform (s t : State) : Prop := t.cfg = s.cfg ∧ t.ports.length = s.ports.length

theorem State.SameAround.samePlatform (h : s.SameAround t) : s.SamePlatform t := ⟨h.cfg, h.length_ports⟩

theorem exec_samePlatform {i : Instr} (h : exec i s = .next t) : s.SamePlatform t := by
  rcases exec_sameAround h with hs | ⟨-, g, rfl⟩
  · exact hs.samePlatform
  · exact ⟨rfl, rfl⟩

/-- A step taken with another port selected keeps the platform of the whole machine. -/
theorem State.SamePlatform.of_select {j : Nat} (hs : s.select j = some u) (h : u.SamePlatform t) : s.SamePlatform t := by
  obtain ⟨hports, -, -, hcfg, -⟩ := State.select_eq_some hs
  exact ⟨h.1.trans hcfg, h.2.trans (congrArg List.length hports)⟩

/-- A move acts with some port selected. -/
theorem moveSelect_eq {m : Move} (h : moveSelect s m = some u) : ∃ j, s.select j = some u := by
  cases m <;> exact ⟨_, h⟩

/-- The effect of a move is a handler or engine operation, or a foreground step. -/
theorem moveEffect_cases (s : State) (m : Move) : (∃ i, moveEffect s m = exec i s) ∨ moveEffect s m = foregroundStep s := by
  cases m with
  | isrRx _ => exact .inl ⟨.isrRx, rfl⟩
  | isrTx _ => exact .inl ⟨.isrTx, rfl⟩
  | txload _ => exact .inl ⟨.hwTxload, rfl⟩
  | txdone _ => exact .inl ⟨.hwTxdone, rfl⟩
  | foreground => exact .inr rfl

theorem runMove_samePlatform {m : Move} (h : runMove s m = .next t) : s.SamePlatform t := by
  obtain ⟨u, hu, he⟩ := runMove_next h
  obtain ⟨j, hj⟩ := moveSelect_eq hu
  refine .of_select hj ?_
  rcases moveEffect_cases u m with ⟨i, e⟩ | e <;> rw [e] at he
  · exact exec_samePlatform he
  · exact (foregroundStep_sameAround he).samePlatform

theorem progress_samePlatform (h : progress s = .next t) : s.SamePlatform t := by
  rcases progress_cases s with ⟨-, e⟩ | ⟨m, -, k, e⟩ | ⟨-, -, e⟩ <;> rw [e] at h
  · cases h
  · have hm := runMove_samePlatform h
    exact hm
  · cases h; exact ⟨rfl, rfl⟩

/-- Every step of the machine keeps `Cfg` and the number of ports. -/
theorem step_samePlatform (h : step s = .next t) : s.SamePlatform t := by
  rcases step_cases s with ⟨-, e⟩ | ⟨ts, -, e⟩ | ⟨j, record, ts, -, ⟨r, -, e⟩ | ⟨i, u, hf, e⟩⟩ <;> rw [e] at h
  · exact progress_samePlatform h
  · obtain ⟨u, hu, hs⟩ := foregroundTurn_next h
    have hm := (foregroundStep_sameAround hs).samePlatform.of_select hu
    exact hm
  · cases h
  · have hm := (exec_samePlatform h).of_select (fetch_ok hf).1
    exact hm

/-- Settles O50: an operation and a foreground step leave everything around the selected port as it was, and a step of the machine is one of
these on the port it selects. -/
theorem stepsTouchOnePort : Obligations.StepsTouchOnePort := by
  refine ⟨fun i s t h => ?_, fun s t h => ?_, fun s t h => step_samePlatform h⟩
  · rcases exec_sameAround h with ⟨h1, h2, h3, h4, h5, h6⟩ | ⟨hi, g, rfl⟩
    · exact ⟨h1, h2, h3, h4, h5, fun _ _ => h6⟩
    · exact ⟨rfl, rfl, rfl, rfl, rfl, fun hset hclr => (hi.elim hset hclr).elim⟩
  · obtain ⟨h1, h2, h3, h4, h5, h6⟩ := foregroundStep_sameAround h
    exact ⟨h1, h2, h3, h4, h5, h6⟩

/-! ## The work the transmit side owes -/

/-- The selected port of a state with the invariants is well-formed. -/
theorem State.Wf.port (h : s.Wf) : s.port.Wf s.cfg := h.portsWf _ (by simp [State.ports])

/-- A capacity is at least 2 (R4). -/
theorem Cfg.two_le_txCap (h : c.wf = true) : 2 ≤ c.txCap := by
  simp only [Cfg.wf, Cfg.capWf, Bool.and_eq_true, decide_eq_true_eq] at h
  omega

/-- A well-formed buffer of at least two slots is not both full and empty. -/
theorem RingBuf.isEmpty_of_isFull {cap : Nat} {r : RingBuf} (hcap : 2 ≤ cap) (h : r.wf cap = true) (hf : r.isFull cap = true) :
    r.isEmpty = false := by
  obtain ⟨hh, ht, -⟩ := RingBuf.wf_iff.1 h
  have hcount := (full_iff_count hh ht).1 (RingBuf.isFull_iff.1 hf)
  rw [RingBuf.isEmpty_false_iff, empty_iff_count hh ht]
  omega

/-- Moving the oldest byte from the transmit buffer to `DATA` pays 3 for the queued byte and owes 2 for the one in `TDR`. -/
theorem Port.txWork_drain (b : Byte) (hwf : p.Wf c) (he : p.tx.isEmpty = false) (hdre : p.dre = true) :
    Port.txWork c { p with tx := { p.tx with tail := nextIndex c.txCap p.tx.tail }, tdr := b, dre := false, txc := false } <
      p.txWork c := by
  obtain ⟨-, -, havail⟩ := RingBuf.slots_pop hwf.txWf he
  simp only [Port.txWork, havail, hdre, Bool.false_eq_true, if_false, if_true]
  omega

/-- `ISR.TX` moves a byte, or pays for the armed interrupt. -/
theorem execIsrTx_txWork (hwf : s.Wf) (h : execIsrTx s = .next t) : t.port.txWork s.cfg < s.port.txWork s.cfg := by
  obtain ⟨hg, ⟨-, rfl⟩ | ⟨b, he, -, hdre, rfl⟩⟩ := execIsrTx_next h
  · obtain ⟨-, hdreie, -⟩ := Port.txGrant_iff.1 hg
    simp [Port.txWork, hdreie]
  · exact Port.txWork_drain b hwf.port he hdre

/-- `HW.TXLOAD` pays 2 for the byte in `TDR` and owes 1 for the frame in `TSR`. -/
theorem execHwTxload_txWork (h : execHwTxload s = .next t) : t.port.txWork s.cfg < s.port.txWork s.cfg := by
  obtain ⟨-, hdre, htsr, f, -, rfl⟩ := execHwTxload_next h
  simp [Port.txWork, hdre, htsr]

/-- `HW.TXDONE` pays for the frame in `TSR`. -/
theorem execHwTxdone_txWork (h : execHwTxdone s = .next t) : t.port.txWork s.cfg < s.port.txWork s.cfg := by
  obtain ⟨f, htsr, rfl⟩ := execHwTxdone_next h
  simp [Port.txWork, htsr]

/-- A manual drain of a buffer that is not empty moves a byte. -/
theorem manualDrain_txWork (hwf : s.Wf) (he : s.port.tx.isEmpty = false) (h : manualDrain s = .next t) :
    t.port.txWork s.cfg < s.port.txWork s.cfg := by
  rcases manualDrain_next h with ⟨he', -⟩ | ⟨b, -, -, hdre, rfl⟩
  · rw [he] at he'; cases he'
  · exact Port.txWork_drain b hwf.port he hdre

/-- A step of `WRITE` that stays at step 2 is a manual drain of a full buffer. -/
theorem writeStep2_stays_txWork {b : Byte} (hwf : s.Wf) (h : writeStep2 b s = .next t) (hpc : t.fg.pc = .write2 b) :
    t.port.txWork s.cfg < s.port.txWork s.cfg := by
  rcases writeStep2_next h with ⟨-, rfl⟩ | ⟨hf, -, -, hd⟩
  · cases hpc
  · exact manualDrain_txWork hwf (RingBuf.isEmpty_of_isFull (Cfg.two_le_txCap hwf.cfgWf) hwf.port.txWf hf) hd

/-- A `FLUSH` that returns leaves `Flush1`: it was called by the host or by `END` (R36). -/
theorem Fg.retFits.resume_ne_flush1 {fg : Fg} (h : fg.retFits) (hpc : fg.pc = .flush1) (form : BufCount) (v : Result) :
    (fg.ret.map (Pc.resume form v)).getD .idle ≠ .flush1 := by
  simp only [Fg.retFits, hpc] at h
  rcases h with h | h <;> simp [h]

/-- A step of `FLUSH` that stays at `Flush1` is a manual drain of a buffer that is not empty. -/
theorem flushStep_stays_txWork (hwf : s.Wf) (hret : s.fg.retFits) (hpc : s.fg.pc = .flush1) (h : flushStep s = .next t)
    (hpc' : t.fg.pc = .flush1) : t.port.txWork s.cfg < s.port.txWork s.cfg := by
  rcases flushStep_next h with ⟨-, rfl⟩ | ⟨-, -, -, rfl⟩ | ⟨-, -, -, he, hd⟩
  · rw [State.returnValue_pc] at hpc'
    exact (hret.resume_ne_flush1 hpc _ _ hpc').elim
  · rw [State.returnValue_pc] at hpc'
    exact (hret.resume_ne_flush1 hpc _ _ hpc').elim
  · exact manualDrain_txWork hwf he hd

/-- Settles O59: `ISR.TX` and a manual drain move a queued byte to `TDR`, or the handler disarms itself; `HW.TXLOAD` moves `TDR` to `TSR`;
`HW.TXDONE` empties `TSR`. -/
theorem transmitStepsLowerTheWork : Obligations.TransmitStepsLowerTheWork := by
  refine fun s t hinv => ⟨?_, fun h hstay => ?_⟩
  · rintro i (rfl | rfl | rfl) h
    · exact execIsrTx_txWork hinv.wf h
    · exact execHwTxload_txWork h
    · exact execHwTxdone_txWork h
  · unfold foregroundStep at h
    rcases hstay with ⟨b, hpc, hpc'⟩ | ⟨hpc, hpc'⟩ <;> rw [hpc] at h
    · exact writeStep2_stays_txWork hinv.wf h hpc'
    · exact flushStep_stays_txWork hinv.wf hinv.fgInv.retFits hpc h hpc'

/-! ## The faults an operation can raise -/

/-- The faults an operation or a foreground step raises; the other two are raised by the choice of the next step. -/
def Fault.ofOperation : Fault → Bool
  | .dataRegisterOccupied | .unwrittenSlot | .frameNotLegal => true
  | .stuck | .runEnded => false

variable {f : Fault}

theorem RingBuf.pop_ofOperation {cap : Nat} {r : RingBuf} (h : r.pop cap = .error f) : f.ofOperation = true := by
  rw [(RingBuf.pop_error h).1]; rfl

theorem RingBuf.peek_ofOperation {r : RingBuf} (h : r.peek = .error f) : f.ofOperation = true := by
  rw [(RingBuf.peek_error h).1]; rfl

theorem Port.writeData_ofOperation {b : Byte} (h : p.writeData b = .error f) : f.ofOperation = true := by
  unfold Port.writeData at h
  split at h <;> cases h
  rfl

theorem Port.drainOne_ofOperation (h : p.drainOne c = .error f) : f.ofOperation = true := by
  unfold Port.drainOne at h
  split at h
  · cases h; exact RingBuf.pop_ofOperation ‹_›
  · cases h
  · split at h
    · cases h; exact Port.writeData_ofOperation ‹_›
    · cases h

theorem Port.txload_ofOperation (h : p.txload = .error f) : f.ofOperation = true := by
  unfold Port.txload at h
  split at h <;> cases h
  rfl

theorem Port.isrTx_ofOperation (h : p.isrTx c = .error f) : f.ofOperation = true := by
  unfold Port.isrTx at h
  split at h <;> cases h
  exact Port.drainOne_ofOperation ‹_›

theorem manualDrain_ofOperation (h : manualDrain s = .fault f) : f.ofOperation = true := by
  unfold manualDrain at h
  split at h <;> cases h
  exact Port.drainOne_ofOperation ‹_›

theorem writeStep1_ofOperation {b : Byte} (h : writeStep1 b s = .fault f) : f.ofOperation = true := by
  unfold writeStep1 at h
  split at h
  · cases h
  · split at h
    · split at h <;> cases h
      exact Port.writeData_ofOperation ‹_›
    · cases h

theorem writeStep2_ofOperation {b : Byte} (h : writeStep2 b s = .fault f) : f.ofOperation = true := by
  unfold writeStep2 at h
  split at h
  · cases h
  · split at h
    · exact manualDrain_ofOperation h
    · cases h

theorem flushStep_ofOperation (h : flushStep s = .fault f) : f.ofOperation = true := by
  unfold flushStep at h
  split at h
  · cases h
  · split at h
    · cases h
    · split at h
      · exact manualDrain_ofOperation h
      · cases h

theorem pgmStep_ne_fault {a : Nat} : pgmStep a s ≠ .fault f := by
  unfold pgmStep
  split
  · nofun
  · split <;> nofun

theorem foregroundStep_ofOperation (h : foregroundStep s = .fault f) : f.ofOperation = true := by
  unfold foregroundStep at h
  cases hpc : s.fg.pc <;> rw [hpc] at h
  case write1 => exact writeStep1_ofOperation h
  case write2 => exact writeStep2_ofOperation h
  case flush1 => exact flushStep_ofOperation h
  case pgm => exact (pgmStep_ne_fault h).elim
  all_goals cases h

theorem execPeek_ofOperation (h : execPeek s = .fault f) : f.ofOperation = true := by
  obtain ⟨-, hk⟩ := State.whenIdle_fault h
  split at hk <;> cases hk
  exact RingBuf.peek_ofOperation ‹_›

theorem execRead_ofOperation (h : execRead s = .fault f) : f.ofOperation = true := by
  obtain ⟨-, hk⟩ := State.whenIdle_fault h
  split at hk <;> cases hk
  exact RingBuf.pop_ofOperation ‹_›

theorem execRbPeek_ofOperation {q : Queue} (h : execRbPeek q s = .fault f) : f.ofOperation = true := by
  unfold execRbPeek at h
  split at h <;> cases h
  exact RingBuf.peek_ofOperation ‹_›

theorem execRbPop_ofOperation {q : Queue} (h : execRbPop q s = .fault f) : f.ofOperation = true := by
  unfold execRbPop at h
  split at h <;> cases h
  exact RingBuf.pop_ofOperation ‹_›

theorem execFlush_ofOperation (h : execFlush s = .fault f) : f.ofOperation = true := by
  obtain ⟨-, hk⟩ := State.whenIdle_fault h
  split at hk
  · cases hk
  · exact flushStep_ofOperation hk

theorem execWritebuf_ne_fault {bs : List Byte} : execWritebuf bs s ≠ .fault f := by
  intro h
  obtain ⟨-, hk⟩ := State.whenIdle_fault h
  split at hk <;> cases hk

theorem execPrintpgm_ne_fault {a : Nat} : execPrintpgm a s ≠ .fault f := by
  intro h
  obtain ⟨-, hk⟩ := State.whenIdle_fault h
  split at hk
  · cases hk
  · split at hk
    · cases hk
    · exact pgmStep_ne_fault hk

theorem execLcDivisor_ne_fault {baud : Nat} : execLcDivisor baud s ≠ .fault f := by
  unfold execLcDivisor
  split <;> nofun

theorem execIsrRx_ne_fault : execIsrRx s ≠ .fault f := by
  intro h
  unfold execIsrRx at h
  cases (State.takeInterrupt_fault h).2

/-- An engine step that faults has an effect that faults. -/
theorem State.engineStep_fault {g : Bool} {x : Except Fault Port} (h : s.engineStep g x = .fault f) : x = .error f := by
  unfold State.engineStep State.withPort at h
  split at h
  · split at h <;> cases h
    rfl
  · cases h

/-- An operation faults only as an operation can. -/
theorem exec_ofOperation {i : Instr} (h : exec i s = .fault f) : f.ofOperation = true := by
  cases i with
  | beginCmd baud fmt => cases (State.whenIdle_fault h).2
  | endCmd => cases (State.whenIdle_fault h).2
  | available => cases (State.whenIdle_fault h).2
  | ready => cases (State.whenIdle_fault h).2
  | gieSet => cases (State.whenIdle_fault h).2
  | gieClr => cases (State.whenIdle_fault h).2
  | peek => exact execPeek_ofOperation h
  | read => exact execRead_ofOperation h
  | write b => exact writeStep1_ofOperation (State.whenIdle_fault h).2
  | writebuf bs => exact (execWritebuf_ne_fault h).elim
  | flush => exact execFlush_ofOperation h
  | printpgm a => exact (execPrintpgm_ne_fault h).elim
  | rbPush q b => cases h
  | rbPop q => exact execRbPop_ofOperation h
  | rbPeek q => exact execRbPeek_ofOperation h
  | rbAvailable q => cases h
  | rbIsfull q => cases h
  | rbIsempty q => cases h
  | rbClear q form => cases h
  | lcDivisor baud => exact (execLcDivisor_ne_fault h).elim
  | lcFrame fmt => cases h
  | isrRx => exact (execIsrRx_ne_fault h).elim
  | isrTx => exact Port.isrTx_ofOperation (State.takeInterrupt_fault h).2
  | hwTxload => exact Port.txload_ofOperation (State.engineStep_fault h)
  | hwTxdone => cases State.engineStep_fault h
  | hwRxarrive g => cases h

theorem runMove_ofOperation {m : Move} (h : runMove s m = .fault f) : f.ofOperation = true := by
  unfold runMove at h
  split at h
  · cases h
  · rename_i u _
    rcases moveEffect_cases u m with ⟨i, e⟩ | e <;> rw [e] at h
    · exact exec_ofOperation h
    · exact foregroundStep_ofOperation h

theorem foregroundTurn_ofOperation (h : foregroundTurn s = .fault f) : f.ofOperation = true := by
  unfold foregroundTurn at h
  split at h
  · cases h
  · exact foregroundStep_ofOperation h

/-- The block's own progress says that the run has ended only with no move enabled and no command in progress. -/
theorem progress_runEnded (h : progress s = .fault .runEnded) : enabledMoves s = [] ∧ s.fg.pc = .idle := by
  rcases progress_cases s with ⟨hm, e⟩ | ⟨m, -, k, e⟩ | ⟨-, -, e⟩ <;> rw [e] at h
  · refine ⟨hm, ?_⟩
    by_contra hpc
    rw [if_neg hpc] at h
    cases h
  · cases runMove_ofOperation h
  · cases h

/-- A run that is said to have ended had nothing scheduled, nothing enabled and no command in progress (R7; log entry 32). -/
theorem step_runEnded (h : step s = .fault .runEnded) : s.turns = [] ∧ enabledMoves s = [] ∧ s.fg.pc = .idle := by
  rcases step_cases s with ⟨ht, e⟩ | ⟨ts, -, e⟩ | ⟨j, record, ts, -, ⟨r, -, e⟩ | ⟨i, u, -, e⟩⟩ <;> rw [e] at h
  · exact ⟨ht, progress_runEnded h⟩
  · cases foregroundTurn_ofOperation h
  · cases h
  · cases exec_ofOperation h

/-! ## A machine with no move enabled -/

/-- Where no move is enabled, no handler or engine of any port has its guard. -/
theorem portGuards_false_of_enabledMoves_nil {j : Nat} (hm : enabledMoves s = []) (hp : s.ports[j]? = some p) :
    p.rxGrant s.cfg.isrOrder s.gie = false ∧ p.txGrant s.cfg.isrOrder s.gie = false ∧ p.txloadGuard = false ∧
      p.txdoneGuard = false := by
  obtain ⟨hj, -⟩ := List.getElem?_eq_some_iff.1 hp
  obtain ⟨u, hu⟩ := State.select_isSome hj
  obtain ⟨-, -, hget, hcfg, hgie, -⟩ := State.select_eq_some hu
  obtain rfl : u.port = p := Option.some.inj (hget.symm.trans hp)
  have hoff : ∀ m ∈ portMoves j, moveSelect s m = some u → moveGuard u m = false := by
    intro m hmem hsel
    have hall : m ∈ allMoves s :=
      List.mem_append_left _ (List.mem_flatMap.2 ⟨j, List.mem_range.2 hj, hmem⟩)
    have hdis := List.filter_eq_nil_iff.1 hm m hall
    simpa [moveEnabled, hsel] using hdis
  rw [← hcfg, ← hgie]
  exact ⟨hoff (.isrRx j) (by simp [portMoves]) hu, hoff (.isrTx j) (by simp [portMoves]) hu,
    hoff (.txload j) (by simp [portMoves]) hu, hoff (.txdone j) (by simp [portMoves]) hu⟩

/-- With interrupts enabled, a port with neither handler granted has neither requested: `isrOrder` puts at most one behind the other (R156). -/
theorem Port.requests_false_of_grants_false {order : IsrOrder} (hrx : p.rxGrant order true = false)
    (htx : p.txGrant order true = false) : p.rxRequest true = false ∧ p.txRequest true = false := by
  cases order with
  | either => exact ⟨by simpa [Port.rxGrant] using hrx, by simpa [Port.txGrant] using htx⟩
  | rxFirst =>
    have hr : p.rxRequest true = false := by simpa [Port.rxGrant] using hrx
    exact ⟨hr, by simpa [Port.txGrant, hr] using htx⟩
  | txFirst =>
    have ht : p.txRequest true = false := by simpa [Port.txGrant] using htx
    exact ⟨by simpa [Port.rxGrant, ht] using hrx, ht⟩

/-- A port with the invariants whose transmitter has no step has nothing in `TSR`, and, if active, nothing in `TDR`. -/
theorem Port.Inv.transmitter_idle {pc : Pc} (hinv : p.Inv c pc) (hload : p.txloadGuard = false) (hdone : p.txdoneGuard = false) :
    p.tsr = .idle ∧ (p.active = true → p.dre = true) := by
  have htsr : p.tsr = .idle := by
    cases h : p.tsr with
    | idle => rfl
    | busy f => simp [Port.txdoneGuard, h] at hdone
  refine ⟨htsr, fun hact => ?_⟩
  obtain ⟨-, htxen, -⟩ := hinv.enabled (.inl hact)
  simpa [Port.txloadGuard, htxen, htsr] using hload

/-- Settles O60: with no guard of the port true, `TSR` is idle and an active port has `DRE` 1; then neither request leaves `RXC` or `DREIE` set, and
R37(b) empties the buffer. -/
theorem endedRunsHaveSentEverything : Obligations.EndedRunsHaveSentEverything := by
  intro s hinv hgie hend p hp
  obtain ⟨-, hmoves, hidle⟩ := step_runEnded hend
  obtain ⟨j, hj⟩ := List.mem_iff_getElem?.1 hp
  have hpc : s.pcOf j = .idle := by simp [State.pcOf, hidle]
  have hport := hinv.portsInv j p hj
  rw [hpc] at hport
  obtain ⟨hrx, htx, hload, hdone⟩ := portGuards_false_of_enabledMoves_nil hmoves hj
  rw [hgie] at hrx htx
  obtain ⟨hrxReq, htxReq⟩ := Port.requests_false_of_grants_false hrx htx
  obtain ⟨htsr, hdre⟩ := hport.transmitter_idle hload hdone
  have hdreie : p.dreie = false := by
    cases hact : p.active with
    | false =>
      obtain ⟨-, -, -, hoff⟩ := hport.inert hact nofun
      exact hoff
    | true => simpa [Port.txRequest, hdre hact] using htxReq
  have hempty : p.tx.isEmpty = true := by
    by_contra hne
    have harmed := hport.armed (Bool.eq_false_iff.2 hne) nofun nofun
    rw [hdreie] at harmed
    cases harmed
  refine ⟨hempty, hdreie, htsr, fun hact => ⟨hdre hact, ?_⟩⟩
  obtain ⟨-, -, hrxcie⟩ := hport.enabled (.inl hact)
  simpa [Port.rxRequest, hrxcie] using hrxReq

end Sys2Proof.Machine
end

section
/-! PROOF. The frame made for a byte (spec/10_state.md R29), what a step of the machine is (spec/00_scope.md R5, R6), and the well-formed
states that every step keeps (spec/10_state.md R11 to R16, R27). -/

namespace Sys2Proof.Machine

variable {s t u : State} {c : Cfg} {p p' : Port}

/-! ## Frames (R29) -/

theorem toNat_maskBits (n : Nat) (b : Byte) : (maskBits n b).toNat = b.toNat % 2 ^ n := by
  have hle : b.toNat % 2 ^ n ≤ b.toNat := Nat.mod_le _ _
  have hlt : b.toNat < 2 ^ 8 := b.isLt
  rw [maskBits, BitVec.toNat_ofNat, Nat.mod_eq_of_lt (by omega)]

theorem getLsbD_maskBits (n : Nat) (b : Byte) (k : Nat) : (maskBits n b).getLsbD k = (decide (k < n) && b.getLsbD k) := by
  rw [BitVec.getLsbD, toNat_maskBits, Nat.testBit_mod_two_pow]
  rfl

/-- Masking twice is masking once. -/
@[simp] theorem maskBits_maskBits (n : Nat) (b : Byte) : maskBits n (maskBits n b) = maskBits n b :=
  BitVec.eq_of_toNat_eq (by rw [toNat_maskBits, toNat_maskBits, Nat.mod_mod])

/-- The exclusive-or of bits is the parity of how many are set. -/
theorem foldl_xor_eq_countP (g : Nat → Bool) (l : List Nat) (x : Bool) :
    l.foldl (fun x k => x ^^ g k) x = (x ^^ decide (l.countP g % 2 = 1)) := by
  induction l generalizing x with
  | nil => simp
  | cons k l ih =>
    rw [List.foldl_cons, ih, List.countP_cons]
    have hodd : decide ((l.countP g + 1) % 2 = 1) = !decide (l.countP g % 2 = 1) := by
      rw [← decide_not, decide_eq_decide]; omega
    cases g k
    · simp
    · rw [if_pos rfl, hodd]; cases x <;> simp

theorem xorBits_eq_countP (n : Nat) (b : Byte) :
    xorBits n b = decide (((List.range n).countP fun k => b.getLsbD k) % 2 = 1) := by
  rw [xorBits, foldl_xor_eq_countP, Bool.false_xor]

/-- The frame made for a byte is a frame. -/
theorem mkFrame_wf (b : Byte) (fmt : FrameFormat) : (mkFrame b fmt).wf = true := by
  refine decide_eq_true ?_
  show (maskBits fmt.size.width b).toNat < 2 ^ fmt.size.width
  rw [toNat_maskBits]
  exact Nat.mod_lt _ (Nat.two_pow_pos _)

/-- Settles O37: the data is the byte masked to the width, and the parity bit the parity of the count of its set bits. -/
theorem frameOfAByte : Obligations.FrameOfAByte := by
  refine fun b fmt => ⟨rfl, rfl, mkFrame_wf b fmt, fun k _ => getLsbD_maskBits _ b k, fun hp => ?_, ?_, maskBits_maskBits _ b⟩
  · simp [mkFrame, parityBit, hp]
  · rintro x rfl
    rw [← xorBits_eq_countP]
    exact ⟨fun hp => by simp [mkFrame, parityBit, hp], fun hp => by simp [mkFrame, parityBit, hp]⟩

/-! ## What a step of the machine is

A step is an operation or a foreground step on some selected port of the same machine, or nothing yet, or a stop. -/

/-- The same ports in order, configuration and foreground: only the selection, the schedule and the model's own counters may differ. -/
def State.Reselects (s u : State) : Prop := u.ports = s.ports ∧ u.cfg = s.cfg ∧ u.fg = s.fg

theorem State.Reselects.trans {v : State} (h : s.Reselects u) (h' : u.Reselects v) : s.Reselects v :=
  ⟨h'.1.trans h.1, h'.2.1.trans h.2.1, h'.2.2.trans h.2.2⟩

theorem State.Reselects.of_select {j : Nat} (h : s.select j = some u) : s.Reselects u := by
  obtain ⟨hports, -, -, hcfg, -, hfg, -⟩ := State.select_eq_some h
  exact ⟨hports, hcfg, hfg⟩

/-- What `step` can answer from `s`. -/
inductive State.Takes (s : State) : Step → Prop where
  | operation {u : State} {i : Instr} (hu : s.Reselects u) (hduty : s.keepsDuty = true → i.bareBufferWrite = false) :
      s.Takes (exec i u)
  | foreground {u : State} (hu : s.Reselects u) (hport : u.fg.port = u.here) : s.Takes (foregroundStep u)
  | noneYet {u : State} (hu : s.Reselects u) : s.Takes (.next u)
  | ended (hturns : s.turns = []) (hmoves : enabledMoves s = []) :
      s.Takes (.fault (if s.fg.pc = .idle then .runEnded else .stuck))
  | refused (r : Refusal) : s.Takes (.refused r)

/-- A turn of the foreground is taken with the port of its command selected. -/
theorem State.Takes.of_select_fgPort {v : State} (h : s.Reselects v) (hu : v.select v.fg.port = some u) :
    s.Takes (foregroundStep u) := by
  obtain ⟨-, hhere, -, -, -, hfg, -⟩ := State.select_eq_some hu
  exact .foreground (h.trans (.of_select hu)) ((congrArg Fg.port hfg).trans hhere.symm)

theorem foregroundTurn_takes {v : State} (h : s.Reselects v) : s.Takes (foregroundTurn v) := by
  unfold foregroundTurn
  split
  · exact .refused _
  · exact .of_select_fgPort h ‹_›

/-- A move is a handler or engine operation, or a foreground step. -/
theorem runMove_takes {v : State} (h : s.Reselects v) (m : Move) : s.Takes (runMove v m) := by
  unfold runMove
  cases hu : moveSelect v m with
  | none => exact .refused _
  | some u =>
    cases m with
    | isrRx j => exact .operation (i := .isrRx) (h.trans (.of_select hu)) fun _ => rfl
    | isrTx j => exact .operation (i := .isrTx) (h.trans (.of_select hu)) fun _ => rfl
    | txload j => exact .operation (i := .hwTxload) (h.trans (.of_select hu)) fun _ => rfl
    | txdone j => exact .operation (i := .hwTxdone) (h.trans (.of_select hu)) fun _ => rfl
    | foreground => exact .of_select_fgPort h hu

/-- Every step is an operation or a foreground step of the same machine, or nothing yet, or a stop. -/
theorem step_takes (s : State) : s.Takes (step s) := by
  rcases step_cases s with ⟨ht, e⟩ | ⟨ts, -, e⟩ | ⟨j, record, ts, ht, ⟨r, -, e⟩ | ⟨i, u, hf, e⟩⟩ <;> rw [e]
  · rcases progress_cases s with ⟨hm, e⟩ | ⟨m, -, k, e⟩ | ⟨-, -, e⟩ <;> rw [e]
    · exact .ended ht hm
    · have hk : s.Reselects { s with tick := k } := ⟨rfl, rfl, rfl⟩
      exact runMove_takes hk m
    · exact .noneYet ⟨rfl, rfl, rfl⟩
  · exact foregroundTurn_takes ⟨rfl, rfl, rfl⟩
  · exact .refused r
  · obtain ⟨hu, ⟨rest, hd⟩, -⟩ := fetch_ok hf
    have hsel : State.Reselects { s with turns := ts } u := .of_select hu
    refine .operation hsel fun hduty => ?_
    simpa [State.keepsDuty, ht, hd] using hduty

/-! ## Well-formed states -/

/-- A port whose buffers are well-formed, with the divisor, the shift register and the wire of a well-formed one. -/
theorem Port.Wf.of_buffers (h : p.Wf c) (hrx : p'.rx.wf c.rxCap = true) (htx : p'.tx.wf c.txCap = true)
    (hdiv : p'.div = p.div := by rfl) (htsr : p'.tsr = p.tsr := by rfl) (hwire : p'.wireOut = p.wireOut := by rfl) :
    p'.Wf c :=
  ⟨hrx, htx, hdiv ▸ h.divFits, fun f hf => h.tsrWf f (htsr ▸ hf), fun f hf => h.wireWf f (hwire ▸ hf)⟩

/-- A port in which none of what `Port.Wf` speaks of has changed. -/
theorem Port.Wf.of_flags (h : p.Wf c) (hrx : p'.rx = p.rx := by rfl) (htx : p'.tx = p.tx := by rfl)
    (hdiv : p'.div = p.div := by rfl) (htsr : p'.tsr = p.tsr := by rfl) (hwire : p'.wireOut = p.wireOut := by rfl) :
    p'.Wf c := h.of_buffers (hrx ▸ h.rxWf) (htx ▸ h.txWf) hdiv htsr hwire

theorem Port.Wf.queue (h : p.Wf c) (q : Queue) : (p.queue q).wf (capOf c q) = true := by
  cases q
  · exact h.rxWf
  · exact h.txWf

theorem Port.Wf.setQueue {r : RingBuf} (h : p.Wf c) (q : Queue) (hr : r.wf (capOf c q) = true) : (p.setQueue q r).Wf c := by
  cases q
  · exact h.of_buffers hr h.txWf
  · exact h.of_buffers h.rxWf hr

/-- The oldest byte of the transmit buffer moved to `DATA`. -/
theorem Port.Wf.drained (h : p.Wf c) (he : p.tx.isEmpty = false) (b : Byte) :
    Port.Wf c { p with tx := { p.tx with tail := nextIndex c.txCap p.tx.tail }, tdr := b, dre := false, txc := false } := by
  obtain ⟨-, htx, -⟩ := RingBuf.slots_pop h.txWf he
  exact h.of_buffers h.rxWf htx

/-- A pop that answers leaves a well-formed buffer. -/
theorem RingBuf.wf_of_pop {cap : Nat} {r r' : RingBuf} {v : Option Byte} (h : r.wf cap = true) (hp : r.pop cap = .ok (v, r')) :
    r'.wf cap = true := by
  obtain ⟨v', r'', hp', hwf⟩ := RingBuf.wf_pop (cap := cap) h
  cases hp.symm.trans hp'
  exact hwf

/-! ### Steps of the foreground -/

theorem manualDrain_portWf (hwf : s.port.Wf s.cfg) (h : manualDrain s = .next t) : t.port.Wf s.cfg := by
  rcases manualDrain_next h with ⟨-, rfl⟩ | ⟨b, he, -, -, rfl⟩
  · exact hwf
  · exact hwf.drained he b

theorem beginStep2_portWf (hwf : s.port.Wf s.cfg) (u2x : Bool) (div : Nat) (pat : Byte) (baud : Nat) (fmt : FrameFormat) :
    (beginStep2 u2x div pat baud fmt s).port.Wf s.cfg :=
  ⟨hwf.rxWf, hwf.txWf, Nat.mod_lt _ (Nat.two_pow_pos _), hwf.tsrWf, hwf.wireWf⟩

theorem beginStep3_portWf (hwf : s.port.Wf s.cfg) : (beginStep3 s).port.Wf s.cfg := by
  rw [beginStep3, State.returnValue_port]
  exact hwf.of_buffers (RingBuf.wf_clear hwf.rxWf).1 (RingBuf.wf_clear hwf.txWf).1

theorem endStep2_portWf (hwf : s.port.Wf s.cfg) : (endStep2 s).port.Wf s.cfg := by
  rw [endStep2, State.returnValue_port]
  exact hwf.of_buffers (RingBuf.wf_clear hwf.rxWf).2 hwf.txWf

theorem writeStep1_portWf {b : Byte} (hwf : s.port.Wf s.cfg) (h : writeStep1 b s = .next t) : t.port.Wf s.cfg := by
  obtain ⟨-, ⟨-, -, -, rfl⟩ | ⟨-, rfl⟩⟩ := writeStep1_next h
  · rw [State.returnValue_port]; exact hwf.of_flags
  · exact hwf

theorem writeStep2_portWf {b : Byte} (hwf : s.port.Wf s.cfg) (h : writeStep2 b s = .next t) : t.port.Wf s.cfg := by
  rcases writeStep2_next h with ⟨hf, rfl⟩ | ⟨-, -, -, hd⟩
  · obtain ⟨-, htx, -⟩ := RingBuf.slots_push b hwf.txWf hf
    exact hwf.of_buffers hwf.rxWf htx
  · exact manualDrain_portWf hwf hd

theorem writeStep3_portWf (hwf : s.port.Wf s.cfg) : (writeStep3 s).port.Wf s.cfg := by
  rw [writeStep3, State.returnValue_port]
  exact hwf.of_flags

theorem flushStep_portWf (hwf : s.port.Wf s.cfg) (h : flushStep s = .next t) : t.port.Wf s.cfg := by
  rcases flushStep_next h with ⟨-, rfl⟩ | ⟨-, -, -, rfl⟩ | ⟨-, -, -, -, hd⟩
  · rw [State.returnValue_port]; exact hwf
  · rw [State.returnValue_port]; exact hwf.of_flags
  · exact manualDrain_portWf hwf hd

@[simp] theorem bufStep_port (bs : List Byte) (n : Nat) (s : State) : (bufStep bs n s).port = s.port := by
  rcases bufStep_cases bs n s with ⟨-, e⟩ | ⟨b, rest, -, e⟩ <;> rw [e]
  · exact State.returnValue_port s _
  · rfl

theorem pgmStep_port {a : Nat} (h : pgmStep a s = .next t) : t.port = s.port := by
  rcases pgmStep_next h with ⟨-, rfl⟩ | ⟨b, -, -, rfl⟩
  · exact State.returnValue_port s _
  · rfl

@[simp] theorem beginStep1_port (baud : Nat) (fmt : FrameFormat) (s : State) : (beginStep1 baud fmt s).port = s.port := by
  rcases beginStep1_cases baud fmt s with ⟨r, -, e⟩ | ⟨u2x, div, -, e⟩ <;> rw [e]
  · exact State.returnValue_port s _
  · rfl

theorem foregroundStep_portWf (hwf : s.port.Wf s.cfg) (h : foregroundStep s = .next t) : t.port.Wf s.cfg := by
  unfold foregroundStep at h
  cases hpc : s.fg.pc <;> rw [hpc] at h
  case idle => cases h
  case begin2 => cases h; exact beginStep2_portWf hwf ..
  case begin3 => cases h; exact beginStep3_portWf hwf
  case write1 => exact writeStep1_portWf hwf h
  case write2 => exact writeStep2_portWf hwf h
  case write3 => cases h; exact writeStep3_portWf hwf
  case flush1 => exact flushStep_portWf hwf h
  case end2 => cases h; exact endStep2_portWf hwf
  case buf => cases h; rw [bufStep_port]; exact hwf
  case pgm => rw [pgmStep_port h]; exact hwf

/-! ### Operations -/

theorem Port.Wf.isrRx (h : p.Wf c) : (p.isrRx c).Wf c := by
  rcases p.isrRx_cases c with ⟨-, e⟩ | ⟨hf, e⟩ <;> rw [e]
  · exact h.of_flags
  · obtain ⟨-, hrx, -⟩ := RingBuf.slots_push p.rdr h.rxWf hf
    exact h.of_buffers hrx h.txWf

theorem Port.Wf.rxarrive (h : p.Wf c) (f : Frame) : (p.rxarrive f).Wf c := by
  rcases p.rxarrive_cases f with ⟨-, e⟩ | ⟨-, -, e⟩ | ⟨-, -, e⟩ <;> rw [e]
  · exact h
  · exact h.of_flags
  · exact h.of_flags

theorem execIsrTx_portWf (hwf : s.port.Wf s.cfg) (h : execIsrTx s = .next t) : t.port.Wf s.cfg := by
  obtain ⟨-, ⟨-, rfl⟩ | ⟨b, he, -, -, rfl⟩⟩ := execIsrTx_next h
  · exact hwf.of_flags
  · exact hwf.drained he b

/-- The frame `HW.TXLOAD` makes is a frame. -/
theorem execHwTxload_portWf (hwf : s.port.Wf s.cfg) (h : execHwTxload s = .next t) : t.port.Wf s.cfg := by
  obtain ⟨-, -, -, fmt, -, rfl⟩ := execHwTxload_next h
  refine ⟨hwf.rxWf, hwf.txWf, hwf.divFits, fun g hg => ?_, hwf.wireWf⟩
  cases hg
  exact mkFrame_wf _ fmt

/-- The frame `HW.TXDONE` puts on the wire was in the shift register. -/
theorem execHwTxdone_portWf (hwf : s.port.Wf s.cfg) (h : execHwTxdone s = .next t) : t.port.Wf s.cfg := by
  obtain ⟨g, hg, rfl⟩ := execHwTxdone_next h
  refine ⟨hwf.rxWf, hwf.txWf, hwf.divFits, nofun, fun g' hg' => ?_⟩
  rcases List.mem_append.1 hg' with hold | hnew
  · exact hwf.wireWf g' hold
  · exact List.mem_singleton.1 hnew ▸ hwf.tsrWf g hg

theorem execRbClear_portWf {q : Queue} {form : ClearForm} (hwf : s.port.Wf s.cfg) (h : execRbClear q form s = .next t) :
    t.port.Wf s.cfg := by
  cases h
  cases form
  · exact hwf.setQueue q (RingBuf.wf_clear (hwf.queue q)).1
  · exact hwf.setQueue q (RingBuf.wf_clear (hwf.queue q)).2

theorem execFlush_portWf (hwf : s.port.Wf s.cfg) (h : execFlush s = .next t) : t.port.Wf s.cfg := by
  obtain ⟨-, hf | ⟨-, rfl⟩⟩ := execFlush_next h
  · exact flushStep_portWf (s := s.issue .flush1) hwf hf
  · exact hwf

theorem exec_portWf {i : Instr} (hwf : s.port.Wf s.cfg) (h : exec i s = .next t) : t.port.Wf s.cfg := by
  cases i with
  | gieSet => obtain ⟨-, e⟩ := State.whenIdle_next h; cases e; exact hwf
  | gieClr => obtain ⟨-, e⟩ := State.whenIdle_next h; cases e; exact hwf
  | beginCmd baud fmt => obtain ⟨-, e⟩ := State.whenIdle_next h; cases e; rw [beginStep1_port]; exact hwf
  | endCmd => obtain ⟨-, e⟩ := State.whenIdle_next h; cases e; exact hwf
  | available => obtain ⟨-, e⟩ := State.whenIdle_next h; cases e; rw [State.returnValue_port]; exact hwf
  | ready => obtain ⟨-, e⟩ := State.whenIdle_next h; cases e; rw [State.returnValue_port]; exact hwf
  | peek => obtain ⟨-, v, -, rfl⟩ := execPeek_next h; rw [State.returnValue_port]; exact hwf
  | read =>
    obtain ⟨-, v, r, hp, rfl⟩ := execRead_next h
    rw [State.returnValue_port]
    exact hwf.of_buffers (RingBuf.wf_of_pop hwf.rxWf hp) hwf.txWf
  | write b => exact writeStep1_portWf (s := s.issue (.write1 b)) hwf (execWrite_next h).2
  | writebuf bs => obtain ⟨-, -, rfl⟩ := execWritebuf_next h; rw [bufStep_port]; exact hwf
  | flush => exact execFlush_portWf hwf h
  | printpgm a => obtain ⟨-, -, -, hp⟩ := execPrintpgm_next h; rw [pgmStep_port hp]; exact hwf
  | rbPush q b => cases h; exact hwf.setQueue q (RingBuf.wf_push b (hwf.queue q))
  | rbPop q => obtain ⟨v, r, hp, rfl⟩ := execRbPop_next h; exact hwf.setQueue q (RingBuf.wf_of_pop (hwf.queue q) hp)
  | rbPeek q => obtain ⟨v, -, rfl⟩ := execRbPeek_next h; exact hwf
  | rbAvailable q => cases h; exact hwf
  | rbIsfull q => cases h; exact hwf
  | rbIsempty q => cases h; exact hwf
  | rbClear q form => exact execRbClear_portWf hwf h
  | lcDivisor baud => obtain ⟨v, rfl⟩ := execLcDivisor_next h; exact hwf
  | lcFrame fmt => cases h; exact hwf
  | isrRx => obtain ⟨-, rfl⟩ := execIsrRx_next h; exact hwf.isrRx
  | isrTx => exact execIsrTx_portWf hwf h
  | hwTxload => exact execHwTxload_portWf hwf h
  | hwTxdone => exact execHwTxdone_portWf hwf h
  | hwRxarrive g => cases execHwRxarrive_next h; exact hwf.rxarrive g

/-! ### The machine -/

theorem State.Wf.of_reselects (h : s.Wf) (hu : s.Reselects u) : u.Wf := by
  obtain ⟨hports, hcfg, -⟩ := hu
  exact ⟨hcfg ▸ h.cfgWf, fun p hp => hcfg ▸ h.portsWf p (hports ▸ hp)⟩

/-- Only the selected port has to be looked at after a step that leaves the others alone. -/
theorem State.Wf.of_around (h : s.Wf) (hbefore : t.before = s.before) (hafter : t.after = s.after) (hcfg : t.cfg = s.cfg)
    (hport : t.port.Wf s.cfg) : t.Wf := by
  refine ⟨hcfg ▸ h.cfgWf, fun p hp => ?_⟩
  rw [hcfg]
  rw [State.ports, List.mem_append, List.mem_cons, hbefore, hafter] at hp
  rcases hp with hp | rfl | hp
  · exact h.portsWf p (List.mem_append_left _ hp)
  · exact hport
  · exact h.portsWf p (List.mem_append_right _ (List.mem_cons_of_mem _ hp))

theorem foregroundStep_wf (h : s.Wf) (hs : foregroundStep s = .next t) : t.Wf :=
  have hsame := foregroundStep_sameAround hs
  h.of_around hsame.before hsame.after hsame.cfg (foregroundStep_portWf h.port hs)

theorem exec_wf {i : Instr} (h : s.Wf) (hs : exec i s = .next t) : t.Wf := by
  have hport := exec_portWf h.port hs
  rcases exec_sameAround hs with hsame | ⟨-, g, rfl⟩
  · exact h.of_around hsame.before hsame.after hsame.cfg hport
  · exact h.of_around rfl rfl rfl hport

/-- Settles O54: a step is an operation or a foreground step on a port it selects, and each keeps that port well-formed. -/
theorem everyStepKeepsStatesWellFormed : Obligations.EveryStepKeepsStatesWellFormed := by
  intro s t h hs
  have htakes := step_takes s
  rw [hs] at htakes
  generalize ho : Host.Outcome.next t = o at htakes
  cases htakes with
  | operation hu => exact exec_wf (h.of_reselects hu) ho.symm
  | foreground hu => exact foregroundStep_wf (h.of_reselects hu) ho.symm
  | noneYet hu => cases ho; exact h.of_reselects hu
  | ended => cases ho
  | refused => cases ho

end Sys2Proof.Machine
end

section
/-! PROOF. The invariants of R37 (spec/10_state.md section 8): a reset state has them (R38), and every step that keeps duty H-7 keeps them. -/

namespace Sys2Proof.Machine

variable {s t u : State} {c : Cfg} {p : Port} {pc pc' : Pc} {fg : Fg} {n : Nat}

/-! ## Reset -/

theorem State.mem_launch_ports {gie : Bool} {io : PortConfig} {more : List PortConfig}
    (h : p ∈ (State.launch c gie io more).ports) : ∃ io', p = Port.reset io' := by
  rcases List.mem_cons.1 (h : p ∈ Port.reset io :: more.map Port.reset) with rfl | h
  · exact ⟨io, rfl⟩
  · obtain ⟨io', -, rfl⟩ := List.mem_map.1 h
    exact ⟨io', rfl⟩

/-- Settles O51: every port of the reset state is `Port.reset` of its register map. -/
theorem resetValues : Obligations.ResetValues := by
  intro c gie io more p hp
  obtain ⟨io', rfl⟩ := State.mem_launch_ports hp
  exact ⟨rfl, rfl, rfl, rfl, rfl, rfl, rfl, rfl, rfl, rfl, rfl, rfl, rfl, rfl, rfl, rfl, rfl, rfl, rfl,
    fun _ => ⟨rfl, rfl⟩, rfl, rfl, rfl⟩

/-- A capacity is at least 2 (R4). -/
theorem Cfg.two_le_rxCap (h : c.wf = true) : 2 ≤ c.rxCap := by
  simp only [Cfg.wf, Cfg.capWf, Bool.and_eq_true, decide_eq_true_eq] at h
  omega

theorem Port.reset_wf (hc : c.wf = true) (io : PortConfig) : (Port.reset io).Wf c where
  rxWf := RingBuf.wf_reset (Nat.zero_lt_of_lt (Cfg.two_le_rxCap hc))
  txWf := RingBuf.wf_reset (Nat.zero_lt_of_lt (Cfg.two_le_txCap hc))
  divFits := Nat.two_pow_pos _
  tsrWf := nofun
  wireWf := nofun

theorem Port.reset_inv (c : Cfg) (io : PortConfig) : (Port.reset io).Inv c .idle where
  armed := nofun
  quiet _ _ := rfl
  complete := nofun
  owed h := h.elim nofun nofun
  enabled h := h.elim nofun nofun
  inert _ _ := ⟨rfl, rfl, rfl, rfl⟩
  burst := nofun
  configured := ⟨rfl, rfl⟩
  writing := nofun
  ending := nofun

/-- With no command in progress every port is at `Idle`. -/
theorem State.pcOf_of_idle (h : s.fg.pc = .idle) (j : Nat) : s.pcOf j = .idle := by
  rw [State.pcOf, h, ite_self]

/-- Settles O53: after reset nothing is queued, sent or enabled, and no command is in progress. -/
theorem launchStatesSatisfyInvariant : Obligations.LaunchStatesSatisfyInvariant := by
  intro c gie io more hc
  refine ⟨⟨hc, fun p hp => ?_⟩, ⟨?_, rfl, nofun, fun a h => h.elim nofun nofun⟩, fun j p hp => ?_⟩
  · obtain ⟨io', rfl⟩ := State.mem_launch_ports hp
    exact Port.reset_wf hc io'
  · rw [State.length_ports]; exact Nat.succ_pos _
  · obtain ⟨io', rfl⟩ := State.mem_launch_ports (List.mem_of_getElem? hp)
    rw [State.pcOf_of_idle rfl]
    exact Port.reset_inv c io'

/-! ## The invariants of one port -/

/-- The control points at which no part of R37 is suspended: all but the one with a byte just queued and the one with the driver about to be reset. -/
def Pc.settled : Pc → Bool
  | .write3 | .begin3 => false
  | .idle | .begin2 _ _ _ _ _ | .write1 _ | .write2 _ | .flush1 | .end2 | .buf _ _ | .pgm _ => true

theorem Pc.ne_of_settled (h : pc.settled = true) : pc ≠ .write3 ∧ pc ≠ .begin3 := by
  constructor <;> (rintro rfl; cases h)

/-- From one settled control point to another the port's invariants ask for no more than what the new point needs. -/
theorem Port.Inv.at_settled (h : p.Inv c pc) (hpc : pc.settled = true) (hpc' : pc'.settled = true)
    (hact : pc'.needsActive = true → p.active = true) (hend : pc' = .end2 → p.transmitting = false) : p.Inv c pc' := by
  obtain ⟨hw, hb⟩ := Pc.ne_of_settled hpc
  obtain ⟨hw', hb'⟩ := Pc.ne_of_settled hpc'
  exact { h with
    armed := fun he _ _ => h.armed he hw hb
    quiet := fun ht _ => h.quiet ht hw
    owed := fun ho => h.owed (.inl (ho.resolve_right hw'))
    enabled := fun ha => h.enabled (.inl (ha.resolve_right hb'))
    inert := fun ha _ => h.inert ha hb
    writing := hact
    ending := hend }

/-- The invariants do not speak of the receive buffer, `RDR`, `RXC` or the count of dropped bytes. -/
theorem Port.Inv.of_receive (h : p.Inv c pc) (rx : RingBuf) (rdr : Byte) (rxc : Bool) (dropped : Nat) :
    Port.Inv c pc { p with rx := rx, rdr := rdr, rxc := rxc, rxDropped := dropped } := { h with }

/-- The oldest byte of the transmit buffer moved to `DATA`: the burst is owed in `TDR`. -/
theorem Port.Inv.drained (h : p.Inv c pc) (he : p.tx.isEmpty = false) (b : Byte) :
    Port.Inv c pc { p with tx := { p.tx with tail := nextIndex c.txCap p.tx.tail }, tdr := b, dre := false, txc := false } :=
  { h with
    armed := fun _ => h.armed he
    quiet := fun ht hw => by have hempty := h.quiet ht hw; rw [he] at hempty; cases hempty
    complete := nofun
    owed := fun _ => .inr (.inl rfl) }

/-- `ISR.TX` on an empty buffer disables itself. -/
theorem Port.Inv.disarmed (h : p.Inv c pc) (he : p.tx.isEmpty = true) : Port.Inv c pc { p with dreie := false } :=
  { h with
    armed := fun hne => by rw [show p.tx.isEmpty = false from hne] at he; cases he
    inert := fun ha hb =>
      have ⟨hrxen, htxen, hrxcie, _⟩ := h.inert ha hb
      ⟨hrxen, htxen, hrxcie, rfl⟩ }

/-- `HW.TXLOAD`: the burst is owed in `TSR`. -/
theorem Port.Inv.txloaded (h : p.Inv c pc) (hdre : p.dre = false) (g : Frame) :
    Port.Inv c pc { p with tsr := .busy g, dre := true } :=
  { h with
    complete := fun ht => by
      obtain ⟨-, hdre'⟩ := h.complete ht
      rw [hdre] at hdre'; cases hdre'
    owed := fun _ => .inr (.inr (.inl nofun)) }

/-- `HW.TXDONE`: the burst is complete, or owed in `TDR`. -/
theorem Port.Inv.txdone (h : p.Inv c pc) {g : Frame} (htsr : p.tsr = .busy g) :
    Port.Inv c pc { p with wireOut := p.wireOut ++ [g], tsr := .idle, txc := p.txc || p.dre } :=
  { h with
    complete := fun ht => by
      rcases Bool.or_eq_true_iff.1 ht with htxc | hdre
      · obtain ⟨hidle, -⟩ := h.complete htxc
        rw [htsr] at hidle; cases hidle
      · exact ⟨rfl, hdre⟩
    owed := fun _ => by
      cases hdre : p.dre
      · exact .inr (.inl rfl)
      · exact .inr (.inr (.inr (Bool.or_true _))) }

theorem Port.Inv.isrRx (h : p.Inv c pc) : (p.isrRx c).Inv c pc := by
  rcases p.isrRx_cases c with ⟨-, e⟩ | ⟨-, e⟩ <;> rw [e] <;> exact h.of_receive ..

theorem Port.Inv.rxarrive (h : p.Inv c pc) (g : Frame) : (p.rxarrive g).Inv c pc := by
  rcases p.rxarrive_cases g with ⟨-, e⟩ | ⟨-, -, e⟩ | ⟨-, -, e⟩ <;> rw [e] <;> exact h.of_receive ..

/-- `WRITE` by the fast path: the burst begins, its byte in `TDR`. -/
theorem Port.Inv.startBurst (h : p.Inv c pc) (hact : p.active = true) (hend : pc ≠ .end2) (b : Byte) :
    Port.Inv c pc { p with tdr := b, dre := false, txc := false, dreie := true, transmitting := true } :=
  { h with
    armed := fun _ _ _ => rfl
    quiet := nofun
    complete := nofun
    owed := fun _ => .inr (.inl rfl)
    inert := fun ha => by rw [show p.active = false from ha] at hact; cases hact
    burst := fun _ => hact
    ending := fun e => (hend e).elim }

/-- `WRITE` step 2: the byte is queued, and the interrupt is not armed before step 3. -/
theorem Port.Inv.queued {b : Byte} {r : RingBuf} (h : p.Inv c (.write2 b)) (he : r.isEmpty = false) :
    Port.Inv c .write3 { p with tx := r } :=
  { h with
    armed := fun _ hw => (hw rfl).elim
    quiet := fun _ hw => (hw rfl).elim
    owed := fun _ => .inl he
    enabled := fun ha => h.enabled (.inl (ha.resolve_right nofun))
    inert := fun ha _ => h.inert ha nofun
    writing := fun _ => h.writing rfl
    ending := nofun }

/-- `WRITE` step 3: armed, in a burst that owes at least the byte just queued. -/
theorem Port.Inv.armedBurst (h : p.Inv c .write3) : Port.Inv c .idle { p with dreie := true, transmitting := true } :=
  have hact : p.active = true := h.writing rfl
  { h with
    armed := fun _ _ _ => rfl
    quiet := nofun
    owed := fun _ => h.owed (.inr rfl)
    enabled := fun _ => h.enabled (.inl hact)
    inert := fun ha => by rw [show p.active = false from ha] at hact; cases hact
    burst := fun _ => hact
    writing := nofun
    ending := nofun }

/-- `FLUSH` ends a burst with nothing queued. -/
theorem Port.Inv.burstEnded (h : p.Inv c .flush1) (he : p.tx.isEmpty = true) : Port.Inv c .flush1 { p with transmitting := false } :=
  { h with
    quiet := fun _ _ => he
    owed := fun ho => ho.elim nofun nofun
    burst := nofun
    ending := nofun }

/-- `BEGIN` step 2: the registers are what the encoders gave. -/
theorem Port.Inv.programmed {u2x : Bool} {div baud : Nat} {pat : Byte} {fmt : FrameFormat}
    (h : p.Inv c (.begin2 u2x div pat baud fmt)) (hdiv : lcDivisor c baud = .ok (u2x, div)) (hpat : pat = encodeFrame fmt) :
    Port.Inv c .begin3 { p with
      u2x := u2x, div := div % 2 ^ c.divBits, frame := pat, line := some { baudRate := baud, frameFormat := fmt }
      rxen := true, txen := true, rxcie := true, dreie := false } :=
  { h with
    armed := fun _ _ hb => (hb rfl).elim
    quiet := fun ht _ => h.quiet ht nofun
    owed := fun ho => h.owed (.inl (ho.resolve_right nofun))
    enabled := fun _ => ⟨rfl, rfl, rfl⟩
    inert := fun _ hb => (hb rfl).elim
    configured := ⟨by rw [Nat.mod_eq_of_lt (lcDivisor_div_lt hdiv)]; exact hdiv, hpat⟩
    writing := nofun
    ending := nofun }

/-- `BEGIN` step 3: the driver is reset and the port active. -/
theorem Port.Inv.begun (h : p.Inv c .begin3) :
    Port.Inv c .idle { p with rx := p.rx.clear0, tx := p.tx.clear0, transmitting := false, active := true } :=
  { h with
    armed := nofun
    quiet := fun _ _ => rfl
    owed := fun ho => ho.elim nofun nofun
    enabled := fun _ => h.enabled (.inr rfl)
    inert := nofun
    burst := nofun
    writing := nofun
    ending := nofun }

/-- `END` step 2: the port is disabled, with nothing queued, since no burst is in progress. -/
theorem Port.Inv.disabled (h : p.Inv c .end2) :
    Port.Inv c .idle { p with
      rxen := false, txen := false, rxcie := false, dreie := false, rxc := false, rx := p.rx.clearH, active := false } :=
  have hquiet : p.transmitting = false := h.ending rfl
  have hempty : p.tx.isEmpty = true := h.quiet hquiet nofun
  { h with
    armed := fun hne => by rw [show p.tx.isEmpty = false from hne] at hempty; cases hempty
    quiet := fun _ _ => hempty
    owed := fun ho => by rw [show p.transmitting = true from ho.resolve_right nofun] at hquiet; cases hquiet
    enabled := fun ha => ha.elim nofun nofun
    inert := fun _ _ => ⟨rfl, rfl, rfl, rfl⟩
    burst := fun ht => by rw [show p.transmitting = true from ht] at hquiet; cases hquiet
    configured := by
      have hconf := h.configured
      unfold Port.configured at hconf ⊢
      cases hline : p.line with
      | none => exact ⟨rfl, rfl⟩
      | some l => rw [hline] at hconf; exact hconf
    writing := nofun
    ending := nofun }

/-! ## The foreground and its return slot (R36) -/

theorem Fg.retFits_of_ret_none (h : fg.ret = none) : fg.retFits := by
  unfold Fg.retFits
  split <;> simp [h]

/-- At `Idle` the return slot is empty. -/
theorem Fg.Inv.ret_of_idle (h : fg.Inv c n) (hpc : fg.pc = .idle) : fg.ret = none := by
  have hfits := h.retFits
  rwa [Fg.retFits, hpc] at hfits

/-- The control point a returning command goes on to. -/
def Fg.resumed (form : BufCount) (v : Result) (fg : Fg) : Pc := (fg.ret.map (Pc.resume form v)).getD .idle

variable {form : BufCount} {v : Result}

theorem Fg.resumed_of_ret_none (h : fg.ret = none) : fg.resumed form v = .idle := by simp [Fg.resumed, h]

/-- A `WRITE` returns to the host, to `WRITEBUF` or to `PRINTPGM`. -/
theorem Fg.resumed_of_write (h : fg.ret = none ∨ (∃ bs k, fg.ret = some (.buf bs k)) ∨ ∃ a, fg.ret = some (.pgm a)) :
    (fg.resumed form v).settled = true ∧ fg.resumed form v ≠ .end2 := by
  rcases h with h | ⟨bs, k, h⟩ | ⟨a, h⟩ <;> simp [Fg.resumed, h, Pc.settled]

/-- A `FLUSH` returns to the host or to `END`. -/
theorem Fg.resumed_of_flush (h : fg.ret = none ∨ fg.ret = some .end2) :
    (fg.resumed form v).settled = true ∧ (fg.resumed form v).needsActive = false := by
  rcases h with h | h <;> simp [Fg.resumed, h, Pc.settled, Pc.needsActive]

/-- What the return slot of a foreground with the invariants can hold. -/
theorem Fg.Inv.ret_cases (h : fg.Inv c n) :
    fg.ret = none ∨ (∃ bs k, fg.ret = some (.buf bs k)) ∨ (∃ a, fg.ret = some (.pgm a)) ∨ fg.ret = some .end2 := by
  have hfits := h.retFits
  cases hpc : fg.pc <;> rw [Fg.retFits, hpc] at hfits
  case write1 | write2 | write3 => exact hfits.imp_right (Or.imp_right .inl)
  case flush1 => exact hfits.imp_right fun h => .inr (.inr h)
  case idle | begin2 | begin3 | end2 | buf | pgm => exact .inl hfits

/-- A command that returns leaves a foreground with the invariants: an outer command, or none, with its return slot empty. -/
theorem State.returnValue_fgInv (h : s.fg.Inv c n) (v : Result) : (s.returnValue v).fg.Inv c n := by
  have hport : (s.returnValue v).fg.port < n := by rw [State.returnValue_fgPort]; exact h.portOk
  have hret := State.returnValue_ret s v
  have hpc := State.returnValue_pc s v
  refine ⟨hport, Fg.retFits_of_ret_none hret, fun u2x div pat baud fmt hb => ?_, fun a ha => ?_⟩
  · rcases h.ret_cases with e | ⟨bs, k, e⟩ | ⟨a, e⟩ | e <;> simp [e] at hb
  · rw [hret, or_iff_left nofun, hpc] at ha
    rcases h.ret_cases with e | ⟨bs, k, e⟩ | ⟨a', e⟩ | e <;> simp [e] at ha
    exact h.string a (.inr (ha ▸ e))

/-! ## The command in progress, on the port it acts on -/

/-- The invariants as the command in progress on the selected port sees them. -/
structure State.CommandInv (s : State) : Prop where
  onPort  : s.fg.port = s.here
  fgInv   : s.fg.Inv s.cfg s.ports.length
  portInv : s.port.Inv s.cfg s.fg.pc

theorem State.Inv.port (h : s.Inv) : s.port.Inv s.cfg (s.pcOf s.here) := h.portsInv _ _ s.ports_here

theorem State.Inv.commandInv (h : s.Inv) (hport : s.fg.port = s.here) : s.CommandInv := by
  refine ⟨hport, h.fgInv, ?_⟩
  have hinv := h.port
  rwa [State.pcOf, if_pos hport] at hinv

theorem State.Inv.of_reselects (h : s.Inv) (hu : s.Reselects u) : u.Inv := by
  have hwf := h.wf.of_reselects hu
  obtain ⟨hports, hcfg, hfg⟩ := hu
  refine ⟨hwf, ?_, fun j p hp => ?_⟩
  · rw [hfg, hcfg, hports]; exact h.fgInv
  · rw [State.pcOf, hfg, hcfg]; exact h.portsInv j p (hports ▸ hp)

/-- After a step that leaves the other ports alone, the ports are the old ones with the selected one replaced. -/
theorem State.SameAround.ports_eq_set (h : s.SameAround t) : t.ports = s.ports.set s.here t.port := by
  simp [State.ports, State.here, h.before, h.after]

/-- The invariants after a step: those of the selected port and of the foreground are new, the other ports see what they saw. -/
theorem State.Inv.of_sameAround (h : s.Inv) (hsame : s.SameAround t) (hwf : t.Wf) (hfg : t.fg.Inv s.cfg s.ports.length)
    (hport : t.port.Inv s.cfg (t.pcOf s.here)) (hothers : ∀ j, j ≠ s.here → t.pcOf j = s.pcOf j) : t.Inv := by
  refine ⟨hwf, ?_, fun j p hp => ?_⟩
  · rw [hsame.cfg, hsame.length_ports]; exact hfg
  · rw [hsame.cfg]
    rw [hsame.ports_eq_set, List.getElem?_set] at hp
    split at hp
    · rename_i hj
      split at hp
      · cases hp; exact hj ▸ hport
      · cases hp
    · rename_i hj
      rw [hothers j (Ne.symm hj)]
      exact h.portsInv j p hp

/-- A step that leaves the foreground alone and keeps the port's invariants at every control point. -/
theorem State.Inv.of_port (h : s.Inv) (hsame : s.SameAround t) (hfg : t.fg = s.fg) (hwf : t.Wf)
    (hport : ∀ pc, s.port.Inv s.cfg pc → t.port.Inv s.cfg pc) : t.Inv := by
  have hpc : ∀ j, t.pcOf j = s.pcOf j := fun j => by rw [State.pcOf, State.pcOf, hfg]
  exact h.of_sameAround hsame hwf (hfg ▸ h.fgInv) (hpc s.here ▸ hport _ h.port) fun j _ => hpc j

/-- A step of the command in progress on the selected port, or of one just issued there. -/
theorem State.Inv.of_command (h : s.Inv) (hsame : s.SameAround t) (hwf : t.Wf) (ht : t.CommandInv)
    (hs : s.fg.port = s.here ∨ s.fg.pc = .idle) : t.Inv := by
  have hhere : t.here = s.here := congrArg List.length hsame.before
  have honPort := hhere ▸ ht.onPort
  have hfg := ht.fgInv
  rw [hsame.cfg, hsame.length_ports] at hfg
  refine h.of_sameAround hsame hwf hfg ?_ fun j hj => ?_
  · rw [State.pcOf, if_pos honPort, ← hsame.cfg]; exact ht.portInv
  · rw [State.pcOf, if_neg (honPort ▸ Ne.symm hj)]
    rcases hs with hs | hs
    · rw [State.pcOf, if_neg (hs ▸ Ne.symm hj)]
    · rw [State.pcOf_of_idle hs]

/-! ## Steps of the foreground -/

/-- A command that returns with the selected port replaced. -/
theorem State.CommandInv.of_return (honPort : s.fg.port = s.here) (hfg : s.fg.Inv s.cfg s.ports.length)
    (hport : p.Inv s.cfg (s.fg.resumed s.cfg.bufCount v)) : (State.returnValue { s with port := p } v).CommandInv := by
  have hsame := State.SameAround.returnValue { s with port := p } v
  have hfg' : (State.returnValue { s with port := p } v).fg.Inv s.cfg s.ports.length :=
    State.returnValue_fgInv (s := { s with port := p }) hfg v
  refine ⟨?_, ?_, ?_⟩
  · rw [State.returnValue_fgPort, State.here, State.returnValue_before]; exact honPort
  · rw [State.returnValue_cfg, hsame.length_ports]; simpa using hfg'
  · rw [State.returnValue_port, State.returnValue_cfg, State.returnValue_pc]; exact hport

/-- A step that goes on to the next control point of its command, `Begin3`, `Write2` or `Write3`. -/
theorem State.CommandInv.of_goto (h : s.CommandInv) (hfits : Fg.retFits { s.fg with pc := pc })
    (hpc : pc.settled = false ∨ ∃ b, pc = .write2 b)
    (hport : p.Inv s.cfg pc) : (State.goto { s with port := p } pc).CommandInv where
  onPort := h.onPort
  fgInv := by
    have hlen : (State.goto { s with port := p } pc).ports.length = s.ports.length := by simp
    rw [hlen]
    refine ⟨h.fgInv.portOk, hfits, ?_, ?_⟩
    · rintro u2x div pat baud fmt rfl
      exact hpc.elim nofun nofun
    · rintro a (rfl | hret)
      · exact hpc.elim nofun nofun
      · exact h.fgInv.string a (.inr hret)
  portInv := hport

theorem manualDrain_commandInv (h : s.CommandInv) (hs : manualDrain s = .next t) : t.CommandInv := by
  rcases manualDrain_next hs with ⟨-, rfl⟩ | ⟨b, he, -, -, rfl⟩
  · exact h
  · exact ⟨h.onPort, by simpa using h.fgInv, h.portInv.drained he b⟩

theorem writeStep1_commandInv {b : Byte} (h : s.CommandInv) (hpc : s.fg.pc = .write1 b) (hs : writeStep1 b s = .next t) :
    t.CommandInv := by
  have hport := hpc ▸ h.portInv
  have hfits := h.fgInv.retFits
  rw [Fg.retFits, hpc] at hfits
  obtain ⟨hact, ⟨-, -, -, rfl⟩ | ⟨-, rfl⟩⟩ := writeStep1_next hs
  · obtain ⟨hset, hend⟩ := Fg.resumed_of_write hfits
    exact .of_return h.onPort h.fgInv ((hport.startBurst hact nofun b).at_settled rfl hset (fun _ => hact) fun e => (hend e).elim)
  · exact .of_goto h hfits (.inr ⟨b, rfl⟩) (hport.at_settled rfl rfl (fun _ => hact) nofun)

/-- A buffer a byte has been pushed into is not empty: it was not full. -/
theorem RingBuf.isEmpty_pushed {cap : Nat} {r : RingBuf} (b : Byte) (hf : r.isFull cap = false) :
    RingBuf.isEmpty { r with storage := Memory.write none r.storage r.head b, head := nextIndex cap r.head } = false :=
  RingBuf.isEmpty_false_iff.2 (RingBuf.isFull_false_iff.1 hf)

theorem writeStep2_commandInv {b : Byte} (h : s.CommandInv) (hpc : s.fg.pc = .write2 b) (hs : writeStep2 b s = .next t) :
    t.CommandInv := by
  have hport := hpc ▸ h.portInv
  have hfits := h.fgInv.retFits
  rw [Fg.retFits, hpc] at hfits
  rcases writeStep2_next hs with ⟨hf, rfl⟩ | ⟨-, -, -, hd⟩
  · exact .of_goto h hfits (.inl rfl) (hport.queued (RingBuf.isEmpty_pushed b hf))
  · exact manualDrain_commandInv h hd

theorem writeStep3_commandInv (h : s.CommandInv) (hpc : s.fg.pc = .write3) : (writeStep3 s).CommandInv := by
  have hport := hpc ▸ h.portInv
  have hfits := h.fgInv.retFits
  rw [Fg.retFits, hpc] at hfits
  obtain ⟨hset, hend⟩ := Fg.resumed_of_write hfits
  exact .of_return h.onPort h.fgInv (hport.armedBurst.at_settled rfl hset (fun _ => hport.writing rfl) fun e => (hend e).elim)

theorem flushStep_commandInv (h : s.CommandInv) (hpc : s.fg.pc = .flush1) (hs : flushStep s = .next t) : t.CommandInv := by
  have hport := hpc ▸ h.portInv
  have hfits := h.fgInv.retFits
  rw [Fg.retFits, hpc] at hfits
  obtain ⟨hset, hact⟩ := Fg.resumed_of_flush (form := s.cfg.bufCount) (v := .done) hfits
  rcases flushStep_next hs with ⟨htr, rfl⟩ | ⟨-, he, -, rfl⟩ | ⟨-, -, -, -, hd⟩
  · exact .of_return h.onPort h.fgInv (hport.at_settled rfl hset (fun e => nomatch hact.symm.trans e) fun _ => htr)
  · exact .of_return h.onPort h.fgInv ((hport.burstEnded he).at_settled rfl hset (fun e => nomatch hact.symm.trans e) fun _ => rfl)
  · exact manualDrain_commandInv h hd

theorem beginStep2_commandInv {u2x : Bool} {div baud : Nat} {pat : Byte} {fmt : FrameFormat} (h : s.CommandInv)
    (hpc : s.fg.pc = .begin2 u2x div pat baud fmt) : (beginStep2 u2x div pat baud fmt s).CommandInv := by
  have hport := hpc ▸ h.portInv
  have hfits := h.fgInv.retFits
  rw [Fg.retFits, hpc] at hfits
  obtain ⟨hdiv, hpat⟩ := h.fgInv.begins _ _ _ _ _ hpc
  exact .of_goto h hfits (.inl rfl) (hport.programmed hdiv hpat)

theorem beginStep3_commandInv (h : s.CommandInv) (hpc : s.fg.pc = .begin3) : (beginStep3 s).CommandInv := by
  have hport := hpc ▸ h.portInv
  have hret := h.fgInv.retFits
  rw [Fg.retFits, hpc] at hret
  refine .of_return h.onPort h.fgInv ?_
  rw [Fg.resumed_of_ret_none hret]
  exact hport.begun

theorem endStep2_commandInv (h : s.CommandInv) (hpc : s.fg.pc = .end2) : (endStep2 s).CommandInv := by
  have hport := hpc ▸ h.portInv
  have hret := h.fgInv.retFits
  rw [Fg.retFits, hpc] at hret
  refine .of_return h.onPort h.fgInv ?_
  rw [Fg.resumed_of_ret_none hret]
  exact hport.disabled

/-- An outer command calls `WRITE` on an active port, with itself in the return slot. -/
theorem State.CommandInv.of_call {ret : Pc} {b : Byte} (honPort : s.fg.port = s.here) (hlt : s.fg.port < s.ports.length)
    (hret : (∃ bs k, ret = .buf bs k) ∨ ∃ a, ret = .pgm a ∧ pgmTerminated s.cfg a = true)
    (hport : s.port.Inv s.cfg .idle) (hact : s.port.active = true) : (s.call ret (.write1 b)).CommandInv where
  onPort := honPort
  fgInv := by
    have hlen : (s.call ret (.write1 b)).ports.length = s.ports.length := by simp
    rw [hlen]
    refine ⟨hlt, .inr ?_, nofun, ?_⟩
    · rcases hret with ⟨bs, k, rfl⟩ | ⟨a, rfl, -⟩
      · exact .inl ⟨bs, k, rfl⟩
      · exact .inr ⟨a, rfl⟩
    · rintro a (hpc | ha)
      · cases hpc
      · cases ha
        obtain ⟨bs, k, e⟩ | ⟨a, e, ht⟩ := hret <;> cases e
        exact ht
  portInv := hport.at_settled rfl rfl (fun _ => hact) nofun

/-- `WRITEBUF` at `Buf(bs, n)`: with a byte left the port is active. -/
theorem bufStep_commandInv {bs : List Byte} {k : Nat} (honPort : s.fg.port = s.here) (hfg : s.fg.Inv s.cfg s.ports.length)
    (hret : s.fg.ret = none) (hport : s.port.Inv s.cfg .idle) (hact : s.port.active = true ∨ bs = []) :
    (bufStep bs k s).CommandInv := by
  rcases bufStep_cases bs k s with ⟨-, e⟩ | ⟨b, rest, hbs, e⟩ <;> rw [e]
  · exact .of_return honPort hfg ((Fg.resumed_of_ret_none hret).symm ▸ hport)
  · have hact' : s.port.active = true := hact.resolve_right fun e => by rw [hbs] at e; cases e
    exact .of_call honPort hfg.portOk (.inl ⟨_, _, rfl⟩) hport hact'

/-! ### Program space (R131) -/

/-- The search for the end of a string goes on past a byte that is not zero. -/
theorem pgmEnd_succ {m : Memory} {lo a : Nat} {b : Byte} (hm : Memory.wfFrom (some 0) lo m = true)
    (hr : Memory.read (some 0) m a = some b) (hb : b ≠ 0) : pgmEnd m (a + 1) = pgmEnd m a := by
  induction m generalizing lo with
  | nil => exact (hb (Option.some.inj hr).symm).elim
  | cons e m ih =>
    obtain ⟨k, v⟩ := e
    simp only [Memory.wfFrom, Bool.and_eq_true, decide_eq_true_eq] at hm
    obtain ⟨-, hrest⟩ := hm
    rw [Memory.read] at hr
    rcases Nat.lt_trichotomy k a with hlt | rfl | hgt
    · rw [if_neg (by omega)] at hr
      rw [pgmEnd, pgmEnd, if_pos hlt, if_pos (by omega)]
      exact ih hrest hr
    · rw [if_pos rfl] at hr
      cases hr
      rw [pgmEnd, pgmEnd, if_pos (by omega), if_neg (by omega), if_pos ⟨rfl, hb⟩]
    · rw [if_neg (by omega), Memory.read_of_wfFrom hrest (by omega)] at hr
      exact (hb (Option.some.inj hr).symm).elim

/-- A terminated string is terminated after its first byte, if that is not its end. -/
theorem pgmTerminated_succ {a : Nat} {b : Byte} (hc : c.wf = true) (ht : pgmTerminated c a = true) (hb : pgmByte c a = some b)
    (hb0 : b ≠ 0) : pgmTerminated c (a + 1) = true := by
  have hm : Memory.wf (some 0) c.pgm = true := by
    simp only [Cfg.wf, Bool.and_eq_true] at hc
    exact hc.1.2
  unfold pgmByte at hb
  split at hb
  · rwa [pgmTerminated, pgmEnd_succ hm hb hb0]
  · cases hb

/-- `PRINTPGM` at `Pgm(a)`: before the null byte the port is active. -/
theorem pgmStep_commandInv {a : Nat} (hc : s.cfg.wf = true) (honPort : s.fg.port = s.here) (hfg : s.fg.Inv s.cfg s.ports.length)
    (hpc : s.fg.pc = .pgm a) (hret : s.fg.ret = none) (hport : s.port.Inv s.cfg .idle)
    (hact : s.port.active = true ∨ pgmByte s.cfg a = some 0) (hs : pgmStep a s = .next t) : t.CommandInv := by
  rcases pgmStep_next hs with ⟨-, rfl⟩ | ⟨b, hb, hb0, rfl⟩
  · exact .of_return honPort hfg ((Fg.resumed_of_ret_none hret).symm ▸ hport)
  · have hact' : s.port.active = true := hact.resolve_right fun e => hb0 (Option.some.inj (hb.symm.trans e))
    exact .of_call honPort hfg.portOk (.inr ⟨_, rfl, pgmTerminated_succ hc (hfg.string a (.inl hpc)) hb hb0⟩) hport hact'

/-- A foreground step keeps the invariants of its command and of the port it acts on. -/
theorem foregroundStep_commandInv (hc : s.cfg.wf = true) (h : s.CommandInv) (hs : foregroundStep s = .next t) : t.CommandInv := by
  have hport := h.portInv
  have hfits := h.fgInv.retFits
  unfold foregroundStep at hs
  cases hpc : s.fg.pc <;> rw [hpc] at hs hport <;> rw [Fg.retFits, hpc] at hfits
  case idle => cases hs
  case begin2 => cases hs; exact beginStep2_commandInv h hpc
  case begin3 => cases hs; exact beginStep3_commandInv h hpc
  case write1 => exact writeStep1_commandInv h hpc hs
  case write2 => exact writeStep2_commandInv h hpc hs
  case write3 => cases hs; exact writeStep3_commandInv h hpc
  case flush1 => exact flushStep_commandInv h hpc hs
  case end2 => cases hs; exact endStep2_commandInv h hpc
  case buf =>
    cases hs
    exact bufStep_commandInv h.onPort h.fgInv hfits (hport.at_settled rfl rfl nofun nofun) (.inl (hport.writing rfl))
  case pgm =>
    exact pgmStep_commandInv hc h.onPort h.fgInv hpc hfits (hport.at_settled rfl rfl nofun nofun) (.inl (hport.writing rfl)) hs

theorem foregroundStep_inv (h : s.Inv) (hport : s.fg.port = s.here) (hs : foregroundStep s = .next t) : t.Inv :=
  h.of_command (foregroundStep_sameAround hs) (foregroundStep_wf h.wf hs)
    (foregroundStep_commandInv h.wf.cfgWf (h.commandInv hport) hs) (.inl hport)

/-! ## Operations -/

/-- A command issued on the selected port of an idle machine: what its first control point asks of the foreground. -/
theorem State.Inv.issue_fgInv (h : s.Inv) (hidle : s.fg.pc = .idle)
    (hbegin : ∀ u2x div pat baud fmt, pc = .begin2 u2x div pat baud fmt → lcDivisor s.cfg baud = .ok (u2x, div) ∧ pat = encodeFrame fmt)
    (hstring : ∀ a, pc = .pgm a → pgmTerminated s.cfg a = true) : (s.issue pc).fg.Inv s.cfg s.ports.length := by
  have hret := h.fgInv.ret_of_idle hidle
  have hhere : s.here < s.ports.length := by simp only [State.here, State.length_ports]; omega
  refine ⟨hhere, Fg.retFits_of_ret_none hret, hbegin, fun a ha => hstring a (ha.resolve_right fun e => ?_)⟩
  rw [State.issue_ret, hret] at e; cases e

/-- On an idle machine every port sees `Idle`. -/
theorem State.Inv.port_of_idle (h : s.Inv) (hidle : s.fg.pc = .idle) : s.port.Inv s.cfg .idle :=
  State.pcOf_of_idle hidle s.here ▸ h.port

/-- A command issued at a settled control point: what that point asks of the port. -/
theorem State.Inv.issue_commandInv (h : s.Inv) (hidle : s.fg.pc = .idle) (hset : pc.settled = true) (hend : pc ≠ .end2)
    (hact : pc.needsActive = true → s.port.active = true) (hfg : (s.issue pc).fg.Inv s.cfg s.ports.length) :
    (s.issue pc).CommandInv :=
  ⟨rfl, by simpa using hfg, (h.port_of_idle hidle).at_settled rfl hset hact fun e => (hend e).elim⟩

/-- What a command that was issued keeps, the whole machine has. -/
theorem State.Inv.of_issued {i : Instr} (h : s.Inv) (hidle : s.fg.pc = .idle) (hsame : (s.issue pc).SameAround t)
    (hs : exec i s = .next t) (ht : t.CommandInv) : t.Inv :=
  h.of_command (.trans (.issue s pc) hsame) (exec_wf h.wf hs) ht (.inr hidle)

/-- An operation that gives its result to its caller changes nothing else. -/
theorem State.Inv.give (h : s.Inv) (v : Result) : (s.give v).Inv := h.of_reselects ⟨rfl, rfl, rfl⟩

/-- A one-step command that returns, having changed the receive buffer at most. -/
theorem State.Inv.returned (h : s.Inv) (hidle : s.fg.pc = .idle) (rx : RingBuf) (v : Result)
    (hwf : (State.returnValue { s with port := { s.port with rx := rx } } v).Wf) :
    (State.returnValue { s with port := { s.port with rx := rx } } v).Inv := by
  refine h.of_port (.withPort_returnValue s v rfl) ?_ hwf fun pc hpc => ?_
  · rw [State.returnValue, h.fgInv.ret_of_idle hidle, ← hidle]
  · rw [State.returnValue_port]; exact hpc.of_receive ..

theorem execBegin_inv {baud : Nat} {fmt : FrameFormat} (h : s.Inv) (hs : exec (.beginCmd baud fmt) s = .next t) : t.Inv := by
  obtain ⟨hidle, e⟩ := State.whenIdle_next hs
  cases e
  rcases beginStep1_cases baud fmt s with ⟨r, -, e⟩ | ⟨u2x, div, hdiv, e⟩ <;> rw [e] at hs ⊢
  · exact h.returned hidle s.port.rx _ (exec_wf h.wf hs)
  · refine h.of_issued hidle (.refl _) hs (h.issue_commandInv hidle rfl nofun nofun (h.issue_fgInv hidle ?_ nofun))
    intro _ _ _ _ _ hpc
    cases hpc
    exact ⟨hdiv, rfl⟩

/-- `END` calls `FLUSH`, with `End2` in the return slot. -/
theorem execEnd_inv (h : s.Inv) (hs : exec .endCmd s = .next t) : t.Inv := by
  obtain ⟨hidle, e⟩ := State.whenIdle_next hs
  cases e
  have hissued := h.issue_commandInv (pc := .flush1) hidle rfl nofun nofun (h.issue_fgInv hidle nofun nofun)
  refine h.of_issued hidle (.call _ _ _) hs ⟨rfl, ?_, hissued.portInv⟩
  have hlen : (State.call (s.issue .flush1) .end2 .flush1).ports.length = (s.issue .flush1).ports.length := by simp
  rw [hlen]
  exact ⟨hissued.fgInv.portOk, .inr rfl, nofun, fun a ha => ha.elim nofun nofun⟩

theorem execWrite_inv {b : Byte} (h : s.Inv) (hs : exec (.write b) s = .next t) : t.Inv := by
  obtain ⟨hidle, hw⟩ := execWrite_next hs
  obtain ⟨hact, -⟩ := writeStep1_next hw
  have hissued := h.issue_commandInv (pc := .write1 b) hidle rfl nofun (fun _ => hact) (h.issue_fgInv hidle nofun nofun)
  exact h.of_issued hidle (writeStep1_sameAround hw) hs (writeStep1_commandInv hissued rfl hw)

theorem execWritebuf_inv {bs : List Byte} (h : s.Inv) (hs : exec (.writebuf bs) s = .next t) : t.Inv := by
  obtain ⟨hidle, hact, rfl⟩ := execWritebuf_next hs
  have hfg := h.issue_fgInv (pc := .buf bs 0) hidle nofun nofun
  exact h.of_issued hidle (bufStep_sameAround _ _ _) hs (bufStep_commandInv (s := s.issue (.buf bs 0)) rfl (by simpa using hfg)
    (h.fgInv.ret_of_idle hidle) (h.port_of_idle hidle) hact)

theorem execFlush_inv (h : s.Inv) (hs : exec .flush s = .next t) : t.Inv := by
  obtain ⟨hidle, hf⟩ := execFlush_next hs
  have hissued := h.issue_commandInv (pc := .flush1) hidle rfl nofun nofun (h.issue_fgInv hidle nofun nofun)
  rcases hf with hf | ⟨-, rfl⟩
  · exact h.of_issued hidle (flushStep_sameAround hf) hs (flushStep_commandInv hissued rfl hf)
  · exact h.of_issued hidle (.refl _) hs hissued

theorem execPrintpgm_inv {a : Nat} (h : s.Inv) (hs : exec (.printpgm a) s = .next t) : t.Inv := by
  obtain ⟨hidle, hterm, hact, hp⟩ := execPrintpgm_next hs
  have hfg := h.issue_fgInv (pc := .pgm a) hidle nofun fun a' e => by cases e; exact hterm
  exact h.of_issued hidle (pgmStep_sameAround hp) hs (pgmStep_commandInv (s := s.issue (.pgm a)) h.wf.cfgWf rfl (by simpa using hfg) rfl
    (h.fgInv.ret_of_idle hidle) (h.port_of_idle hidle) hact hp)

theorem exec_inv {i : Instr} (h : s.Inv) (hduty : i.bareBufferWrite = false) (hs : exec i s = .next t) : t.Inv := by
  have hwf := exec_wf h.wf hs
  cases i with
  | beginCmd baud fmt => exact execBegin_inv h hs
  | endCmd => exact execEnd_inv h hs
  | write b => exact execWrite_inv h hs
  | writebuf bs => exact execWritebuf_inv h hs
  | flush => exact execFlush_inv h hs
  | printpgm a => exact execPrintpgm_inv h hs
  | rbPush q b => cases hduty
  | rbPop q => cases hduty
  | rbClear q form => cases hduty
  | available => obtain ⟨hidle, e⟩ := State.whenIdle_next hs; cases e; exact h.returned hidle s.port.rx _ hwf
  | ready => obtain ⟨hidle, e⟩ := State.whenIdle_next hs; cases e; exact h.returned hidle s.port.rx _ hwf
  | peek => obtain ⟨hidle, v, -, rfl⟩ := execPeek_next hs; exact h.returned hidle s.port.rx _ hwf
  | read => obtain ⟨hidle, v, r, -, rfl⟩ := execRead_next hs; exact h.returned hidle r _ hwf
  | rbPeek q => obtain ⟨v, -, rfl⟩ := execRbPeek_next hs; exact h.give _
  | rbAvailable q => cases hs; exact h.give _
  | rbIsfull q => cases hs; exact h.give _
  | rbIsempty q => cases hs; exact h.give _
  | lcDivisor baud => obtain ⟨v, rfl⟩ := execLcDivisor_next hs; exact h.give v
  | lcFrame fmt => cases hs; exact h.give _
  | gieSet => obtain ⟨-, e⟩ := State.whenIdle_next hs; cases e; exact h.of_reselects ⟨rfl, rfl, rfl⟩
  | gieClr => obtain ⟨-, e⟩ := State.whenIdle_next hs; cases e; exact h.of_reselects ⟨rfl, rfl, rfl⟩
  | isrRx =>
    obtain ⟨-, rfl⟩ := execIsrRx_next hs
    exact h.of_port (.withPort s (s.port.isrRx_io s.cfg)) rfl hwf fun _ hpc => hpc.isrRx
  | isrTx =>
    obtain ⟨-, ⟨he, rfl⟩ | ⟨b, he, -, -, rfl⟩⟩ := execIsrTx_next hs
    · exact h.of_port (.withPort s rfl) rfl hwf fun _ hpc => hpc.disarmed he
    · exact h.of_port (.withPort s rfl) rfl hwf fun _ hpc => hpc.drained he b
  | hwTxload =>
    obtain ⟨-, hdre, -, fmt, -, rfl⟩ := execHwTxload_next hs
    exact h.of_port (.withPort s rfl) rfl hwf fun _ hpc => hpc.txloaded hdre _
  | hwTxdone =>
    obtain ⟨g, htsr, rfl⟩ := execHwTxdone_next hs
    exact h.of_port (.withPort s rfl) rfl hwf fun _ hpc => hpc.txdone htsr
  | hwRxarrive g =>
    cases execHwRxarrive_next hs
    exact h.of_port (.withPort s (s.port.rxarrive_io g)) rfl hwf fun _ hpc => hpc.rxarrive g

/-- Settles O55: the command in progress keeps what its control point and its port need; handlers, engines and the other operations leave the
foreground alone. -/
theorem everyStepKeepsInvariant : Obligations.EveryStepKeepsInvariant := by
  intro s t h hduty hs
  have htakes := step_takes s
  rw [hs] at htakes
  generalize ho : Host.Outcome.next t = o at htakes
  cases htakes with
  | operation hu hbare => exact exec_inv (h.of_reselects hu) (hbare hduty) ho.symm
  | foreground hu hport => exact foregroundStep_inv (h.of_reselects hu) hport ho.symm
  | noneYet hu => cases ho; exact h.of_reselects hu
  | ended => cases ho
  | refused => cases ho

end Sys2Proof.Machine
end

section
/-! PROOF. The faults left under the invariants (spec/10_state.md R39): no operation and no foreground step faults, and a command in progress always has
some step enabled (R61, R117, R120), so that what is left is the end of the run. -/

namespace Sys2Proof.Machine

variable {s t u : State} {c : Cfg} {p : Port} {pc : Pc} {f : Fault}

/-! ## Operations and foreground steps -/

theorem RingBuf.peek_ne_error {cap : Nat} {r : RingBuf} (h : r.wf cap = true) : r.peek ≠ .error f := by
  intro hp
  obtain ⟨-, he, hr⟩ := RingBuf.peek_error hp
  obtain ⟨b, hb⟩ := RingBuf.read_tail_of_wf h he
  rw [hb] at hr; cases hr

theorem RingBuf.pop_ne_error {cap : Nat} {r : RingBuf} (h : r.wf cap = true) : r.pop cap ≠ .error f := by
  obtain ⟨v, r', hp, -⟩ := RingBuf.wf_pop h
  rw [hp]; nofun

/-- A manual drain is made with `DRE = 1`, and finds the slot at `tail` written. -/
theorem manualDrain_ne_fault (hwf : s.port.Wf s.cfg) (hdre : s.port.dre = true) : manualDrain s ≠ .fault f := by
  intro h
  unfold manualDrain at h
  split at h <;> cases h
  obtain ⟨he, hr | hd⟩ := Port.drainOne_error ‹_›
  · obtain ⟨b, hb⟩ := RingBuf.read_tail_of_wf hwf.txWf he
    rw [hb] at hr; cases hr
  · rw [hdre] at hd; cases hd

/-- The fast path writes `DATA` only with `DRE = 1`. -/
theorem writeStep1_ne_fault {b : Byte} : writeStep1 b s ≠ .fault f := by
  intro h
  unfold writeStep1 at h
  split at h
  · cases h
  · split at h
    · rename_i hfast
      simp only [Bool.and_eq_true] at hfast
      simp [Port.writeData, hfast.1.2] at h
    · cases h

theorem writeStep2_ne_fault {b : Byte} (hwf : s.port.Wf s.cfg) : writeStep2 b s ≠ .fault f := by
  intro h
  unfold writeStep2 at h
  split at h
  · cases h
  · split at h
    · rename_i hg
      simp only [Bool.and_eq_true] at hg
      exact manualDrain_ne_fault hwf hg.2 h
    · cases h

theorem flushStep_ne_fault (hwf : s.port.Wf s.cfg) : flushStep s ≠ .fault f := by
  intro h
  unfold flushStep at h
  split at h
  · cases h
  · split at h
    · cases h
    · split at h
      · rename_i hg
        simp only [Bool.and_eq_true] at hg
        exact manualDrain_ne_fault hwf hg.1.2 h
      · cases h

theorem foregroundStep_ne_fault (hwf : s.port.Wf s.cfg) : foregroundStep s ≠ .fault f := by
  intro h
  unfold foregroundStep at h
  cases hpc : s.fg.pc <;> rw [hpc] at h
  case write1 => exact writeStep1_ne_fault h
  case write2 => exact writeStep2_ne_fault hwf h
  case flush1 => exact flushStep_ne_fault hwf h
  case pgm => exact pgmStep_ne_fault h
  case idle | begin2 | begin3 | write3 | end2 | buf => cases h

/-- The pattern of a format names it (R77): one case for each of the 24 formats of R78. -/
theorem decodeFrame_encodeFrame (fmt : FrameFormat) : decodeFrame (encodeFrame fmt) = some fmt := by
  obtain ⟨size, parity, stop⟩ := fmt
  cases size <;> cases parity <;> cases stop <;> rfl

/-- `FRAME` holds a legal pattern once the transmitter is enabled: `BEGIN` has written it (R32). -/
theorem Port.Inv.decodeFrame_isSome (h : p.Inv c pc) (htxen : p.txen = true) : ∃ fmt, decodeFrame p.frame = some fmt := by
  have hconf := h.configured
  unfold Port.configured at hconf
  cases hline : p.line with
  | none =>
    rw [hline] at hconf
    rw [htxen] at hconf
    cases hconf.2
  | some l =>
    rw [hline] at hconf
    refine ⟨l.frameFormat, ?_⟩
    rw [hconf.2]
    exact decodeFrame_encodeFrame _

theorem execHwTxload_ne_fault (h : s.port.Inv s.cfg pc) : execHwTxload s ≠ .fault f := by
  intro hf
  unfold execHwTxload State.engineStep at hf
  split at hf
  · rename_i hg
    obtain ⟨htxen, -, -⟩ := Port.txloadGuard_iff.1 hg
    obtain ⟨fmt, hfmt⟩ := h.decodeFrame_isSome htxen
    simp [Port.txload, hfmt, State.withPort] at hf
  · cases hf

theorem execIsrTx_ne_fault (hwf : s.port.Wf s.cfg) : execIsrTx s ≠ .fault f := by
  intro h
  obtain ⟨he, hr⟩ := execIsrTx_fault h
  obtain ⟨b, hb⟩ := RingBuf.read_tail_of_wf hwf.txWf he
  rw [hb] at hr; cases hr

theorem exec_ne_fault {i : Instr} (hwf : s.port.Wf s.cfg) (hinv : s.port.Inv s.cfg pc) : exec i s ≠ .fault f := by
  intro h
  cases i with
  | beginCmd baud fmt => cases (State.whenIdle_fault h).2
  | endCmd => cases (State.whenIdle_fault h).2
  | available => cases (State.whenIdle_fault h).2
  | ready => cases (State.whenIdle_fault h).2
  | gieSet => cases (State.whenIdle_fault h).2
  | gieClr => cases (State.whenIdle_fault h).2
  | peek =>
    obtain ⟨-, hk⟩ := State.whenIdle_fault h
    split at hk <;> cases hk
    exact RingBuf.peek_ne_error hwf.rxWf ‹_›
  | read =>
    obtain ⟨-, hk⟩ := State.whenIdle_fault h
    split at hk <;> cases hk
    exact RingBuf.pop_ne_error hwf.rxWf ‹_›
  | write b => exact writeStep1_ne_fault (State.whenIdle_fault h).2
  | writebuf bs => exact execWritebuf_ne_fault h
  | flush =>
    obtain ⟨-, hk⟩ := State.whenIdle_fault h
    split at hk
    · cases hk
    · exact flushStep_ne_fault (s := s.issue .flush1) hwf hk
  | printpgm a => exact execPrintpgm_ne_fault h
  | rbPush q b => cases h
  | rbPop q =>
    change execRbPop q s = _ at h
    unfold execRbPop at h
    split at h <;> cases h
    exact RingBuf.pop_ne_error (hwf.queue q) ‹_›
  | rbPeek q =>
    change execRbPeek q s = _ at h
    unfold execRbPeek at h
    split at h <;> cases h
    exact RingBuf.peek_ne_error (hwf.queue q) ‹_›
  | rbAvailable q => cases h
  | rbIsfull q => cases h
  | rbIsempty q => cases h
  | rbClear q form => cases h
  | lcDivisor baud => exact execLcDivisor_ne_fault h
  | lcFrame fmt => cases h
  | isrRx => exact execIsrRx_ne_fault h
  | isrTx => exact execIsrTx_ne_fault hwf h
  | hwTxload => exact execHwTxload_ne_fault hinv h
  | hwTxdone => cases State.engineStep_fault h
  | hwRxarrive g => cases h

/-! ## Held commands -/

/-- On an active port whose handlers and transmitter have no step, `TSR` and `TDR` are empty, and with interrupts enabled so is the
buffer (R37(b)). -/
theorem Port.Inv.sent_of_guards_false {order : IsrOrder} {gie : Bool} (h : p.Inv c pc) (hset : pc.settled = true)
    (hact : p.active = true) (hrx : p.rxGrant order gie = false) (htx : p.txGrant order gie = false)
    (hload : p.txloadGuard = false) (hdone : p.txdoneGuard = false) :
    p.tsr = .idle ∧ p.dre = true ∧ (gie = true → p.tx.isEmpty = true) := by
  obtain ⟨htsr, hdre⟩ := h.transmitter_idle hload hdone
  refine ⟨htsr, hdre hact, ?_⟩
  rintro rfl
  obtain ⟨hw, hb⟩ := Pc.ne_of_settled hset
  obtain ⟨-, htxReq⟩ := Port.requests_false_of_grants_false hrx htx
  by_contra hne
  have harmed := h.armed (Bool.eq_false_iff.2 hne) hw hb
  simp [Port.txRequest, harmed, hdre hact] at htxReq

/-- A `WRITE` is held only where some step of a handler or of the transmitter is enabled. -/
theorem foregroundReady_of_write2 {b : Byte} (hcap : 2 ≤ s.cfg.txCap) (hwf : s.port.tx.wf s.cfg.txCap = true) (hpc : s.fg.pc = .write2 b)
    (hdre : s.port.dre = true) (hsent : s.gie = true → s.port.tx.isEmpty = true) : foregroundReady s = true := by
  rw [foregroundReady, hpc]
  cases hf : s.port.tx.isFull s.cfg.txCap
  · rfl
  · have hne := RingBuf.isEmpty_of_isFull hcap hwf hf
    cases hgie : s.gie
    · simp [hdre]
    · rw [hsent hgie] at hne; cases hne

/-- A `FLUSH` is held only where some step of a handler or of the transmitter is enabled. -/
theorem foregroundReady_of_flush1 (hinv : s.port.Inv s.cfg .flush1) (hpc : s.fg.pc = .flush1) (htr : s.port.transmitting = true)
    (htsr : s.port.tsr = .idle) (hdre : s.port.dre = true) (hsent : s.gie = true → s.port.tx.isEmpty = true) :
    foregroundReady s = true := by
  rw [foregroundReady, hpc]
  cases he : s.port.tx.isEmpty
  · cases hgie : s.gie
    · simp [hdre]
    · rw [hsent hgie] at he; cases he
  · have howed := hinv.owed (.inl htr)
    have htxc : s.port.txc = true := by simpa [he, hdre, htsr] using howed
    simp [htxc]

/-- Where no move is enabled, the foreground is not ready on the port of its command. -/
theorem foregroundReady_false_of_enabledMoves_nil (hm : enabledMoves s = []) (hu : s.select s.fg.port = some u) :
    foregroundReady u = false := by
  have hmem : Move.foreground ∈ allMoves s := List.mem_append_right _ List.mem_cons_self
  have hdis := List.filter_eq_nil_iff.1 hm _ hmem
  simpa [moveEnabled, moveSelect, hu, moveGuard] using hdis

/-- A command in progress whose port's handlers and transmitter have no step can go on. -/
theorem State.CommandInv.foregroundReady (h : s.CommandInv) (hwf : s.Wf) (hpc : s.fg.pc ≠ .idle)
    (hrx : s.port.rxGrant s.cfg.isrOrder s.gie = false) (htx : s.port.txGrant s.cfg.isrOrder s.gie = false)
    (hload : s.port.txloadGuard = false) (hdone : s.port.txdoneGuard = false) : foregroundReady s = true := by
  have hport := h.portInv
  cases e : s.fg.pc <;> rw [e] at hport
  case idle => exact (hpc e).elim
  case write2 =>
    obtain ⟨-, hdre, hsent⟩ := hport.sent_of_guards_false rfl (hport.writing rfl) hrx htx hload hdone
    exact foregroundReady_of_write2 (Cfg.two_le_txCap hwf.cfgWf) hwf.port.txWf e hdre hsent
  case flush1 =>
    cases htr : s.port.transmitting
    · simp [Machine.foregroundReady, e, htr]
    · obtain ⟨htsr, hdre, hsent⟩ := hport.sent_of_guards_false rfl (hport.burst htr) hrx htx hload hdone
      exact foregroundReady_of_flush1 hport e htr htsr hdre hsent
  case begin2 | begin3 | write1 | write3 | end2 | buf | pgm => simp [Machine.foregroundReady, e]

/-- A command in progress always has some step enabled: its own, or one that lifts its hold. -/
theorem State.Inv.enabledMoves_ne_nil (h : s.Inv) (hpc : s.fg.pc ≠ .idle) : enabledMoves s ≠ [] := by
  intro hm
  obtain ⟨u, hu⟩ := State.select_isSome h.fgInv.portOk
  obtain ⟨-, hhere, hget, hcfg, hgie, hfg, -⟩ := State.select_eq_some hu
  have huInv := h.of_reselects (.of_select hu)
  have hcmd := huInv.commandInv ((congrArg Fg.port hfg).trans hhere.symm)
  obtain ⟨hrx, htx, hload, hdone⟩ := portGuards_false_of_enabledMoves_nil hm hget
  rw [← hcfg, ← hgie] at hrx htx
  have hready := hcmd.foregroundReady huInv.wf (hfg ▸ hpc) hrx htx hload hdone
  rw [foregroundReady_false_of_enabledMoves_nil hm hu] at hready
  cases hready

/-- Settles O56: operations and foreground steps do not fault, and with nothing enabled no command is in progress. -/
theorem onlyTheEndOfTheRunFaults : Obligations.OnlyTheEndOfTheRunFaults := by
  intro s f h hs
  have htakes := step_takes s
  rw [hs] at htakes
  generalize ho : Host.Outcome.fault f = o at htakes
  cases htakes with
  | operation hu =>
    have huInv := h.of_reselects hu
    exact (exec_ne_fault huInv.wf.port huInv.port ho.symm).elim
  | foreground hu => exact (foregroundStep_ne_fault (h.of_reselects hu).wf.port ho.symm).elim
  | noneYet hu => cases ho
  | ended hturns hmoves =>
    by_cases hpc : s.fg.pc = .idle
    · rw [if_pos hpc] at ho
      cases ho
      exact ⟨rfl, hturns, hpc⟩
    · exact (h.enabledMoves_ne_nil hpc hmoves).elim
  | refused => cases ho

end Sys2Proof.Machine
end

section
/-! PROOF. What stands in an empty data register (spec/10_state.md R17, R19): no operation and no foreground step reads `TDR` while `DRE = 1` or `RDR` while
`RXC = 0`, so each of them commutes with refilling the empty ones. -/

namespace Sys2Proof.Machine

variable {s t : State} {p : Port} {x y : Byte}

/-! ## Refilling the empty data registers -/

/-- The port with `x` in `TDR` and `y` in `RDR`, wherever that register is empty. -/
def Port.refill (x y : Byte) (p : Port) : Port :=
  { p with tdr := if p.dre then x else p.tdr, rdr := if p.rxc then p.rdr else y }

def State.refill (x y : Byte) (s : State) : State := { s with port := s.port.refill x y }

/-- The next state refilled. -/
def Step.refill (x y : Byte) : Step → Step
  | .next t => .next (t.refill x y)
  | .fault f => .fault f
  | .refused r => .refused r

/-- The bytes differ from what stands in the registers only where those are empty. -/
structure Port.Blank (x y : Byte) (p : Port) : Prop where
  tdr : p.dre = false → x = p.tdr
  rdr : p.rxc = true → y = p.rdr

/-- A meaning that commutes with refilling the empty data registers. -/
def BlindToEmptyData (F : State → Step) : Prop :=
  ∀ (s : State) (x y : Byte), s.port.Blank x y → F (s.refill x y) = Step.refill x y (F s)

theorem State.refill_self (s : State) : s.refill s.port.tdr s.port.rdr = s := by
  simp [State.refill, Port.refill]

theorem State.refill_eq {a b : Byte} (ha : (if s.port.dre then x else s.port.tdr) = a) (hb : (if s.port.rxc then s.port.rdr else y) = b) :
    s.refill x y = { s with port := { s.port with tdr := a, rdr := b } } := by
  rw [State.refill, Port.refill, ha, hb]

/-- What such a meaning leaves in an empty register stood there before. -/
theorem BlindToEmptyData.next_refill {F : State → Step} (hF : BlindToEmptyData F) (h : F s = .next t) :
    t.refill s.port.tdr s.port.rdr = t := by
  have hcomm := hF s s.port.tdr s.port.rdr ⟨fun _ => rfl, fun _ => rfl⟩
  rw [State.refill_self, h] at hcomm
  exact (Host.Outcome.next.inj hcomm).symm

theorem BlindToEmptyData.tdr {F : State → Step} (hF : BlindToEmptyData F) (hdre : s.port.dre = true) (v : Byte) :
    sameUpTo (·.withTdr v) (·.port.dre) (F s) (F (s.withTdr v)) := by
  have hs : s.withTdr v = s.refill v s.port.rdr := by simp [State.withTdr, State.refill, Port.refill, hdre]
  have hcomm := hF s v s.port.rdr ⟨fun h => (Bool.eq_false_iff.1 h hdre).elim, fun _ => rfl⟩
  rw [hs, hcomm]
  cases ho : F s with
  | next t =>
    have hrdr : (if t.port.rxc then t.port.rdr else s.port.rdr) = t.port.rdr := congrArg (·.port.rdr) (hF.next_refill ho)
    refine congrArg Host.Outcome.next ?_
    dsimp only
    split
    · exact State.refill_eq (if_pos ‹_›) hrdr
    · exact State.refill_eq (if_neg ‹_›) hrdr
  | fault f => rfl
  | refused r => rfl

theorem BlindToEmptyData.rdr {F : State → Step} (hF : BlindToEmptyData F) (hrxc : s.port.rxc = false) (v : Byte) :
    sameUpTo (·.withRdr v) (fun t => !t.port.rxc) (F s) (F (s.withRdr v)) := by
  have hs : s.withRdr v = s.refill s.port.tdr v := by simp [State.withRdr, State.refill, Port.refill, hrxc]
  have hcomm := hF s s.port.tdr v ⟨fun _ => rfl, fun h => (Bool.eq_false_iff.1 hrxc h).elim⟩
  rw [hs, hcomm]
  cases ho : F s with
  | next t =>
    have htdr : (if t.port.dre then s.port.tdr else t.port.tdr) = t.port.tdr := congrArg (·.port.tdr) (hF.next_refill ho)
    refine congrArg Host.Outcome.next ?_
    dsimp only
    split
    · rename_i hr
      exact State.refill_eq htdr (if_neg (by simpa using hr))
    · rename_i hr
      exact State.refill_eq htdr (if_pos (by simpa using hr))
  | fault f => rfl
  | refused r => rfl

/-! ## The shared operations -/

theorem State.returnValue_refill (s : State) (v : Result) : (s.refill x y).returnValue v = (s.returnValue v).refill x y := by
  cases h : s.fg.ret <;> simp [State.returnValue, State.refill, h]

theorem State.whenIdle_refill (s : State) {k k' : Step} (hk : k' = Step.refill x y k) :
    (s.refill x y).whenIdle k' = Step.refill x y (s.whenIdle k) := by
  unfold State.whenIdle
  rw [hk, apply_ite (Step.refill x y)]
  rfl

theorem Port.queue_refill (p : Port) (q : Queue) : (p.refill x y).queue q = p.queue q := by cases q <;> rfl

theorem Port.writeData_refill (p : Port) (b : Byte) : (p.refill x y).writeData b = (p.writeData b).map (Port.refill x y) := by
  cases h : p.dre <;> simp [Port.writeData, Port.refill, h, Except.map]

theorem Port.drainOne_refill (c : Cfg) (p : Port) :
    (p.refill x y).drainOne c = (p.drainOne c).map (Option.map (Port.refill x y)) := by
  have htx : (p.refill x y).tx = p.tx := rfl
  unfold Port.drainOne
  rw [htx]
  cases p.tx.pop c.txCap with
  | error f => rfl
  | ok a =>
    obtain ⟨_ | b, r⟩ := a
    · rfl
    · have hw := Port.writeData_refill (x := x) (y := y) { p with tx := r } b
      have hr : { p.refill x y with tx := r } = Port.refill x y { p with tx := r } := rfl
      simp only [hr, hw]
      cases Port.writeData { p with tx := r } b <;> rfl

/-- A handler whose body, where it is granted, commutes with refilling. -/
theorem State.takeInterrupt_refill (s : State) {g : Bool} {a a' : Except Fault Port} (ha : g = true → a' = a.map (Port.refill x y)) :
    (s.refill x y).takeInterrupt g a' = Step.refill x y (s.takeInterrupt g a) := by
  cases g with
  | false => rfl
  | true => rw [ha rfl]; cases a <;> rfl

/-- An engine step whose effect, where its guard holds, commutes with refilling. -/
theorem State.engineStep_refill (s : State) {g : Bool} {a a' : Except Fault Port} (ha : g = true → a' = a.map (Port.refill x y)) :
    (s.refill x y).engineStep g a' = Step.refill x y (s.engineStep g a) := by
  cases g with
  | false => rfl
  | true => rw [ha rfl]; cases a <;> rfl

/-! ## Steps of the foreground -/

theorem manualDrain_refill (s : State) : manualDrain (s.refill x y) = Step.refill x y (manualDrain s) := by
  have hd : (s.refill x y).port.drainOne (s.refill x y).cfg = (s.port.drainOne s.cfg).map (Option.map (Port.refill x y)) :=
    Port.drainOne_refill s.cfg s.port
  unfold manualDrain
  rw [hd]
  cases s.port.drainOne s.cfg with
  | error f => rfl
  | ok o => cases o <;> rfl

theorem beginStep1_refill (baud : Nat) (fmt : FrameFormat) (s : State) :
    beginStep1 baud fmt (s.refill x y) = (beginStep1 baud fmt s).refill x y := by
  have hcfg : (s.refill x y).cfg = s.cfg := rfl
  unfold beginStep1
  rw [hcfg]
  cases lcDivisor s.cfg baud with
  | error r => exact State.returnValue_refill s _
  | ok a => rfl

/-- `END` clears `RXC`: `RDR` is empty then, with what stood there. -/
theorem endStep2_refill (h : s.port.Blank x y) : endStep2 (s.refill x y) = (endStep2 s).refill x y := by
  unfold endStep2
  rw [← State.returnValue_refill]
  congr 1
  cases hrxc : s.port.rxc <;> simp [State.refill, Port.refill, hrxc, h.rdr]

theorem writeStep1_refill (b : Byte) (s : State) : writeStep1 b (s.refill x y) = Step.refill x y (writeStep1 b s) := by
  have hw : (s.refill x y).port.writeData b = (s.port.writeData b).map (Port.refill x y) := Port.writeData_refill s.port b
  unfold writeStep1
  rw [hw, apply_ite (Step.refill x y), apply_ite (Step.refill x y)]
  refine if_congr Iff.rfl rfl (if_congr Iff.rfl ?_ rfl)
  cases s.port.writeData b with
  | error f => rfl
  | ok p =>
    exact congrArg Host.Outcome.next
      (State.returnValue_refill { s with port := { p with dreie := true, transmitting := true } } _)

theorem writeStep2_refill (b : Byte) (s : State) : writeStep2 b (s.refill x y) = Step.refill x y (writeStep2 b s) := by
  unfold writeStep2
  rw [manualDrain_refill, apply_ite (Step.refill x y), apply_ite (Step.refill x y)]
  rfl

theorem flushStep_refill (s : State) : flushStep (s.refill x y) = Step.refill x y (flushStep s) := by
  unfold flushStep
  rw [manualDrain_refill, apply_ite (Step.refill x y), apply_ite (Step.refill x y), apply_ite (Step.refill x y)]
  refine if_congr Iff.rfl ?_ (if_congr Iff.rfl ?_ rfl)
  · exact congrArg Host.Outcome.next (State.returnValue_refill s _)
  · exact congrArg Host.Outcome.next (State.returnValue_refill { s with port := { s.port with transmitting := false } } _)

theorem bufStep_refill (bs : List Byte) (n : Nat) (s : State) : bufStep bs n (s.refill x y) = (bufStep bs n s).refill x y := by
  cases bs with
  | nil => exact State.returnValue_refill s _
  | cons b rest => rfl

theorem pgmStep_refill (a : Nat) (s : State) : pgmStep a (s.refill x y) = Step.refill x y (pgmStep a s) := by
  have hcfg : (s.refill x y).cfg = s.cfg := rfl
  unfold pgmStep
  rw [hcfg]
  cases pgmByte s.cfg a with
  | none => rfl
  | some b =>
    dsimp only
    rw [apply_ite (Step.refill x y)]
    exact if_congr Iff.rfl (congrArg Host.Outcome.next (State.returnValue_refill s _)) rfl

theorem foregroundStep_blind : BlindToEmptyData foregroundStep := by
  intro s x y h
  have hfg : (s.refill x y).fg = s.fg := rfl
  unfold foregroundStep
  rw [hfg]
  cases s.fg.pc with
  | idle => rfl
  | begin2 u2x div pat baud fmt => rfl
  | begin3 => exact congrArg Host.Outcome.next (State.returnValue_refill { s with port := { s.port with
      rx := s.port.rx.clear0, tx := s.port.tx.clear0, transmitting := false, active := true } } _)
  | write1 b => exact writeStep1_refill b s
  | write2 b => exact writeStep2_refill b s
  | write3 => exact congrArg Host.Outcome.next (State.returnValue_refill
      { s with port := { s.port with dreie := true, transmitting := true } } _)
  | flush1 => exact flushStep_refill s
  | end2 => exact congrArg Host.Outcome.next (endStep2_refill h)
  | buf bs n => exact congrArg Host.Outcome.next (bufStep_refill bs n s)
  | pgm a => exact pgmStep_refill a s

/-! ## Operations -/

theorem execFlush_refill (s : State) : execFlush (s.refill x y) = Step.refill x y (execFlush s) := by
  have hf : flushStep ((s.refill x y).issue .flush1) = Step.refill x y (flushStep (s.issue .flush1)) :=
    flushStep_refill (s.issue .flush1)
  unfold execFlush
  rw [hf]
  refine State.whenIdle_refill s ?_
  cases flushStep (s.issue .flush1) <;> rfl

theorem execPeek_refill (s : State) : execPeek (s.refill x y) = Step.refill x y (execPeek s) := by
  have hrx : (s.refill x y).port.rx = s.port.rx := rfl
  unfold execPeek
  rw [hrx]
  refine State.whenIdle_refill s ?_
  cases s.port.rx.peek with
  | error f => rfl
  | ok v => exact congrArg Host.Outcome.next (State.returnValue_refill s _)

theorem execRead_refill (s : State) : execRead (s.refill x y) = Step.refill x y (execRead s) := by
  have hpop : (s.refill x y).port.rx.pop (s.refill x y).cfg.rxCap = s.port.rx.pop s.cfg.rxCap := rfl
  unfold execRead
  rw [hpop]
  refine State.whenIdle_refill s ?_
  cases s.port.rx.pop s.cfg.rxCap with
  | error f => rfl
  | ok a => exact congrArg Host.Outcome.next (State.returnValue_refill { s with port := { s.port with rx := a.2 } } _)

theorem execWritebuf_refill (bs : List Byte) (s : State) : execWritebuf bs (s.refill x y) = Step.refill x y (execWritebuf bs s) := by
  refine State.whenIdle_refill s ?_
  rw [apply_ite (Step.refill x y)]
  exact if_congr Iff.rfl rfl (congrArg Host.Outcome.next (bufStep_refill bs 0 (s.issue (.buf bs 0))))

theorem execPrintpgm_refill (a : Nat) (s : State) : execPrintpgm a (s.refill x y) = Step.refill x y (execPrintpgm a s) := by
  refine State.whenIdle_refill s ?_
  rw [apply_ite (Step.refill x y), apply_ite (Step.refill x y)]
  exact if_congr Iff.rfl rfl (if_congr Iff.rfl rfl (pgmStep_refill a (s.issue (.pgm a))))

/-- A bare buffer operation that answers with the buffer replaced. -/
theorem setQueue_give_refill (s : State) (q : Queue) (r : RingBuf) (v : Result) :
    State.give { s.refill x y with port := (s.refill x y).port.setQueue q r } v =
      (State.give { s with port := s.port.setQueue q r } v).refill x y := by
  cases q <;> rfl

theorem execRbPop_refill (q : Queue) (s : State) : execRbPop q (s.refill x y) = Step.refill x y (execRbPop q s) := by
  have hq : (s.refill x y).port.queue q = s.port.queue q := s.port.queue_refill q
  have hcfg : (s.refill x y).cfg = s.cfg := rfl
  unfold execRbPop
  rw [hq, hcfg]
  cases (s.port.queue q).pop (capOf s.cfg q) with
  | error f => rfl
  | ok a => exact congrArg Host.Outcome.next (setQueue_give_refill s q a.2 _)

theorem execRbPeek_refill (q : Queue) (s : State) : execRbPeek q (s.refill x y) = Step.refill x y (execRbPeek q s) := by
  have hq : (s.refill x y).port.queue q = s.port.queue q := s.port.queue_refill q
  unfold execRbPeek
  rw [hq]
  cases (s.port.queue q).peek <;> rfl

theorem execLcDivisor_refill (baud : Nat) (s : State) : execLcDivisor baud (s.refill x y) = Step.refill x y (execLcDivisor baud s) := by
  have hcfg : (s.refill x y).cfg = s.cfg := rfl
  unfold execLcDivisor
  rw [hcfg]
  cases lcDivisor s.cfg baud <;> rfl

/-- `ISR.RX` reads `RDR`, under its guard `RXC = 1`. -/
theorem Port.isrRx_refill {c : Cfg} (hrxc : p.rxc = true) : (p.refill x p.rdr).isrRx c = (p.isrRx c).refill x p.rdr := by
  have hread : (p.refill x p.rdr).readData = (p.rdr, { p with tdr := if p.dre then x else p.tdr, rxc := false }) := by
    simp [Port.readData, Port.refill, hrxc]
  unfold Port.isrRx
  rw [hread]
  rcases RingBuf.push_cases c.rxCap p.rx p.rdr with ⟨-, e⟩ | ⟨-, e⟩ <;> simp [Port.readData, Port.refill, e]

theorem execIsrRx_refill (h : s.port.Blank x y) : execIsrRx (s.refill x y) = Step.refill x y (execIsrRx s) := by
  refine State.takeInterrupt_refill s fun hg => ?_
  obtain ⟨-, -, hrxc, -⟩ := Port.rxGrant_iff.1 hg
  obtain rfl := h.rdr hrxc
  exact congrArg Except.ok (Port.isrRx_refill hrxc)

theorem execIsrTx_refill (s : State) : execIsrTx (s.refill x y) = Step.refill x y (execIsrTx s) := by
  have hbody : (s.refill x y).port.isrTx (s.refill x y).cfg = (s.port.isrTx s.cfg).map (Port.refill x y) := by
    have hd : (s.refill x y).port.drainOne (s.refill x y).cfg = (s.port.drainOne s.cfg).map (Option.map (Port.refill x y)) :=
      Port.drainOne_refill s.cfg s.port
    unfold Port.isrTx
    rw [hd]
    cases s.port.drainOne s.cfg with
    | error f => rfl
    | ok o => cases o <;> rfl
  exact State.takeInterrupt_refill s fun _ => hbody

/-- `HW.TXLOAD` reads `TDR`, under its guard `DRE = 0`. -/
theorem Port.txload_refill (hdre : p.dre = false) : (p.refill p.tdr y).txload = p.txload.map (Port.refill p.tdr y) := by
  have hframe : (p.refill p.tdr y).frame = p.frame := rfl
  unfold Port.txload
  rw [hframe]
  cases decodeFrame p.frame with
  | none => rfl
  | some fmt => simp [Port.refill, Except.map, hdre]

theorem execHwTxload_refill (h : s.port.Blank x y) : execHwTxload (s.refill x y) = Step.refill x y (execHwTxload s) := by
  refine State.engineStep_refill s fun hg => ?_
  obtain ⟨-, hdre, -⟩ := Port.txloadGuard_iff.1 hg
  obtain rfl := h.tdr hdre
  exact Port.txload_refill hdre

theorem Port.txdone_refill (p : Port) : (p.refill x y).txdone = p.txdone.refill x y := by
  have htsr : (p.refill x y).tsr = p.tsr := rfl
  unfold Port.txdone
  rw [htsr]
  cases p.tsr <;> rfl

theorem execHwTxdone_refill (s : State) : execHwTxdone (s.refill x y) = Step.refill x y (execHwTxdone s) :=
  State.engineStep_refill s fun _ => congrArg Except.ok (Port.txdone_refill s.port)

theorem Port.rxarrive_refill (p : Port) (g : Frame) : (p.refill x y).rxarrive g = (p.rxarrive g).refill x y := by
  cases hrxen : p.rxen <;> cases hrxc : p.rxc <;> simp [Port.rxarrive, Port.refill, hrxen, hrxc]

theorem exec_blind (i : Instr) : BlindToEmptyData (exec i) := by
  intro s x y h
  cases i with
  | beginCmd baud fmt => exact State.whenIdle_refill s (congrArg Host.Outcome.next (beginStep1_refill baud fmt s))
  | endCmd => exact State.whenIdle_refill s (k := .next (State.call (s.issue .flush1) .end2 .flush1)) rfl
  | available => exact State.whenIdle_refill s (congrArg Host.Outcome.next (State.returnValue_refill s _))
  | ready => exact State.whenIdle_refill s (congrArg Host.Outcome.next (State.returnValue_refill s _))
  | gieSet => exact State.whenIdle_refill s (k := .next { s with gie := true }) rfl
  | gieClr => exact State.whenIdle_refill s (k := .next { s with gie := false }) rfl
  | peek => exact execPeek_refill s
  | read => exact execRead_refill s
  | write b => exact State.whenIdle_refill s (writeStep1_refill b (s.issue (.write1 b)))
  | writebuf bs => exact execWritebuf_refill bs s
  | flush => exact execFlush_refill s
  | printpgm a => exact execPrintpgm_refill a s
  | rbPush q b => cases q <;> rfl
  | rbPop q => exact execRbPop_refill q s
  | rbPeek q => exact execRbPeek_refill q s
  | rbAvailable q => cases q <;> rfl
  | rbIsfull q => cases q <;> rfl
  | rbIsempty q => cases q <;> rfl
  | rbClear q form => cases q <;> rfl
  | lcDivisor baud => exact execLcDivisor_refill baud s
  | lcFrame fmt => rfl
  | isrRx => exact execIsrRx_refill h
  | isrTx => exact execIsrTx_refill s
  | hwTxload => exact execHwTxload_refill h
  | hwTxdone => exact execHwTxdone_refill s
  | hwRxarrive g =>
    exact congrArg (fun p => Host.Outcome.next { s with port := p }) (Port.rxarrive_refill s.port g)

/-- Settles O48: every operation and every foreground step commutes with refilling the empty data registers. -/
theorem dataRegistersMeanNothingWhenEmpty : Obligations.DataRegistersMeanNothingWhenEmpty := fun i _ v =>
  ⟨fun hdre => ⟨(exec_blind i).tdr hdre v, foregroundStep_blind.tdr hdre v⟩,
    fun hrxc => ⟨(exec_blind i).rdr hrxc v, foregroundStep_blind.rdr hrxc v⟩⟩

end Sys2Proof.Machine
end

section
/-! PROOF. The names of the model's stops (spec/10_state.md R39; spec/60_exceptions.md R162; log entries 5, 12, 18, 28). -/

namespace Sys2Proof.Machine

variable {s : State} {r : RingBuf}

/-- Reading an unread slot that nothing has written. -/
theorem RingBuf.peek_unwritten (hne : r.head ≠ r.tail) (hr : Memory.read none r.storage r.tail = none) :
    r.peek = .error .unwrittenSlot := by
  simp [RingBuf.peek, RingBuf.isEmpty, hne, hr]

theorem RingBuf.pop_unwritten {cap : Nat} (hne : r.head ≠ r.tail) (hr : Memory.read none r.storage r.tail = none) :
    r.pop cap = .error .unwrittenSlot := by
  rw [RingBuf.pop, RingBuf.peek_unwritten hne hr]

/-- An engine step without its guard is no step. -/
theorem State.engineStep_of_not {g : Bool} (hg : ¬g = true) (x : Except Fault Port) : s.engineStep g x = .refused .notEnabled :=
  if_neg hg

/-- A handler that is not granted is no step. -/
theorem State.takeInterrupt_of_not {g : Bool} (hg : ¬g = true) (x : Except Fault Port) :
    s.takeInterrupt g x = .refused .notEnabled := if_neg hg

/-- The transmitter with a byte in `TDR` and no legal pattern in `FRAME`. -/
theorem execHwTxload_frameNotLegal (hg : s.port.txen = true ∧ s.port.dre = false ∧ s.port.tsr = .idle)
    (hframe : decodeFrame s.port.frame = none) : execHwTxload s = .fault .frameNotLegal := by
  rw [execHwTxload, State.engineStep, if_pos (Port.txloadGuard_iff.2 hg), Port.txload, hframe]
  rfl

/-- `WRITE` at step 2 with a full buffer that cannot be drained by hand (R117 case c). -/
theorem writeStep2_held {b : Byte} (hfull : (s.port.tx.head + 1) % s.cfg.txCap = s.port.tx.tail)
    (hno : ¬(s.gie = false ∧ s.port.dre = true)) : writeStep2 b s = .refused .foregroundHeld := by
  unfold writeStep2
  rw [RingBuf.isFull_iff.2 hfull, if_neg (by decide), if_neg (by simpa using hno)]

/-- `FLUSH` in a burst that is not complete and cannot be drained by hand (R120 case d). -/
theorem flushStep_held (htr : s.port.transmitting = true) (hnot : ¬(s.port.tx.head = s.port.tx.tail ∧ s.port.txc = true))
    (hno : ¬(s.gie = false ∧ s.port.dre = true ∧ s.port.tx.head ≠ s.port.tx.tail)) : flushStep s = .refused .foregroundHeld := by
  unfold flushStep
  rw [htr, if_neg (by decide), if_neg (by simpa [RingBuf.isEmpty] using hnot),
    if_neg (by simpa [RingBuf.isEmpty, and_assoc] using hno)]

/-- Settles O45: each stop is the refusing or faulting branch of the shared operation it comes from. -/
theorem stopsAreNamed : Obligations.StopsAreNamed := by
  refine fun s => ⟨?_, execHwTxload_frameNotLegal, fun hg => ?_, fun htsr => ?_, fun hg => ?_, fun hg => ?_, fun hpc => ?_,
    fun b hpc hfull hno => ?_, fun hpc htr hnot hno => ?_⟩
  · rintro q r rfl hne hr
    refine ⟨?_, ?_⟩
    · show execRbPop q s = _
      rw [execRbPop, RingBuf.pop_unwritten hne hr]
    · show execRbPeek q s = _
      rw [execRbPeek, RingBuf.peek_unwritten hne hr]
  · exact State.engineStep_of_not (fun h => hg (Port.txloadGuard_iff.1 h)) _
  · refine State.engineStep_of_not (fun h => ?_) _
    obtain ⟨f, hf⟩ := Port.txdoneGuard_iff.1 h
    rw [htsr] at hf; cases hf
  · exact State.takeInterrupt_of_not (fun h => hg (Port.rxGrant_iff.1 h)) (.ok (s.port.isrRx s.cfg))
  · exact State.takeInterrupt_of_not (fun h => hg (Port.txGrant_iff.1 h)) _
  · rw [foregroundStep, hpc]
  · rw [foregroundStep, hpc]; exact writeStep2_held hfull hno
  · rw [foregroundStep, hpc]; exact flushStep_held htr hnot hno

end Sys2Proof.Machine
end

section
/-! PROOF. The transmit pipeline (spec/20_memory.md R59, spec/42_serialport.md R127, spec/44_line_engine.md R140): the bytes a port has accepted and not
yet put on the wire, in order, through every handler, engine, command and foreground step. -/

namespace Sys2Proof.Machine

variable {s t : State} {c : Cfg} {p p' : Port} {f : FrameFormat} {cap : Nat} {r : RingBuf}

/-! ## The unread bytes of a buffer -/

theorem RingBuf.unread_of_isEmpty (he : r.isEmpty = true) : r.unread cap = [] := by
  have havail : r.available cap = 0 := by
    rw [RingBuf.available, RingBuf.isEmpty_iff.1 he, Nat.add_sub_cancel_left, Nat.mod_self]
  rw [RingBuf.unread, RingBuf.slots, havail]
  rfl

/-- The oldest unread byte is the one at `tail`; moving `tail` on leaves the others. -/
theorem RingBuf.unread_pop {b : Byte} (h : r.wf cap = true) (he : r.isEmpty = false)
    (hb : Memory.read none r.storage r.tail = some b) :
    r.unread cap = b :: RingBuf.unread cap { r with tail := nextIndex cap r.tail } := by
  obtain ⟨hslots, -, -⟩ := RingBuf.slots_pop h he
  rw [RingBuf.unread, hslots, hb]
  rfl

/-- A byte stored at `head` is the newest unread byte. -/
theorem RingBuf.unread_push (b : Byte) (h : r.wf cap = true) (hf : r.isFull cap = false) :
    RingBuf.unread cap { r with storage := Memory.write none r.storage r.head b, head := nextIndex cap r.head } =
      r.unread cap ++ [b] := by
  obtain ⟨hslots, -, -⟩ := RingBuf.slots_push b h hf
  rw [RingBuf.unread, hslots, List.filterMap_append]
  rfl

/-! ## The pipeline of a port -/

/-- A port in which nothing the pipeline is made of has changed. -/
theorem Port.pipeline_congr (htx : p'.tx = p.tx := by rfl) (htdr : p'.tdr = p.tdr := by rfl) (hdre : p'.dre = p.dre := by rfl)
    (htsr : p'.tsr = p.tsr := by rfl) (hwire : p'.wireOut = p.wireOut := by rfl) : p'.pipeline c f = p.pipeline c f := by
  simp only [Port.pipeline, htx, htdr, hdre, htsr, hwire]

/-- The oldest queued byte moved to an empty `TDR` keeps its place. -/
theorem Port.pipeline_drained {b : Byte} (hwf : p.tx.wf c.txCap = true) (he : p.tx.isEmpty = false)
    (hb : Memory.read none p.tx.storage p.tx.tail = some b) (hdre : p.dre = true) :
    Port.pipeline c f { p with tx := { p.tx with tail := nextIndex c.txCap p.tx.tail }, tdr := b, dre := false, txc := false } =
      p.pipeline c f := by
  simp [Port.pipeline, RingBuf.unread_pop hwf he hb, hdre]

/-- A byte queued is the last of the pipeline. -/
theorem Port.pipeline_queued (b : Byte) (hwf : p.tx.wf c.txCap = true) (hf : p.tx.isFull c.txCap = false) :
    Port.pipeline c f { p with tx := { p.tx with
      storage := Memory.write none p.tx.storage p.tx.head b, head := nextIndex c.txCap p.tx.head } } =
      p.pipeline c f ++ [mkFrame b f] := by
  simp [Port.pipeline, RingBuf.unread_push b hwf hf]

/-- A byte written to an empty `TDR` with nothing queued is the last of the pipeline. -/
theorem Port.pipeline_startBurst (b : Byte) (he : p.tx.isEmpty = true) (hdre : p.dre = true) :
    Port.pipeline c f { p with tdr := b, dre := false, txc := false, dreie := true, transmitting := true } =
      p.pipeline c f ++ [mkFrame b f] := by
  simp [Port.pipeline, RingBuf.unread_of_isEmpty he, hdre]

/-- The byte of `TDR` moved to an idle `TSR` as the frame of the format in force. -/
theorem Port.pipeline_txloaded (hdre : p.dre = false) (htsr : p.tsr = .idle) :
    Port.pipeline c f { p with tsr := .busy (mkFrame p.tdr f), dre := true } = p.pipeline c f := by
  simp [Port.pipeline, Tsr.frames, hdre, htsr]

/-- The frame of `TSR` put on the wire. -/
theorem Port.pipeline_txdone {g : Frame} {txc : Bool} (htsr : p.tsr = .busy g) :
    Port.pipeline c f { p with wireOut := p.wireOut ++ [g], tsr := .idle, txc := txc } = p.pipeline c f := by
  simp [Port.pipeline, Tsr.frames, htsr]

/-! ## Handlers and engines -/

theorem execIsrTx_pipeline (hwf : s.port.tx.wf s.cfg.txCap = true) (h : execIsrTx s = .next t) :
    t.port.pipeline s.cfg f = s.port.pipeline s.cfg f := by
  obtain ⟨-, ⟨-, rfl⟩ | ⟨b, he, hb, hdre, rfl⟩⟩ := execIsrTx_next h
  · exact Port.pipeline_congr
  · exact Port.pipeline_drained hwf he hb hdre

theorem execHwTxload_pipeline (hframe : decodeFrame s.port.frame = some f) (h : execHwTxload s = .next t) :
    t.port.pipeline s.cfg f = s.port.pipeline s.cfg f := by
  obtain ⟨-, hdre, htsr, f', hf', rfl⟩ := execHwTxload_next h
  obtain rfl := Option.some.inj (hframe.symm.trans hf')
  exact Port.pipeline_txloaded hdre htsr

theorem execHwTxdone_pipeline (h : execHwTxdone s = .next t) : t.port.pipeline s.cfg f = s.port.pipeline s.cfg f := by
  obtain ⟨g, htsr, rfl⟩ := execHwTxdone_next h
  exact Port.pipeline_txdone htsr

theorem Port.pipeline_isrRx : (p.isrRx c).pipeline c f = p.pipeline c f := by
  rcases p.isrRx_cases c with ⟨-, e⟩ | ⟨-, e⟩ <;> rw [e] <;> exact Port.pipeline_congr

theorem Port.pipeline_rxarrive (g : Frame) : (p.rxarrive g).pipeline c f = p.pipeline c f := by
  rcases p.rxarrive_cases g with ⟨-, e⟩ | ⟨-, -, e⟩ | ⟨-, -, e⟩ <;> rw [e] <;> exact Port.pipeline_congr

/-- Handlers and engines move a byte along the pipeline, or leave it alone. -/
theorem exec_agent_pipeline {i : Instr} (hwf : s.port.tx.wf s.cfg.txCap = true) (hframe : decodeFrame s.port.frame = some f)
    (hi : i = .isrRx ∨ i = .isrTx ∨ i = .hwTxload ∨ i = .hwTxdone ∨ ∃ g, i = .hwRxarrive g) (h : exec i s = .next t) :
    t.port.pipeline s.cfg f = s.port.pipeline s.cfg f := by
  rcases hi with rfl | rfl | rfl | rfl | ⟨g, rfl⟩
  · obtain ⟨-, rfl⟩ := execIsrRx_next h; exact Port.pipeline_isrRx
  · exact execIsrTx_pipeline hwf h
  · exact execHwTxload_pipeline hframe h
  · exact execHwTxdone_pipeline h
  · cases execHwRxarrive_next h; exact Port.pipeline_rxarrive g

/-! ## Steps of the foreground -/

theorem manualDrain_pipeline (hwf : s.port.tx.wf s.cfg.txCap = true) (h : manualDrain s = .next t) :
    t.port.pipeline s.cfg f = s.port.pipeline s.cfg f := by
  rcases manualDrain_next h with ⟨-, rfl⟩ | ⟨b, he, hb, hdre, rfl⟩
  · rfl
  · exact Port.pipeline_drained hwf he hb hdre

/-- `WRITE` step 1 appends its byte on the fast path alone. -/
theorem writeStep1_pipeline {b : Byte} (h : writeStep1 b s = .next t) :
    t.port.pipeline s.cfg f = s.port.pipeline s.cfg f ++
      if (!s.port.transmitting && s.port.dre && s.port.tx.isEmpty) then [mkFrame b f] else [] := by
  obtain ⟨-, ⟨htr, hdre, he, rfl⟩ | ⟨hslow, rfl⟩⟩ := writeStep1_next h
  · rw [State.returnValue_port, if_pos (by simp [htr, hdre, he])]
    exact Port.pipeline_startBurst b he hdre
  · rw [if_neg (by simpa [and_assoc] using hslow), List.append_nil, State.goto_port]

/-- `WRITE` step 2 appends its byte where it queues it; a manual drain appends nothing. -/
theorem writeStep2_pipeline {b : Byte} (hwf : s.port.tx.wf s.cfg.txCap = true) (h : writeStep2 b s = .next t) :
    t.port.pipeline s.cfg f = s.port.pipeline s.cfg f ++ if s.port.tx.isFull s.cfg.txCap then [] else [mkFrame b f] := by
  rcases writeStep2_next h with ⟨hf, rfl⟩ | ⟨hf, -, -, hd⟩
  · rw [hf]
    exact Port.pipeline_queued b hwf hf
  · rw [hf, manualDrain_pipeline hwf hd]
    exact (List.append_nil _).symm

theorem flushStep_pipeline (hwf : s.port.tx.wf s.cfg.txCap = true) (h : flushStep s = .next t) :
    t.port.pipeline s.cfg f = s.port.pipeline s.cfg f := by
  rcases flushStep_next h with ⟨-, rfl⟩ | ⟨-, -, -, rfl⟩ | ⟨-, -, -, -, hd⟩
  · rw [State.returnValue_port]
  · rw [State.returnValue_port]; exact Port.pipeline_congr
  · exact manualDrain_pipeline hwf hd

/-- A foreground step that is none of `BEGIN`'s and no `WRITE` step 1 or 2 leaves the pipeline as it was. -/
theorem foregroundStep_pipeline (hwf : s.port.tx.wf s.cfg.txCap = true) (hbegin3 : s.fg.pc ≠ .begin3)
    (hbegin2 : ∀ u2x div pat baud fmt, s.fg.pc ≠ .begin2 u2x div pat baud fmt) (hwrite1 : ∀ b, s.fg.pc ≠ .write1 b)
    (hwrite2 : ∀ b, s.fg.pc ≠ .write2 b) (h : foregroundStep s = .next t) :
    t.port.pipeline s.cfg f = s.port.pipeline s.cfg f := by
  unfold foregroundStep at h
  cases hpc : s.fg.pc <;> rw [hpc] at h
  case idle => cases h
  case begin2 => exact (hbegin2 _ _ _ _ _ hpc).elim
  case begin3 => exact (hbegin3 hpc).elim
  case write1 => exact (hwrite1 _ hpc).elim
  case write2 => exact (hwrite2 _ hpc).elim
  case write3 => cases h; rw [writeStep3, State.returnValue_port]; exact Port.pipeline_congr
  case flush1 => exact flushStep_pipeline hwf h
  case end2 => cases h; rw [endStep2, State.returnValue_port]; exact Port.pipeline_congr
  case buf => cases h; rw [bufStep_port]
  case pgm => rw [pgmStep_port h]

/-! ## Commands issued by the host -/

theorem execFlush_pipeline (hwf : s.port.tx.wf s.cfg.txCap = true) (h : execFlush s = .next t) :
    t.port.pipeline s.cfg f = s.port.pipeline s.cfg f := by
  obtain ⟨-, hf | ⟨-, rfl⟩⟩ := execFlush_next h
  · exact flushStep_pipeline (s := s.issue .flush1) hwf hf
  · rfl

/-- A command other than `WRITE` leaves the pipeline as it was when it is issued. -/
theorem exec_hostCommand_pipeline {i : Instr} (hwf : s.port.tx.wf s.cfg.txCap = true) (hi : i.hostCommand = true)
    (hwrite : ∀ b, i ≠ .write b) (h : exec i s = .next t) : t.port.pipeline s.cfg f = s.port.pipeline s.cfg f := by
  cases i with
  | gieSet => obtain ⟨-, e⟩ := State.whenIdle_next h; cases e; rfl
  | gieClr => obtain ⟨-, e⟩ := State.whenIdle_next h; cases e; rfl
  | beginCmd baud fmt => obtain ⟨-, e⟩ := State.whenIdle_next h; cases e; rw [beginStep1_port]
  | endCmd => obtain ⟨-, e⟩ := State.whenIdle_next h; cases e; rfl
  | available => obtain ⟨-, e⟩ := State.whenIdle_next h; cases e; rw [State.returnValue_port]
  | ready => obtain ⟨-, e⟩ := State.whenIdle_next h; cases e; rw [State.returnValue_port]
  | peek => obtain ⟨-, v, -, rfl⟩ := execPeek_next h; rw [State.returnValue_port]
  | read => obtain ⟨-, v, r, -, rfl⟩ := execRead_next h; rw [State.returnValue_port]; exact Port.pipeline_congr
  | write b => exact (hwrite b rfl).elim
  | writebuf bs => obtain ⟨-, -, rfl⟩ := execWritebuf_next h; rw [bufStep_port, State.issue_port]
  | flush => exact execFlush_pipeline hwf h
  | printpgm a => obtain ⟨-, -, -, hp⟩ := execPrintpgm_next h; rw [pgmStep_port hp, State.issue_port]
  | rbPush | rbPop | rbPeek | rbAvailable | rbIsfull | rbIsempty | rbClear | lcDivisor | lcFrame | isrRx | isrTx | hwTxload
    | hwTxdone | hwRxarrive => cases hi

/-- Settles O58: handlers, engines and manual drains move a byte one place along the pipeline, only a `WRITE` step 1 on the fast path or a step 2
that queues appends one, and the other steps change nothing the pipeline is made of. -/
theorem transmitPipelineIsConserved : Obligations.TransmitPipelineIsConserved := by
  rintro s t f fast hwf hframe rfl
  refine ⟨fun i hi h => exec_agent_pipeline hwf hframe hi h, fun i hi h => ?_, fun hbegin3 hbegin2 h => ?_⟩
  · split
    · exact writeStep1_pipeline (s := s.issue _) (execWrite_next h).2
    · rename_i hwrite
      rw [List.append_nil]
      exact exec_hostCommand_pipeline hwf hi hwrite h
  · split
    · rename_i hpc
      rw [foregroundStep, hpc] at h
      exact writeStep1_pipeline h
    · rename_i hpc
      rw [foregroundStep, hpc] at h
      exact writeStep2_pipeline hwf h
    · rename_i hwrite1 hwrite2
      rw [List.append_nil]
      exact foregroundStep_pipeline hwf hbegin3 hbegin2 hwrite1 hwrite2 h

end Sys2Proof.Machine
end

section
/-! PROOF. The memory map and its steps (spec/20_memory.md): which byte an operation can store (R50, R51), the register accesses (R55), what a step
reads from the schedule (R58), and that a held command has something that lifts it (R61). -/

namespace Sys2Proof.Machine

variable {s t : State} {p : Port} {sp : Space} {a : Nat}

/-! ## The storage of the buffers (R51) -/

/-- The same bytes stored in both buffers; the indices may differ. -/
structure Port.SameStorage (p p' : Port) : Prop where
  rx : p'.rx.storage = p.rx.storage
  tx : p'.tx.storage = p.tx.storage

theorem Port.SameStorage.refl (p : Port) : p.SameStorage p := ⟨rfl, rfl⟩

theorem Port.SameStorage.setQueue {q : Queue} {r : RingBuf} (h : r.storage = (p.queue q).storage) :
    p.SameStorage (p.setQueue q r) := by
  cases q
  · exact ⟨h, rfl⟩
  · exact ⟨rfl, h⟩

/-- A pop moves `tail` and stores nothing. -/
theorem RingBuf.storage_of_pop {cap : Nat} {r r' : RingBuf} {v : Option Byte} (h : r.pop cap = .ok (v, r')) :
    r'.storage = r.storage := by
  rcases RingBuf.pop_ok h with ⟨-, -, rfl⟩ | ⟨b, -, -, -, rfl⟩ <;> rfl

/-- A push stores at `head` and nowhere else. -/
theorem RingBuf.read_storage_push (cap : Nat) (r : RingBuf) (b : Byte) (ha : a ≠ r.head) :
    Memory.read none (r.push cap b).1.storage a = Memory.read none r.storage a := by
  rcases RingBuf.push_cases cap r b with ⟨-, e⟩ | ⟨-, e⟩ <;> rw [e]
  exact Memory.read_write_ne b ha

theorem manualDrain_sameStorage (h : manualDrain s = .next t) : s.port.SameStorage t.port := by
  rcases manualDrain_next h with ⟨-, rfl⟩ | ⟨b, -, -, -, rfl⟩
  · exact .refl _
  · exact ⟨rfl, rfl⟩

theorem writeStep1_sameStorage {b : Byte} (h : writeStep1 b s = .next t) : s.port.SameStorage t.port := by
  obtain ⟨-, ⟨-, -, -, rfl⟩ | ⟨-, rfl⟩⟩ := writeStep1_next h
  · rw [State.returnValue_port]; exact ⟨rfl, rfl⟩
  · exact .refl _

theorem flushStep_sameStorage (h : flushStep s = .next t) : s.port.SameStorage t.port := by
  rcases flushStep_next h with ⟨-, rfl⟩ | ⟨-, -, -, rfl⟩ | ⟨-, -, -, -, hd⟩
  · rw [State.returnValue_port]; exact .refl _
  · rw [State.returnValue_port]; exact ⟨rfl, rfl⟩
  · exact manualDrain_sameStorage hd

theorem execFlush_sameStorage (h : execFlush s = .next t) : s.port.SameStorage t.port := by
  obtain ⟨-, hf | ⟨-, rfl⟩⟩ := execFlush_next h
  · exact flushStep_sameStorage (s := s.issue .flush1) hf
  · exact .refl _

theorem execIsrTx_sameStorage (h : execIsrTx s = .next t) : s.port.SameStorage t.port := by
  obtain ⟨-, ⟨-, rfl⟩ | ⟨b, -, -, -, rfl⟩⟩ := execIsrTx_next h <;> exact ⟨rfl, rfl⟩

theorem execRbClear_sameStorage {q : Queue} {form : ClearForm} (h : execRbClear q form s = .next t) :
    s.port.SameStorage t.port := by
  cases h
  cases form <;> exact .setQueue rfl

theorem Port.SameStorage.rxarrive (p : Port) (g : Frame) : p.SameStorage (p.rxarrive g) := by
  rcases p.rxarrive_cases g with ⟨-, e⟩ | ⟨-, -, e⟩ | ⟨-, -, e⟩ <;> rw [e] <;> exact ⟨rfl, rfl⟩

/-- An operation other than `RB.PUSH` and `ISR.RX` stores nothing. -/
theorem exec_sameStorage {i : Instr} (hpush : ∀ q b, i ≠ .rbPush q b) (hisr : i ≠ .isrRx) (h : exec i s = .next t) :
    s.port.SameStorage t.port := by
  cases i with
  | gieSet => obtain ⟨-, e⟩ := State.whenIdle_next h; cases e; exact .refl _
  | gieClr => obtain ⟨-, e⟩ := State.whenIdle_next h; cases e; exact .refl _
  | beginCmd baud fmt => obtain ⟨-, e⟩ := State.whenIdle_next h; cases e; rw [beginStep1_port]; exact .refl _
  | endCmd => obtain ⟨-, e⟩ := State.whenIdle_next h; cases e; exact .refl _
  | available => obtain ⟨-, e⟩ := State.whenIdle_next h; cases e; rw [State.returnValue_port]; exact .refl _
  | ready => obtain ⟨-, e⟩ := State.whenIdle_next h; cases e; rw [State.returnValue_port]; exact .refl _
  | peek => obtain ⟨-, v, -, rfl⟩ := execPeek_next h; rw [State.returnValue_port]; exact .refl _
  | read =>
    obtain ⟨-, v, r, hp, rfl⟩ := execRead_next h
    rw [State.returnValue_port]
    exact ⟨RingBuf.storage_of_pop hp, rfl⟩
  | write b => exact writeStep1_sameStorage (s := s.issue (.write1 b)) (execWrite_next h).2
  | writebuf bs => obtain ⟨-, -, rfl⟩ := execWritebuf_next h; rw [bufStep_port]; exact .refl _
  | flush => exact execFlush_sameStorage h
  | printpgm a => obtain ⟨-, -, -, hp⟩ := execPrintpgm_next h; rw [pgmStep_port hp]; exact .refl _
  | rbPush q b => exact (hpush q b rfl).elim
  | rbPop q => obtain ⟨v, r, hp, rfl⟩ := execRbPop_next h; exact .setQueue (RingBuf.storage_of_pop hp)
  | rbPeek q => obtain ⟨v, -, rfl⟩ := execRbPeek_next h; exact .refl _
  | rbAvailable q => cases h; exact .refl _
  | rbIsfull q => cases h; exact .refl _
  | rbIsempty q => cases h; exact .refl _
  | rbClear q form => exact execRbClear_sameStorage h
  | lcDivisor baud => obtain ⟨v, rfl⟩ := execLcDivisor_next h; exact .refl _
  | lcFrame fmt => cases h; exact .refl _
  | isrRx => exact (hisr rfl).elim
  | isrTx => exact execIsrTx_sameStorage h
  | hwTxload => obtain ⟨-, -, -, f, -, rfl⟩ := execHwTxload_next h; exact ⟨rfl, rfl⟩
  | hwTxdone => obtain ⟨f, -, rfl⟩ := execHwTxdone_next h; exact ⟨rfl, rfl⟩
  | hwRxarrive g => cases execHwRxarrive_next h; exact .rxarrive s.port g

/-! ## The bytes of the address spaces (R50) -/

/-- A byte outside `IO` is the configuration's and the storage's: where both read the same at its address, so does the machine. -/
theorem State.readByte_congr (hio : sp ≠ .io) (hcfg : t.cfg = s.cfg)
    (hrx : sp = .rxbuf → Memory.read none t.port.rx.storage a = Memory.read none s.port.rx.storage a)
    (htx : sp = .txbuf → Memory.read none t.port.tx.storage a = Memory.read none s.port.tx.storage a) :
    t.readByte sp a = s.readByte sp a := by
  cases sp with
  | rxbuf => simp only [State.readByte, unlisted, hcfg, hrx rfl]
  | txbuf => simp only [State.readByte, unlisted, hcfg, htx rfl]
  | pgm => simp only [State.readByte, hcfg]
  | io => exact (hio rfl).elim

theorem State.readByte_of_sameStorage (hio : sp ≠ .io) (hcfg : t.cfg = s.cfg) (h : s.port.SameStorage t.port) :
    t.readByte sp a = s.readByte sp a :=
  State.readByte_congr hio hcfg (fun _ => by rw [h.rx]) (fun _ => by rw [h.tx])

theorem execRbPush_readByte {q : Queue} {b : Byte} (h : exec (.rbPush q b) s = .next t) (hio : sp ≠ .io)
    (hrx : q = .rx → ¬(sp = .rxbuf ∧ a = s.port.rx.head)) (htx : q = .tx → ¬(sp = .txbuf ∧ a = s.port.tx.head)) :
    t.readByte sp a = s.readByte sp a := by
  cases h
  cases q with
  | rx => exact State.readByte_congr hio rfl (fun e => RingBuf.read_storage_push _ _ _ fun ha => hrx rfl ⟨e, ha⟩) fun _ => rfl
  | tx => exact State.readByte_congr hio rfl (fun _ => rfl) fun e => RingBuf.read_storage_push _ _ _ fun ha => htx rfl ⟨e, ha⟩

theorem execIsrRx_readByte (h : execIsrRx s = .next t) (hio : sp ≠ .io) (hne : ¬(sp = .rxbuf ∧ a = s.port.rx.head)) :
    t.readByte sp a = s.readByte sp a := by
  obtain ⟨-, rfl⟩ := execIsrRx_next h
  rcases s.port.isrRx_cases s.cfg with ⟨-, e⟩ | ⟨-, e⟩ <;> rw [e]
  · exact State.readByte_of_sameStorage hio rfl ⟨rfl, rfl⟩
  · exact State.readByte_congr hio rfl (fun hsp => Memory.read_write_ne _ fun ha => hne ⟨hsp, ha⟩) fun _ => rfl

/-- Settles O18: every other operation keeps the storage of both buffers, and `RB.PUSH` and `ISR.RX` store at `head` alone. -/
theorem operationsStoreOnlyAtHead : Obligations.OperationsStoreOnlyAtHead := by
  refine fun i s t h => ⟨fun hpush hisr sp a hio => ?_, ?_, ?_⟩
  · exact State.readByte_of_sameStorage hio (exec_samePlatform h).1 (exec_sameStorage hpush hisr h)
  · rintro q b rfl sp a hio hne
    exact execRbPush_readByte h hio (by rintro rfl; exact hne) (by rintro rfl; exact hne)
  · rintro rfl sp a hio hne
    exact execIsrRx_readByte h hio hne

/-! ## Register accesses (R55) -/

/-- Settles O47: the three clauses on `DATA` are its access functions, and a read of another register gives the port back. -/
theorem dataRegisterSideEffects : Obligations.DataRegisterSideEffects := by
  refine fun c p v => ⟨rfl, fun hdre => ?_, fun hdre => ?_, fun r hr => ?_⟩
  · rw [Port.ioWrite, Port.writeData, if_pos hdre]
  · rw [Port.ioWrite, Port.writeData, hdre]; rfl
  · cases r with
    | data => exact (hr rfl).elim
    | status | ctrl | frame | divLo | divHi => rfl

/-! ## Scheduled turns (R58) -/

section Scheduled

variable {j : Nat} {record rest : List Byte} {ts : List Turn} {i : Instr}

/-- A port the machine does not have cannot be selected. -/
theorem State.select_eq_none (h : s.ports.length ≤ j) : s.select j = none := by
  rw [State.select, List.drop_eq_nil_of_le h]

theorem fetch_eq_ok (hsel : s.select j = some t) (hdec : decode record = .ok (i, rest)) (hwf : i.wf s.cfg = true) :
    fetch s j record = .ok (i, t) := by
  simp [fetch, hsel, hdec, hwf]

theorem fetch_undecodable {e : DecodeError} (hsel : s.select j = some t) (hdec : decode record = .error e) :
    fetch s j record = .error (.undecodable e) := by
  simp [fetch, hsel, hdec]

theorem fetch_illFormed (hsel : s.select j = some t) (hdec : decode record = .ok (i, rest)) (hwf : i.wf s.cfg = false) :
    fetch s j record = .error .illFormed := by
  simp [fetch, hsel, hdec, hwf]

theorem fetch_noSuchPort (h : s.ports.length ≤ j) : fetch s j record = .error .noSuchPort := by
  simp [fetch, State.select_eq_none h]

theorem step_of_fetch (hturns : s.turns = .op j record :: ts) (h : fetch { s with turns := ts } j record = .ok (i, t)) :
    step s = exec i t := by
  simp [step, hturns, h]

theorem step_refused_of_fetch {r : Refusal} (hturns : s.turns = .op j record :: ts)
    (h : fetch { s with turns := ts } j record = .error r) : step s = .refused r := by
  simp [step, hturns, h]

theorem step_foreground (hturns : s.turns = .foreground :: ts) : step s = foregroundTurn { s with turns := ts } := by
  simp [step, hturns]

theorem foregroundTurn_of_select (h : s.select s.fg.port = some t) : foregroundTurn s = foregroundStep t := by
  simp [foregroundTurn, h]

theorem foregroundTurn_noSuchPort (h : s.ports.length ≤ s.fg.port) : foregroundTurn s = .refused .noSuchPort := by
  simp [foregroundTurn, State.select_eq_none h]

/-- What a record given as a number decodes to. -/
theorem decodeTableWord_eq_some {nbits w : Nat} (h : decodeTableWord nbits w = some i) :
    ∃ rest, decode (layWord nbits w) = .ok (i, rest) := by
  unfold decodeTableWord at h
  split at h
  · cases h; exact ⟨_, ‹_›⟩
  · cases h

/-- A record placed at the head of the schedule is taken next, on the selected port. -/
theorem step_withFetchWord {nbits w : Nat} (hdec : decodeTableWord nbits w = some i) (hwf : i.wf s.cfg = true) :
    step (s.withFetchWord nbits w) = exec i s := by
  obtain ⟨rest, hrest⟩ := decodeTableWord_eq_some hdec
  exact step_of_fetch (s := s.withFetchWord nbits w) rfl (fetch_eq_ok s.select_here hrest hwf)

end Scheduled

/-- Settles O7: a step is what `fetch` answers for a scheduled record, or the foreground's step on its port. -/
theorem stepRunsDecodedOperation : Obligations.StepRunsDecodedOperation := by
  refine ⟨fun s t j record ts i rest hturns hsel hdec hwf => ?_, fun s nbits w i hdec hwf => step_withFetchWord hdec hwf,
    fun s t ts hturns hsel => ?_, fun s t j record ts hturns hsel => ⟨fun e hdec => ?_, fun i rest hdec hwf => ?_⟩,
    fun s j record ts hturns hj => ?_, fun s ts hturns hport => ?_⟩
  · exact step_of_fetch hturns (fetch_eq_ok hsel hdec hwf)
  · rw [step_foreground hturns]; exact foregroundTurn_of_select hsel
  · exact step_refused_of_fetch hturns (fetch_undecodable hsel hdec)
  · exact step_refused_of_fetch hturns (fetch_illFormed hsel hdec hwf)
  · exact step_refused_of_fetch hturns (fetch_noSuchPort hj)
  · rw [step_foreground hturns]; exact foregroundTurn_noSuchPort hport

/-! ## Held commands (R61) -/

/-- Settles O57: with no handler or engine enabled on its port, the command in progress can go on. -/
theorem heldCommandsAreNeverDeadlocked : Obligations.HeldCommandsAreNeverDeadlocked :=
  fun _ hinv hpc => hinv.enabledMoves_ne_nil hpc

end Sys2Proof.Machine
end

section
/-! PROOF. Encodings (spec/30_encoding.md): the register map and what a write of each register changes and reads back as (R79, R81; spec/20_memory.md
R52, R56), the frame-format byte (R77), and the codes outside the table (R82). -/

namespace Sys2Proof.Machine

variable {io : PortConfig} {p : Port} {c : Cfg} {n : Nat}

/-! ## A legal register map (R79) -/

theorem PortConfig.addresses_nodup (h : io.wf = true) : io.addresses.Nodup := by
  simp only [PortConfig.wf, Bool.and_eq_true, decide_eq_true_eq] at h
  obtain ⟨⟨⟨⟨hdistinct, -⟩, -⟩, -⟩, -⟩ := h
  exact hdistinct

theorem PortConfig.statusBits_legal (h : io.wf = true) : io.statusBits.Nodup ∧ ∀ k ∈ io.statusBits, k < 8 := by
  simp only [PortConfig.wf, Bool.and_eq_true, decide_eq_true_eq, List.all_eq_true] at h
  obtain ⟨⟨⟨⟨-, hdistinct⟩, hlt⟩, -⟩, -⟩ := h
  exact ⟨hdistinct, hlt⟩

theorem PortConfig.ctrlBits_legal (h : io.wf = true) : io.ctrlBits.Nodup ∧ ∀ k ∈ io.ctrlBits, k < 8 := by
  simp only [PortConfig.wf, Bool.and_eq_true, decide_eq_true_eq, List.all_eq_true] at h
  obtain ⟨⟨⟨⟨-, -⟩, -⟩, hdistinct⟩, hlt⟩ := h
  exact ⟨hdistinct, hlt⟩

/-- R79: each of the six addresses reaches its register: the tests before its own fail, the addresses being distinct. -/
theorem ioReg_address (h : io.wf = true) :
    ioReg io io.statusAddr = some .status ∧ ioReg io io.ctrlAddr = some .ctrl ∧ ioReg io io.frameAddr = some .frame ∧
    ioReg io io.divLoAddr = some .divLo ∧ ioReg io io.divHiAddr = some .divHi ∧ ioReg io io.dataAddr = some .data := by
  have hdistinct := PortConfig.addresses_nodup h
  simp only [PortConfig.addresses, List.nodup_cons, List.mem_cons, List.not_mem_nil, or_false, not_or] at hdistinct
  simp [ioReg, hdistinct, eq_comm]

/-- R79: an address that is none of the six reaches no register. -/
theorem ioReg_eq_none {a : Nat} (h : a ∉ io.addresses) : ioReg io a = none := by
  simp only [PortConfig.addresses, List.mem_cons, List.not_mem_nil, or_false, not_or] at h
  simp [ioReg, h]

/-! ## Register images (R79, R81) -/

/-- The one bit that `bitAt` can set. -/
theorem getLsbD_bitAt (k n : Nat) (v : Bool) : (bitAt k v).getLsbD n = (v && decide (n < 8) && decide (k = n)) := by
  cases v with
  | false => exact BitVec.getLsbD_zero
  | true => rw [bitAt, if_pos rfl, BitVec.getLsbD_ofNat, Nat.testBit_two_pow, Bool.true_and]

/-- Each named bit of `CTRL` reads as its control bit: no other named bit stands at its position. -/
theorem Port.image_ctrl_named (h : p.io.wf = true) :
    (p.image .ctrl).getLsbD p.io.rxcieBit = p.rxcie ∧ (p.image .ctrl).getLsbD p.io.dreieBit = p.dreie ∧
    (p.image .ctrl).getLsbD p.io.rxenBit = p.rxen ∧ (p.image .ctrl).getLsbD p.io.txenBit = p.txen := by
  obtain ⟨hdistinct, hlt⟩ := PortConfig.ctrlBits_legal h
  simp only [PortConfig.ctrlBits, List.nodup_cons, List.mem_cons, List.not_mem_nil, or_false, not_or] at hdistinct
  simp only [PortConfig.ctrlBits, List.forall_mem_cons] at hlt
  simp only [Port.image, BitVec.getLsbD_or, getLsbD_bitAt]
  simp [hdistinct, hlt, eq_comm]

theorem Port.image_status_u2x (h : p.io.wf = true) : (p.image .status).getLsbD p.io.u2xBit = p.u2x := by
  obtain ⟨hdistinct, hlt⟩ := PortConfig.statusBits_legal h
  simp only [PortConfig.statusBits, List.nodup_cons, List.mem_cons, List.not_mem_nil, or_false, not_or] at hdistinct
  simp only [PortConfig.statusBits, List.forall_mem_cons] at hlt
  simp only [Port.image, BitVec.getLsbD_or, getLsbD_bitAt]
  simp [hdistinct, hlt]

theorem Port.image_ctrl_ref (hio : p.io = .ref) (hrxcie : p.rxcie = true) (hrxen : p.rxen = true) (htxen : p.txen = true) :
    p.image .ctrl = if p.dreie = true then 0xB8 else 0x98 := by
  rw [Port.image, hio, hrxcie, hrxen, htxen]
  cases p.dreie <;> rfl

theorem Port.image_status_ref (hio : p.io = .ref) :
    (p.image .status).toNat = 128 * p.rxc.toNat + 64 * p.txc.toNat + 32 * p.dre.toNat + 2 * p.u2x.toNat := by
  rw [Port.image, hio]
  cases p.rxc <;> cases p.txc <;> cases p.dre <;> cases p.u2x <;> rfl

/-! ## Writes of the control registers (R52, R79) -/

/-- Writing back the image of `CTRL` with the one bit `k` changed to `v` changes the control bit at `k` alone. -/
theorem Port.ioWrite_ctrl_of_image {v : Bool} {k : Nat} {w : Byte} (h : p.io.wf = true)
    (hw : ∀ n, n < 8 → w.getLsbD n = if n = k then v else (p.image .ctrl).getLsbD n) :
    Port.ioWrite c p .ctrl w = .ok { p with
      rxcie := if k = p.io.rxcieBit then v else p.rxcie, dreie := if k = p.io.dreieBit then v else p.dreie
      rxen := if k = p.io.rxenBit then v else p.rxen, txen := if k = p.io.txenBit then v else p.txen } := by
  obtain ⟨-, hlt⟩ := PortConfig.ctrlBits_legal h
  simp only [PortConfig.ctrlBits, List.forall_mem_cons] at hlt
  obtain ⟨hrxcieLt, hdreieLt, hrxenLt, htxenLt, -⟩ := hlt
  obtain ⟨hrxcie, hdreie, hrxen, htxen⟩ := Port.image_ctrl_named h
  rw [Port.ioWrite, hw _ hrxcieLt, hw _ hdreieLt, hw _ hrxenLt, hw _ htxenLt, hrxcie, hdreie, hrxen, htxen]
  simp only [eq_comm]

/-! ## The halves of the divisor (R52) -/

section Divisor

variable {bits d : Nat} (e : Nat)

/-- Whatever `DIV` held, `DIV_HI` holds the high byte of `d` after it was written there. -/
theorem high_of_writeHigh (hd : d < 2 ^ bits) : (d / 256 * 256 + e % 256) % 2 ^ bits / 256 = d / 256 := by
  rcases Nat.le_total bits 8 with hbits | hbits
  · have hpow : 2 ^ bits ≤ 2 ^ 8 := Nat.pow_le_pow_right (by decide) hbits
    have hmod := Nat.mod_lt (d / 256 * 256 + e % 256) (Nat.two_pow_pos bits)
    omega
  · obtain ⟨m, hm⟩ : 2 ^ 8 ∣ 2 ^ bits := Nat.pow_dvd_pow 2 hbits
    rw [hm] at hd ⊢
    rw [Nat.mod_mul_right_div_self, Nat.mod_eq_of_lt] <;> omega

/-- Whatever `DIV` held, `DIV_LO` holds the low byte of `d` after it was written there. -/
theorem low_of_writeLow (hd : d < 2 ^ bits) : (e / 256 * 256 + d % 256) % 2 ^ bits % 256 = d % 256 := by
  rcases Nat.le_total bits 8 with hbits | hbits
  · obtain ⟨m, hm⟩ : 2 ^ bits ∣ 2 ^ 8 := Nat.pow_dvd_pow 2 hbits
    have hdvd : 2 ^ bits ∣ e / 256 * 256 := Dvd.dvd.mul_left ⟨m, hm⟩ _
    have hpow : 2 ^ bits ≤ 2 ^ 8 := Nat.pow_le_pow_right (by decide) hbits
    rw [Nat.add_mod, Nat.mod_eq_zero_of_dvd hdvd, Nat.zero_add, Nat.mod_mod, Nat.mod_eq_of_lt (a := d) (b := 256) (by omega),
      Nat.mod_eq_of_lt hd]
    omega
  · rw [Nat.mod_mod_of_dvd _ (Nat.pow_dvd_pow 2 hbits)]
    omega

end Divisor

theorem toNat_highByte {d : Nat} (hbits : c.divBits ≤ 16) (hd : d < 2 ^ c.divBits) : (BitVec.ofNat 8 (d / 256)).toNat = d / 256 := by
  have hpow : 2 ^ c.divBits ≤ 2 ^ 16 := Nat.pow_le_pow_right (by decide) hbits
  rw [BitVec.toNat_ofNat]
  omega

/-- R52: the two bytes of a divisor, `DIV_HI` first, set `DIV` to it. -/
theorem Port.ioWrite_divHi_divLo {d : Nat} (hbits : c.divBits ≤ 16) (hd : d < 2 ^ c.divBits) :
    ∃ q, Port.ioWrite c p .divHi (BitVec.ofNat 8 (d / 256)) = .ok q ∧
      Port.ioWrite c q .divLo (BitVec.ofNat 8 d) = .ok { p with div := d } := by
  refine ⟨_, rfl, ?_⟩
  simp only [Port.ioWrite, toNat_highByte hbits hd, BitVec.toNat_ofNat, Nat.reducePow]
  rw [high_of_writeHigh p.div hd, Nat.div_add_mod', Nat.mod_eq_of_lt hd]

/-- R52: the two bytes of a divisor, `DIV_LO` first, set `DIV` to it. -/
theorem Port.ioWrite_divLo_divHi {d : Nat} (hbits : c.divBits ≤ 16) (hd : d < 2 ^ c.divBits) :
    ∃ q, Port.ioWrite c p .divLo (BitVec.ofNat 8 d) = .ok q ∧
      Port.ioWrite c q .divHi (BitVec.ofNat 8 (d / 256)) = .ok { p with div := d } := by
  refine ⟨_, rfl, ?_⟩
  simp only [Port.ioWrite, toNat_highByte hbits hd, BitVec.toNat_ofNat, Nat.reducePow]
  rw [low_of_writeLow p.div hd, Nat.div_add_mod', Nat.mod_eq_of_lt hd]

/-- Settles O46: the writes of `CTRL`, `STATUS`, `FRAME` and `DIV`, the map of the addresses, and the two images of R81. -/
theorem controlBitsThroughTheRegister : Obligations.ControlBitsThroughTheRegister := by
  refine ⟨fun c p v k w hio _ hw => Port.ioWrite_ctrl_of_image hio hw, fun c p w hio => ⟨_, rfl, rfl, Port.image_status_u2x hio⟩,
    fun c p w => ⟨_, rfl, rfl, rfl⟩, fun c p d hbits hd => ?_, fun io hio => ?_,
    fun p => Port.image_ctrl_ref, fun p => Port.image_status_ref⟩
  · exact ⟨Port.ioWrite_divHi_divLo hbits hd, Port.ioWrite_divLo_divHi hbits hd, toNat_highByte hbits hd, BitVec.toNat_ofNat d 8⟩
  · obtain ⟨hstatus, hctrl, hframe, hdivLo, hdivHi, hdata⟩ := ioReg_address hio
    exact ⟨hstatus, hctrl, hframe, hdivLo, hdivHi, hdata, fun _ => ioReg_eq_none⟩

/-! ## The frame-format byte (R77) -/

/-- The model's field of a byte is the bit vector's. -/
theorem byteField_eq_toNat (v : Byte) (hi lo : Nat) : byteField v hi lo = (v.extractLsb' lo (hi - lo + 1)).toNat := by
  rw [byteField, BitVec.extractLsb'_toNat, Nat.shiftRight_eq_div_pow]

theorem byteField_eq_iff (v : Byte) (hi lo : Nat) (k : BitVec (hi - lo + 1)) :
    byteField v hi lo = k.toNat ↔ v.extractLsb' lo (hi - lo + 1) = k := by
  rw [byteField_eq_toNat, BitVec.toNat_inj]

theorem byteField_bit0 (v : Byte) : byteField v 0 0 = v.toNat % 2 := congrArg (· % 2) (Nat.div_one v.toNat)

theorem byteField_bit0_iff (v : Byte) : byteField v 0 0 = 0 ↔ v.getLsbD 0 = false := by
  rw [byteField_bit0, BitVec.getLsbD, Nat.testBit_zero, decide_eq_false_iff_not, Nat.mod_two_not_eq_one]

theorem byteField_lt (v : Byte) (hi lo : Nat) : byteField v hi lo < 2 ^ (hi - lo + 1) := Nat.mod_lt _ (Nat.two_pow_pos _)

theorem DataBits.width_ofCode (h : n < 4) : (DataBits.ofCode n).width = 5 + n := by
  interval_cases n <;> rfl

theorem StopBits.count_ofCode (h : n < 2) : (StopBits.ofCode n).count = 1 + n := by
  interval_cases n <;> rfl

/-- Of the four values of `PAR`, `0b01` alone names no scheme. -/
theorem Parity.isSome_ofCode (h : n < 4) : (Parity.ofCode n).isSome = true ↔ n ≠ 1 := by
  interval_cases n <;> decide

/-- The scheme a value of `PAR` names is the one whose code it is. -/
theorem Parity.ofCode_eq_some_iff (par : Parity) : Parity.ofCode n = some par ↔ n = par.code := by
  constructor
  · intro h
    unfold Parity.ofCode at h
    split at h <;> cases h <;> rfl
  · rintro rfl
    cases par <;> rfl

/-- `decodeFrame` is the scheme its parity field names, with the other two fields, where bits 7, 6 and 0 are clear. -/
theorem decodeFrame_eq_map (fmt : Byte) : decodeFrame fmt =
    if byteField fmt 7 6 = 0 ∧ byteField fmt 0 0 = 0 then
      (Parity.ofCode (byteField fmt 5 4)).map fun par => ⟨.ofCode (byteField fmt 2 1), par, .ofCode (byteField fmt 3 3)⟩
    else none := by
  rw [decodeFrame]
  cases Parity.ofCode (byteField fmt 5 4) <;> rfl

/-- The domain of `decodeFrame`. -/
theorem isSome_decodeFrame_iff (fmt : Byte) : (decodeFrame fmt).isSome = true ↔
    byteField fmt 7 6 = 0 ∧ byteField fmt 0 0 = 0 ∧ byteField fmt 5 4 ≠ 1 := by
  rw [decodeFrame_eq_map, ← and_assoc]
  split
  · next hclear => rw [Option.isSome_map, Parity.isSome_ofCode (byteField_lt fmt 5 4), and_iff_right hclear]
  · next hclear => exact iff_of_false Bool.false_ne_true fun h => hclear h.1

/-- The fields of a format that `decodeFrame` gives. -/
theorem decodeFrame_fields {fmt : Byte} {f : FrameFormat} (h : decodeFrame fmt = some f) :
    f.size = .ofCode (byteField fmt 2 1) ∧ byteField fmt 5 4 = f.parity.code ∧ f.stop = .ofCode (byteField fmt 3 3) := by
  rw [decodeFrame_eq_map, Option.ite_none_right_eq_some, Option.map_eq_some_iff] at h
  obtain ⟨-, par, hpar, rfl⟩ := h
  exact ⟨rfl, (Parity.ofCode_eq_some_iff par).1 hpar, rfl⟩

/-- A decoded parity is a given scheme when `PAR` is that scheme's code. -/
theorem decodeFrame_parity_iff {fmt : Byte} {f : FrameFormat} (h : decodeFrame fmt = some f) (par : Parity) :
    f.parity = par ↔ byteField fmt 5 4 = par.code := by
  obtain ⟨-, hcode, -⟩ := decodeFrame_fields h
  rw [← Parity.ofCode_eq_some_iff, (Parity.ofCode_eq_some_iff f.parity).2 hcode, Option.some_inj]

/-- The formula of `encodeFrame`, on each of the 24 formats of R78. -/
theorem encodeFrame_eq_or (f : FrameFormat) : encodeFrame f =
    ((match f.parity with | .none => 0 | .even => 2 | .odd => 3 : Byte) <<< 4) |||
      (BitVec.ofNat 8 (f.stop.count - 1) <<< 3) ||| (BitVec.ofNat 8 (f.size.width - 5) <<< 1) := by
  obtain ⟨size, parity, stop⟩ := f
  cases size <;> cases parity <;> cases stop <;> rfl

/-- Settles O3: the domain and the fields of `decodeFrame`, and `encodeFrame`, its inverse. -/
theorem frameFormatDecoding : Obligations.FrameFormatDecoding := by
  refine ⟨fun fmt => ?_, fun fmt f h => ?_, encodeFrame_eq_or, decodeFrame_encodeFrame⟩
  · rw [isSome_decodeFrame_iff, byteField_bit0_iff]
    exact and_congr (byteField_eq_iff fmt 7 6 0) (and_congr Iff.rfl (not_congr (byteField_eq_iff fmt 5 4 1)))
  · obtain ⟨hsize, -, hstop⟩ := decodeFrame_fields h
    refine ⟨?_, ?_, ?_, ?_, ?_⟩
    · rw [hsize, DataBits.width_ofCode (byteField_lt fmt 2 1), byteField_eq_toNat]
    · exact (decodeFrame_parity_iff h .none).trans (byteField_eq_iff fmt 5 4 0)
    · exact (decodeFrame_parity_iff h .even).trans (byteField_eq_iff fmt 5 4 2)
    · exact (decodeFrame_parity_iff h .odd).trans (byteField_eq_iff fmt 5 4 3)
    · rw [hstop, StopBits.count_ofCode (byteField_lt fmt 3 3), byteField_eq_toNat]

/-! ## Codes outside the table (R82) -/

/-- Settles O5: each of the decoder's 26 arms is under a code of the table, and what is left is the arm that answers `invalidOpcode`. -/
theorem codesOutsideTableRejected : Obligations.CodesOutsideTableRejected := by
  intro op rest hop
  have hcodes := mt (List.mem_map_of_injective BitVec.toNat_injective).1 hop
  unfold decode
  dsimp only
  split
  case h_27 => rfl
  all_goals
    next hcode =>
      rw [hcode] at hcodes
      exact absurd (by decide) hcodes

end Sys2Proof.Machine
end

section
/-! PROOF. The ring buffer (spec/40_ringbuffer.md R90 to R98; spec/10_state.md R14): what each of its operations answers in each case, and that it is a
first-in first-out queue of at most `CAP - 1` bytes. -/

namespace Sys2Proof.Machine

variable {cap : Nat} {r : RingBuf} {b : Byte}

/-! ## What each operation answers -/

theorem RingBuf.push_full (b : Byte) (hf : r.isFull cap = true) : r.push cap b = (r, false) := if_pos hf

theorem RingBuf.push_notFull (b : Byte) (hf : r.isFull cap = false) :
    r.push cap b = ({ r with storage := Memory.write none r.storage r.head b, head := nextIndex cap r.head }, true) :=
  if_neg (Bool.eq_false_iff.1 hf)

theorem RingBuf.peek_empty (he : r.isEmpty = true) : r.peek = .ok none := if_pos he

theorem RingBuf.peek_written (he : r.isEmpty = false) (hb : Memory.read none r.storage r.tail = some b) :
    r.peek = .ok (some b) := by
  rw [RingBuf.peek, if_neg (Bool.eq_false_iff.1 he), hb]

theorem RingBuf.pop_empty (he : r.isEmpty = true) : r.pop cap = .ok (none, r) := by
  rw [RingBuf.pop, RingBuf.peek_empty he]

theorem RingBuf.pop_written (he : r.isEmpty = false) (hb : Memory.read none r.storage r.tail = some b) :
    r.pop cap = .ok (some b, { r with tail := nextIndex cap r.tail }) := by
  rw [RingBuf.pop, RingBuf.peek_written he hb]

/-- R94: `RB.PUSH` returns `false` exactly when `RB.ISFULL` is true. -/
theorem RingBuf.push_snd (cap : Nat) (r : RingBuf) (b : Byte) : (r.push cap b).2 = !r.isFull cap := by
  rcases RingBuf.push_cases cap r b with ⟨hf, e⟩ | ⟨hf, e⟩ <;> rw [e, hf] <;> rfl

/-- Both clears leave an empty buffer (R96). -/
theorem RingBuf.isEmpty_clear0 (r : RingBuf) : r.clear0.isEmpty = true := RingBuf.isEmpty_iff.2 rfl

theorem RingBuf.isEmpty_clearH (r : RingBuf) : r.clearH.isEmpty = true := RingBuf.isEmpty_iff.2 rfl

/-! ## The rows -/

/-- Putting back the buffer that is there changes nothing. -/
@[simp] theorem Port.setQueue_queue (p : Port) (q : Queue) : p.setQueue q (p.queue q) = p := by cases q <;> rfl

theorem exec_rbPush {q : Queue} {s : State} {r' : RingBuf} {ok : Bool} (h : (s.port.queue q).push (capOf s.cfg q) b = (r', ok)) :
    exec (.rbPush q b) s = .next { s with port := s.port.setQueue q r', returned := some (.bool ok) } := by
  show execRbPush q b s = _
  rw [execRbPush, h]
  rfl

theorem exec_rbPop {q : Queue} {s : State} {v : Option Byte} {r' : RingBuf}
    (h : (s.port.queue q).pop (capOf s.cfg q) = .ok (v, r')) :
    exec (.rbPop q) s = .next { s with port := s.port.setQueue q r', returned := some (.byte v) } := by
  show execRbPop q s = _
  rw [execRbPop, h]
  rfl

theorem exec_rbPeek {q : Queue} {s : State} {v : Option Byte} (h : (s.port.queue q).peek = .ok v) :
    exec (.rbPeek q) s = .next { s with returned := some (.byte v) } := by
  show execRbPeek q s = _
  rw [execRbPeek, h]
  rfl

/-- Settles O13: the two ways of a push. -/
theorem pushStoresAtHeadUnlessFull : Obligations.PushStoresAtHeadUnlessFull := by
  rintro q b s r cap rfl rfl
  refine ⟨fun hfull => ?_, fun hnot => ?_⟩
  · rw [exec_rbPush (RingBuf.push_full b (RingBuf.isFull_iff.2 hfull)), Port.setQueue_queue]
  · exact exec_rbPush (RingBuf.push_notFull b (RingBuf.isFull_false_iff.2 hnot))

/-- Settles O14: an empty buffer, and one whose slot at `tail` is written. -/
theorem popAndPeekReturnByteAtTail : Obligations.PopAndPeekReturnByteAtTail := by
  rintro q s r rfl
  refine ⟨fun hempty => ?_, fun b hne hb => ?_⟩
  · have he := RingBuf.isEmpty_iff.2 hempty
    rw [exec_rbPop (RingBuf.pop_empty he), Port.setQueue_queue]
    exact ⟨rfl, exec_rbPeek (RingBuf.peek_empty he)⟩
  · have he := RingBuf.isEmpty_false_iff.2 hne
    exact ⟨exec_rbPop (RingBuf.pop_written he hb), exec_rbPeek (RingBuf.peek_written he hb)⟩

/-- Settles O15: the three rows return the model's tests, and the tests are facts about the count. -/
theorem countAndTestsOfABuffer : Obligations.CountAndTestsOfABuffer := by
  rintro q s r cap rfl rfl
  refine ⟨rfl, rfl, rfl, fun b => ?_, fun hh ht => ⟨full_iff_count hh ht, empty_iff_count hh ht, ?_⟩⟩
  · rw [RingBuf.push_snd, Bool.not_eq_false', RingBuf.isFull_iff]
  · exact Nat.le_sub_one_of_lt (Nat.mod_lt _ (Nat.zero_lt_of_lt hh))

/-- Settles O16: each form is its row's assignment to the indices. -/
theorem clearSetsIndicesOnly : Obligations.ClearSetsIndicesOnly := by
  rintro q s r rfl
  exact ⟨rfl, rfl⟩

/-! ## The bounded queue (R98, R14) -/

/-- The count is the number of unread bytes. -/
theorem RingBuf.length_unread (h : r.wf cap = true) : (r.unread cap).length = r.available cap := by
  calc (r.unread cap).length = (r.slots cap).length := by rw [← RingBuf.map_some_unread h, List.length_map]
    _ = r.available cap := by rw [RingBuf.slots, List.length_map, List.length_range]

/-- R98(a): one slot is never used. -/
theorem RingBuf.length_unread_le (h : r.wf cap = true) : (r.unread cap).length ≤ cap - 1 := by
  obtain ⟨hh, -⟩ := RingBuf.wf_iff.1 h
  rw [RingBuf.length_unread h]
  exact Nat.le_sub_one_of_lt (Nat.mod_lt _ (Nat.zero_lt_of_lt hh))

/-- A buffer is full when it holds `CAP - 1` unread bytes. -/
theorem RingBuf.isFull_iff_length (h : r.wf cap = true) : r.isFull cap = true ↔ (r.unread cap).length = cap - 1 := by
  obtain ⟨hh, ht, -⟩ := RingBuf.wf_iff.1 h
  rw [RingBuf.isFull_iff, full_iff_count hh ht, RingBuf.length_unread h, RingBuf.available]

/-- A peek sees the oldest unread byte, and a pop takes it away. -/
theorem RingBuf.peek_pop_unread (h : r.wf cap = true) : r.peek = .ok (r.unread cap).head? ∧
    ∃ r', r.pop cap = .ok ((r.unread cap).head?, r') ∧ r'.unread cap = (r.unread cap).tail := by
  cases he : r.isEmpty with
  | true =>
    rw [RingBuf.unread_of_isEmpty he]
    exact ⟨RingBuf.peek_empty he, r, RingBuf.pop_empty he, RingBuf.unread_of_isEmpty he⟩
  | false =>
    obtain ⟨b, hb⟩ := RingBuf.read_tail_of_wf h he
    rw [RingBuf.unread_pop h he hb]
    exact ⟨RingBuf.peek_written he hb, _, RingBuf.pop_written he hb, rfl⟩

/-- A push succeeds below `CAP - 1` unread bytes and appends then; otherwise it leaves them. -/
theorem RingBuf.push_unread (b : Byte) (h : r.wf cap = true) :
    (r.push cap b).2 = decide ((r.unread cap).length < cap - 1) ∧
    (r.push cap b).1.unread cap = if (r.unread cap).length < cap - 1 then r.unread cap ++ [b] else r.unread cap := by
  cases hf : r.isFull cap with
  | true =>
    have hlen : ¬(r.unread cap).length < cap - 1 := Nat.not_lt_of_ge ((RingBuf.isFull_iff_length h).1 hf).ge
    rw [RingBuf.push_full b hf, if_neg hlen, decide_eq_false hlen]
    exact ⟨rfl, rfl⟩
  | false =>
    have hlen : (r.unread cap).length < cap - 1 :=
      Nat.lt_of_le_of_ne (RingBuf.length_unread_le h) (mt (RingBuf.isFull_iff_length h).2 (Bool.eq_false_iff.1 hf))
    rw [RingBuf.push_notFull b hf, if_pos hlen, decide_eq_true hlen]
    exact ⟨rfl, RingBuf.unread_push b h hf⟩

/-- Settles O17: each operation on a well-formed buffer is the queue's operation on its unread bytes. -/
theorem ringBufferRefinesBoundedQueue : Obligations.RingBufferRefinesBoundedQueue := by
  intro cap r h
  obtain ⟨hpeek, hpop⟩ := RingBuf.peek_pop_unread h
  exact ⟨(RingBuf.length_unread h).symm, RingBuf.length_unread_le h, hpeek, hpop, fun b => RingBuf.push_unread b h,
    RingBuf.unread_of_isEmpty r.isEmpty_clear0, RingBuf.unread_of_isEmpty r.isEmpty_clearH⟩

end Sys2Proof.Machine
end

section
/-! PROOF. Line configuration (spec/41_lineconfig.md): the rounding-error test (R101), what the divisor encoder answers in each case and how good its
answer is (R100, R104), the frame encoder (R103), and that `BEGIN` step 2 alone changes what they have computed (R105). -/

namespace Sys2Proof.Machine

variable {s t : State} {c : Cfg} {p : Port} {fClk k q baud tol : Nat}

/-! ## The rounding-error test (R101) -/

/-- R101 in the integers, as the spec writes it. -/
theorem errgt_iff_int : errgt fClk k q baud tol = true ↔
    ((tol * k * q * baud : Nat) : Int) < |(fClk : Int) - (k * q * baud : Nat)| * 1000000 := by
  rw [errgt_iff, Int.abs_eq_natAbs]
  exact Int.ofNat_lt.symm

/-- The error of the rate produced, `fClk / m`, relative to the request, over the common denominator `m * b`. -/
theorem relativeError_eq {F m b : ℚ} (hm : 0 < m) : |F / m - b| / b = |F - m * b| / (m * b) := by
  have hrate : F / m - b = (F - m * b) / m := by field_simp
  rw [hrate, abs_div, abs_of_pos hm, div_div]

/-- What the integer test decides: the relative error in parts per million is above `tol`. -/
theorem errgt_iff_relativeError (hk : 0 < k) (hq : 0 < q) (hbaud : 0 < baud) :
    errgt fClk k q baud tol = true ↔ (tol : ℚ) / 1000000 < |(fClk : ℚ) / (k * q) - baud| / baud := by
  have hm : (0 : ℚ) < k * q := by positivity
  have hb : (0 : ℚ) < baud := by exact_mod_cast hbaud
  rw [errgt_iff_int, relativeError_eq hm, div_lt_div_iff₀ (by norm_num) (mul_pos hm hb), ← mul_assoc, ← mul_assoc]
  exact_mod_cast Iff.rfl

/-- Settles O9: the integer test is R101's, and clearing denominators gives the relative error. -/
theorem roundingErrorTestIsExact : Obligations.RoundingErrorTestIsExact :=
  fun _ _ _ _ _ => ⟨errgt_iff_int, errgt_iff_relativeError⟩

/-! ## The quotient (R100, R104) -/

/-- `quotient` rounds to the nearest: its rate constant is at most half a step of `k * baud` away from the clock. -/
theorem two_mul_abs_sub_quotient_le (hk : 2 ∣ k) (hpos : 0 < k * baud) :
    2 * |(fClk : Int) - (k * quotient fClk k baud * baud : Nat)| ≤ (k * baud : Nat) := by
  have hhalf : 2 * (k / 2 * baud) = k * baud := by rw [← mul_assoc, Nat.mul_div_cancel' hk]
  have hlo : k * baud * quotient fClk k baud ≤ fClk + k / 2 * baud := Nat.mul_div_le _ _
  have hhi : fClk + k / 2 * baud < k * baud * quotient fClk k baud + k * baud := Nat.lt_mul_div_succ _ hpos
  rw [Nat.mul_right_comm k]
  generalize k * baud * quotient fClk k baud = near at *
  rcases abs_cases ((fClk : Int) - (near : Nat)) with ⟨e, -⟩ | ⟨e, -⟩ <;> rw [e] <;> omega

/-- A divisor that was returned is one below the quotient of its mode, which fits and is within the mode's tolerance. -/
theorem lcDivisor_ok_succ {u2x : Bool} {div : Nat} (h : lcDivisor c baud = .ok (u2x, div)) :
    div + 1 = quotient c.fClk (if u2x then 8 else 16) baud ∧ div ≤ c.divMax ∧
    (u2x = false → errgt c.fClk 16 (div + 1) baud c.tolSwitchPpm = false) ∧ (u2x = true → tooFar c (div + 1) baud = false) := by
  obtain ⟨-, ⟨rfl, rfl, hfit, herr⟩ | ⟨rfl, rfl, hfit, herr⟩⟩ := lcDivisor_ok h <;>
    obtain ⟨hpos, hmax⟩ := fits_iff.1 hfit <;>
    rw [Nat.sub_add_cancel hpos]
  · exact ⟨rfl, by omega, fun _ => herr, nofun⟩
  · exact ⟨rfl, by omega, nofun, fun _ => herr⟩

/-- Settles O11: the divisor is one below the quotient of its mode, which is the nearest and has passed the tests of its mode. -/
theorem returnedDivisorIsSound : Obligations.ReturnedDivisorIsSound := by
  rintro c baud u2x div k rfl h
  obtain ⟨hbaud, -⟩ := lcDivisor_ok h
  obtain ⟨hdiv, hmax, hswitch, hfail⟩ := lcDivisor_ok_succ h
  refine ⟨hmax, ?_, hswitch, fun tol hu htol => ?_⟩
  · rw [hdiv]
    exact two_mul_abs_sub_quotient_le (by cases u2x <;> decide)
      (Nat.mul_pos (by cases u2x <;> decide) (Nat.pos_of_ne_zero hbaud))
  · have hnear := hfail hu
    rwa [tooFar, htol] at hnear

/-! ## The cases of the divisor encoder (R100) -/

/-- R100 as one equation, for a rate that is not zero: the standard divisor where it fits and is near enough, otherwise the double-speed one. -/
theorem lcDivisor_of_ne_zero (hbaud : baud ≠ 0) : lcDivisor c baud =
    if fits c (quotient c.fClk 16 baud) && !errgt c.fClk 16 (quotient c.fClk 16 baud) baud c.tolSwitchPpm then
      .ok (false, quotient c.fClk 16 baud - 1)
    else if !fits c (quotient c.fClk 8 baud) then .error .divisorRange
    else if tooFar c (quotient c.fClk 8 baud) baud then .error .tolerance
    else .ok (true, quotient c.fClk 8 baud - 1) := if_neg hbaud

/-- The test for the standard mode. -/
theorem standardMode_iff : (fits c q && !errgt c.fClk 16 q baud tol) = true ↔
    1 ≤ q ∧ q ≤ c.divMax + 1 ∧ errgt c.fClk 16 q baud tol = false := by
  rw [Bool.and_eq_true, Bool.not_eq_true', fits_iff, and_assoc]

theorem not_fits_iff : (!fits c q) = true ↔ ¬(1 ≤ q ∧ q ≤ c.divMax + 1) := by
  rw [Bool.not_eq_true', ← Bool.not_eq_true, fits_iff]

/-- The double-speed divisor is too far off when there is a tolerance and its error is above it (R102). -/
theorem tooFar_iff : tooFar c q baud = true ↔ ∃ tol, c.tolFailPpm = some tol ∧ errgt c.fClk 8 q baud tol = true := by
  unfold tooFar
  cases c.tolFailPpm <;> simp

theorem exec_lcDivisor_ok {u2x : Bool} {div : Nat} (h : lcDivisor s.cfg baud = .ok (u2x, div)) :
    exec (.lcDivisor baud) s = .next (s.give (.divisor u2x div)) := by
  simp only [exec, execLcDivisor, h]

theorem exec_lcDivisor_error {r : ConfigReason} (h : lcDivisor s.cfg baud = .error r) :
    exec (.lcDivisor baud) s = .next (s.give (.configError r)) := by
  simp only [exec, execLcDivisor, h]

/-- Settles O10: one branch of R100 for each case. -/
theorem divisorEncoderResult : Obligations.DivisorEncoderResult := by
  rintro baud s _ _ rfl rfl
  refine ⟨fun h0 => ?_, fun h0 hstd => ?_, fun h0 hstd => ?_⟩
  · exact exec_lcDivisor_error (if_pos h0)
  · exact exec_lcDivisor_ok ((lcDivisor_of_ne_zero h0).trans (if_pos (standardMode_iff.2 hstd)))
  have hdouble := (lcDivisor_of_ne_zero h0).trans (if_neg (mt standardMode_iff.1 hstd))
  refine ⟨fun hfit => exec_lcDivisor_error (hdouble.trans (if_pos (not_fits_iff.2 hfit))), fun hfit => ?_⟩
  have hfast := hdouble.trans (if_neg fun hnot => not_fits_iff.1 hnot hfit)
  refine ⟨fun tol htol herr => ?_, fun hnear => ?_⟩
  · exact exec_lcDivisor_error (hfast.trans (if_pos (tooFar_iff.2 ⟨tol, htol, herr⟩)))
  · refine exec_lcDivisor_ok (hfast.trans (if_neg fun hfar => ?_))
    obtain ⟨tol, htol, herr⟩ := tooFar_iff.1 hfar
    exact Bool.false_ne_true ((hnear tol htol).symm.trans herr)

/-! ## The frame encoder (R103) -/

theorem DataBits.code_ofCode {n : Nat} (h : n < 4) : (DataBits.ofCode n).code = n := by
  interval_cases n <;> rfl

theorem StopBits.code_ofCode {n : Nat} (h : n < 2) : (StopBits.ofCode n).code = n := by
  interval_cases n <;> rfl

/-- A byte is made of its fields of R75. -/
theorem toNat_eq_byteFields (v : Byte) : v.toNat =
    byteField v 7 6 * 64 + byteField v 5 4 * 16 + byteField v 3 3 * 8 + byteField v 2 1 * 2 + byteField v 0 0 := by
  have hlt := v.isLt
  simp only [byteField]
  omega

/-- A byte that spells a format is the pattern of that format. -/
theorem encodeFrame_of_decodeFrame {v : Byte} {fmt : FrameFormat} (h : decodeFrame v = some fmt) : encodeFrame fmt = v := by
  obtain ⟨hsize, hparity, hstop⟩ := decodeFrame_fields h
  obtain ⟨hhigh, hlow, -⟩ := (isSome_decodeFrame_iff v).1 (Option.isSome_of_mem h)
  have hfields := toNat_eq_byteFields v
  rw [hhigh, hlow, Nat.zero_mul, Nat.zero_add, Nat.add_zero] at hfields
  rw [encodeFrame, hsize, hstop, ← hparity, DataBits.code_ofCode (byteField_lt v 2 1), StopBits.code_ofCode (byteField_lt v 3 3),
    ← hfields, BitVec.ofNat_toNat, BitVec.setWidth_eq]

/-- Settles O12: `LC.FRAME` gives the pattern, and the fields of a legal byte are those of its pattern. -/
theorem frameEncoderResult : Obligations.FrameEncoderResult :=
  fun _ _ => ⟨rfl, fun _ => encodeFrame_of_decodeFrame⟩

/-! ## What `BEGIN` step 2 programs (R105) -/

/-- `U2X`, `DIV`, `FRAME` and `line`: what only `BEGIN` step 2 changes. -/
def Port.lineConfig (p : Port) : Bool × Nat × Byte × Option Line := (p.u2x, p.div, p.frame, p.line)

theorem Port.lineConfig_eq_iff {p' : Port} : p'.lineConfig = p.lineConfig ↔
    p'.u2x = p.u2x ∧ p'.div = p.div ∧ p'.frame = p.frame ∧ p'.line = p.line := by
  simp only [Port.lineConfig, Prod.mk.injEq]

theorem State.returnValue_lineConfig (s : State) (v : Result) : (s.returnValue v).port.lineConfig = s.port.lineConfig :=
  congrArg _ (s.returnValue_port v)

theorem Port.setQueue_lineConfig (p : Port) (q : Queue) (r : RingBuf) : (p.setQueue q r).lineConfig = p.lineConfig := by
  cases q <;> rfl

/-! ### Steps of the foreground -/

theorem manualDrain_lineConfig (h : manualDrain s = .next t) : t.port.lineConfig = s.port.lineConfig := by
  rcases manualDrain_next h with ⟨-, rfl⟩ | ⟨b, -, -, -, rfl⟩ <;> rfl

theorem writeStep1_lineConfig {b : Byte} (h : writeStep1 b s = .next t) : t.port.lineConfig = s.port.lineConfig := by
  obtain ⟨-, ⟨-, -, -, rfl⟩ | ⟨-, rfl⟩⟩ := writeStep1_next h
  · exact State.returnValue_lineConfig _ _
  · rfl

theorem writeStep2_lineConfig {b : Byte} (h : writeStep2 b s = .next t) : t.port.lineConfig = s.port.lineConfig := by
  rcases writeStep2_next h with ⟨-, rfl⟩ | ⟨-, -, -, hd⟩
  · rfl
  · exact manualDrain_lineConfig hd

theorem flushStep_lineConfig (h : flushStep s = .next t) : t.port.lineConfig = s.port.lineConfig := by
  rcases flushStep_next h with ⟨-, rfl⟩ | ⟨-, -, -, rfl⟩ | ⟨-, -, -, -, hd⟩
  · exact State.returnValue_lineConfig _ _
  · exact State.returnValue_lineConfig _ _
  · exact manualDrain_lineConfig hd

/-- At every control point but `Begin2`. -/
theorem foregroundStep_lineConfig (h : foregroundStep s = .next t)
    (hpc : ∀ u2x div pat baud fmt, s.fg.pc ≠ .begin2 u2x div pat baud fmt) : t.port.lineConfig = s.port.lineConfig := by
  unfold foregroundStep at h
  cases hat : s.fg.pc <;> rw [hat] at h
  case idle => cases h
  case begin2 => exact (hpc _ _ _ _ _ hat).elim
  case begin3 => cases h; exact State.returnValue_lineConfig _ _
  case write1 => exact writeStep1_lineConfig h
  case write2 => exact writeStep2_lineConfig h
  case write3 => cases h; exact State.returnValue_lineConfig _ _
  case flush1 => exact flushStep_lineConfig h
  case end2 => cases h; exact State.returnValue_lineConfig _ _
  case buf => cases h; rw [bufStep_port]
  case pgm => rw [pgmStep_port h]

/-! ### Operations -/

theorem execFlush_lineConfig (h : execFlush s = .next t) : t.port.lineConfig = s.port.lineConfig := by
  obtain ⟨-, hf | ⟨-, rfl⟩⟩ := execFlush_next h
  · exact flushStep_lineConfig (s := s.issue .flush1) hf
  · rfl

theorem Port.isrRx_lineConfig (c : Cfg) (p : Port) : (p.isrRx c).lineConfig = p.lineConfig := by
  rcases p.isrRx_cases c with ⟨-, e⟩ | ⟨-, e⟩ <;> rw [e] <;> rfl

theorem execIsrTx_lineConfig (h : execIsrTx s = .next t) : t.port.lineConfig = s.port.lineConfig := by
  obtain ⟨-, ⟨-, rfl⟩ | ⟨b, -, -, -, rfl⟩⟩ := execIsrTx_next h <;> rfl

theorem Port.rxarrive_lineConfig (p : Port) (f : Frame) : (p.rxarrive f).lineConfig = p.lineConfig := by
  rcases p.rxarrive_cases f with ⟨-, e⟩ | ⟨-, -, e⟩ | ⟨-, -, e⟩ <;> rw [e] <;> rfl

/-- `BEGIN` included, whose operation is its step 1 (R111). -/
theorem exec_lineConfig {i : Instr} (h : exec i s = .next t) : t.port.lineConfig = s.port.lineConfig := by
  cases i with
  | gieSet => obtain ⟨-, e⟩ := State.whenIdle_next h; cases e; rfl
  | gieClr => obtain ⟨-, e⟩ := State.whenIdle_next h; cases e; rfl
  | beginCmd baud fmt => obtain ⟨-, e⟩ := State.whenIdle_next h; cases e; rw [beginStep1_port]
  | endCmd => obtain ⟨-, e⟩ := State.whenIdle_next h; cases e; rfl
  | available => obtain ⟨-, e⟩ := State.whenIdle_next h; cases e; exact State.returnValue_lineConfig _ _
  | ready => obtain ⟨-, e⟩ := State.whenIdle_next h; cases e; exact State.returnValue_lineConfig _ _
  | peek => obtain ⟨-, v, -, rfl⟩ := execPeek_next h; exact State.returnValue_lineConfig _ _
  | read => obtain ⟨-, v, r, -, rfl⟩ := execRead_next h; exact State.returnValue_lineConfig _ _
  | write b => exact writeStep1_lineConfig (s := s.issue (.write1 b)) (execWrite_next h).2
  | writebuf bs => obtain ⟨-, -, rfl⟩ := execWritebuf_next h; rw [bufStep_port]; rfl
  | flush => exact execFlush_lineConfig h
  | printpgm a => obtain ⟨-, -, -, hp⟩ := execPrintpgm_next h; rw [pgmStep_port hp]; rfl
  | rbPush q b => cases h; exact s.port.setQueue_lineConfig q _
  | rbPop q => obtain ⟨v, r, -, rfl⟩ := execRbPop_next h; exact s.port.setQueue_lineConfig q r
  | rbPeek q => obtain ⟨v, -, rfl⟩ := execRbPeek_next h; rfl
  | rbAvailable q => cases h; rfl
  | rbIsfull q => cases h; rfl
  | rbIsempty q => cases h; rfl
  | rbClear q form => cases h; exact s.port.setQueue_lineConfig q _
  | lcDivisor baud => obtain ⟨v, rfl⟩ := execLcDivisor_next h; rfl
  | lcFrame fmt => cases h; rfl
  | isrRx => obtain ⟨-, rfl⟩ := execIsrRx_next h; exact s.port.isrRx_lineConfig s.cfg
  | isrTx => exact execIsrTx_lineConfig h
  | hwTxload => obtain ⟨-, -, -, f, -, rfl⟩ := execHwTxload_next h; rfl
  | hwTxdone => obtain ⟨f, -, rfl⟩ := execHwTxdone_next h; rfl
  | hwRxarrive f => cases execHwRxarrive_next h; exact s.port.rxarrive_lineConfig f

/-- Settles O49: operation by operation, and control point by control point. -/
theorem onlyBeginConfigures : Obligations.OnlyBeginConfigures :=
  ⟨fun _ _ _ h => Port.lineConfig_eq_iff.1 (exec_lineConfig h),
    fun _ _ h hpc => Port.lineConfig_eq_iff.1 (foregroundStep_lineConfig h hpc)⟩

end Sys2Proof.Machine
end

section
/-! PROOF. The port commands (spec/42_serialport.md R110 to R129): what `return` does, what each numbered step of a command answers in each case of
its rule, a manual drain against `ISR.TX` (R119), and a whole `BEGIN` from its record to `Ok` (R129). -/

namespace Sys2Proof.Machine

variable {s t : State} {c : Cfg} {p : Port} {b : Byte} {pc : Pc} {baud div : Nat} {fmt : FrameFormat} {u2x : Bool}

/-! ## Issuing a command (R110(a)) -/

/-- Away from `Idle` a command is refused, whatever it is. -/
theorem State.whenIdle_of_not_idle (h : s.fg.pc ≠ .idle) (k : Step) : s.whenIdle k = .refused .commandNotIdle := if_neg h

/-- Settles O19: the meaning of every host command is guarded by `whenIdle`; the other operations are no host commands. -/
theorem commandsNeedIdle : Obligations.CommandsNeedIdle := by
  intro i s hhost hpc
  cases i with
  | beginCmd _ _ | endCmd | available | peek | read | write _ | writebuf _ | flush | ready | printpgm _ | gieSet | gieClr =>
    exact State.whenIdle_of_not_idle hpc _
  | rbPush _ _ | rbPop _ | rbPeek _ | rbAvailable _ | rbIsfull _ | rbIsempty _ | rbClear _ _ | lcDivisor _ | lcFrame _ | isrRx
  | isrTx | hwTxload | hwTxdone | hwRxarrive _ => cases hhost

/-! ## `return v` (R110(c), R36) -/

theorem State.returnValue_of_none (v : Result) (hret : s.fg.ret = none) :
    s.returnValue v = { s with fg := { s.fg with pc := .idle }, results := s.results ++ [v] } := by
  rw [State.returnValue, hret]

theorem State.returnValue_of_some (v : Result) (hret : s.fg.ret = some pc) :
    s.returnValue v = { s with fg := { s.fg with pc := pc.resume s.cfg.bufCount v, ret := none } } := by
  rw [State.returnValue, hret]

/-- Only a `WRITEBUF` has a count to resume with. -/
theorem Pc.resume_of_ne_buf (form : BufCount) (v : Result) (h : ∀ bs n, pc ≠ .buf bs n) : pc.resume form v = pc := by
  cases pc with
  | buf bs n => exact (h bs n rfl).elim
  | idle | begin2 _ _ _ _ _ | begin3 | write1 _ | write2 _ | write3 | flush1 | end2 | pgm _ => rfl

/-- A one-step command gives its result to the host and changes nothing else. -/
theorem State.returnValue_of_idle (v : Result) (hpc : s.fg.pc = .idle) (hret : s.fg.ret = none) :
    s.returnValue v = { s with results := s.results ++ [v] } := by
  rw [State.returnValue_of_none v hret, ← hpc]

/-- A command that returns in the step that issues it, having changed the port to `p`. -/
theorem State.returnValue_issue (pc : Pc) (p : Port) (v : Result) (hpc : s.fg.pc = .idle) (hret : s.fg.ret = none) :
    State.returnValue { s.issue pc with port := p } v =
      { s with port := p, fg := { s.fg with port := s.here }, results := s.results ++ [v] } := by
  refine (State.returnValue_of_none (s := { s.issue pc with port := p }) v hret).trans ?_
  rw [← hpc]
  rfl

/-- Settles O20: an empty return slot, a slot without a count, and a slot `Buf(bs, n)` under the two forms of log entry 31. -/
theorem returnGoesToCaller : Obligations.ReturnGoesToCaller := by
  refine fun s v => ⟨State.returnValue_of_none v, fun pc hret hbuf => ?_, fun bs n hret => ⟨fun hform => ?_, ?_⟩⟩
  · rw [State.returnValue_of_some v hret, Pc.resume_of_ne_buf _ v hbuf]
  · rw [State.returnValue_of_some v hret, Pc.resume_buf, hform]
    rfl
  · rintro hform k rfl
    rw [State.returnValue_of_some _ hret, Pc.resume_buf, hform]
    rfl

/-! ## `BEGIN` (R111 to R113, R129) -/

theorem exec_beginCmd_ok (fmt : FrameFormat) (hpc : s.fg.pc = .idle) (hdiv : lcDivisor s.cfg baud = .ok (u2x, div)) :
    exec (.beginCmd baud fmt) s = .next (s.issue (.begin2 u2x div (encodeFrame fmt) baud fmt)) := by
  show s.whenIdle _ = _
  rw [State.whenIdle_of_idle hpc, beginStep1, hdiv]
  rfl

theorem exec_beginCmd_error {r : ConfigReason} (fmt : FrameFormat) (hpc : s.fg.pc = .idle)
    (hdiv : lcDivisor s.cfg baud = .error r) : exec (.beginCmd baud fmt) s = .next (s.returnValue (.configError r)) := by
  show s.whenIdle _ = _
  rw [State.whenIdle_of_idle hpc, beginStep1, hdiv]
  rfl

/-- Settles O21: `LC.DIVISOR` answers a divisor, or the reason of `ConfigError`. -/
theorem beginComputesFirst : Obligations.BeginComputesFirst := by
  refine fun baud fmt s hpc => ⟨fun u2x div hdiv => exec_beginCmd_ok fmt hpc hdiv, fun r hdiv hret => ?_⟩
  rw [exec_beginCmd_error fmt hpc hdiv, State.returnValue_of_idle _ hpc hret]

/-- The port as `BEGIN` step 2 programs it (R112). -/
def Port.programmed (p : Port) (u2x : Bool) (div : Nat) (pat : Byte) (line : Line) : Port :=
  { p with
    u2x := u2x, div := div, frame := pat, line := some line
    rxen := true, txen := true, rxcie := true, dreie := false }

/-- The port as `BEGIN` step 3 leaves it (R113). -/
def Port.started (p : Port) : Port := { p with rx := p.rx.clear0, tx := p.tx.clear0, transmitting := false, active := true }

/-- A divisor up to `DIV_MAX` is stored as it is (R27, log entry 16). -/
theorem foregroundStep_begin2 {pat : Byte} (hpc : s.fg.pc = .begin2 u2x div pat baud fmt) (hdiv : div ≤ s.cfg.divMax) :
    foregroundStep s = .next (State.goto { s with port := s.port.programmed u2x div pat ⟨baud, fmt⟩ } .begin3) := by
  have hlt : div < 2 ^ s.cfg.divBits := Nat.lt_of_le_pred (Nat.two_pow_pos _) hdiv
  rw [foregroundStep, hpc]
  simp only [beginStep2, Nat.mod_eq_of_lt hlt]
  rfl

theorem foregroundStep_begin3 (hpc : s.fg.pc = .begin3) :
    foregroundStep s = .next (State.returnValue { s with port := s.port.started } .ok) := by
  rw [foregroundStep, hpc]
  rfl

/-- Settles O22: steps 2 and 3 are the assignments of R112 and R113. -/
theorem beginProgramsThenResets : Obligations.BeginProgramsThenResets :=
  ⟨fun _ _ _ _ _ _ hpc hdiv => foregroundStep_begin2 hpc hdiv, fun _ hpc => foregroundStep_begin3 hpc⟩

/-! ### The record of `BEGIN` (R71) -/

theorem toNat_ofNat_byte {n : Nat} (h : n < 256) : (BitVec.ofNat 8 n).toNat = n := by
  rw [BitVec.toNat_ofNat, Nat.mod_eq_of_lt h]

/-- Reading a number back from its groups, whatever follows; by induction on the fuel that bounds their number. -/
theorem decodeNat_encodeNatFuel (rest : List Byte) (fuel n : Nat) (h : n ≤ fuel) :
    decodeNat (encodeNatFuel fuel n ++ rest) = .ok (n, rest) := by
  induction fuel generalizing n with
  | zero =>
    obtain rfl : n = 0 := by omega
    rfl
  | succ fuel ih =>
    rw [encodeNatFuel]
    split
    · next hlast =>
      rw [List.singleton_append, decodeNat, toNat_ofNat_byte (by omega), if_pos hlast]
    · next hmore =>
      rw [List.cons_append, decodeNat, toNat_ofNat_byte (by omega), if_neg (by omega), ih (n / 128) (by omega)]
      have hgroups : n % 128 + 128 - 128 + 128 * (n / 128) = n := by omega
      have hne : n / 128 ≠ 0 := by omega
      simp only [if_neg hne, hgroups]

theorem decodeNat_encodeNat (n : Nat) (rest : List Byte) : decodeNat (encodeNat n ++ rest) = .ok (n, rest) :=
  decodeNat_encodeNatFuel rest n n le_rfl

theorem decodeFormat_encodeFrame (fmt : FrameFormat) (rest : List Byte) :
    decodeFormat (encodeFrame fmt :: rest) = .ok (fmt, rest) := by
  rw [decodeFormat, decodeByte]
  simp only [decodeFrame_encodeFrame]

theorem decode_encode_beginCmd (baud : Nat) (fmt : FrameFormat) :
    decode (encode (.beginCmd baud fmt)) = .ok (.beginCmd baud fmt, []) := by
  show decode2 (decodeNat (encodeNat baud ++ [encodeFrame fmt])) decodeFormat .beginCmd = _
  rw [decodeNat_encodeNat, decode2]
  simp only [decodeFormat_encodeFrame, decode1]

/-! ### Scheduled turns on the selected port -/

/-- The first of several steps, of any machine behind the host's interface. -/
theorem hostRun_succ {M : Host.Core} {k : Nat} {s t : M.State} (h : M.step s = .next t) : M.run (k + 1) s = M.run k t := by
  rw [Host.Core.run, h]

/-- The first of several steps of this machine. -/
theorem run_succ {k : Nat} (h : step s = .next t) : core.run (k + 1) s = core.run k t := hostRun_succ (M := core) h

section Scheduled

variable {ts : List Turn}

theorem step_beginCmd_ok (hturns : s.turns = .op s.here (encode (.beginCmd baud fmt)) :: ts) (hpc : s.fg.pc = .idle)
    (hdiv : lcDivisor s.cfg baud = .ok (u2x, div)) :
    step s = .next (State.issue { s with turns := ts } (.begin2 u2x div (encodeFrame fmt) baud fmt)) := by
  have hfetch := fetch_eq_ok (State.select_here { s with turns := ts }) (decode_encode_beginCmd baud fmt) rfl
  rw [step_of_fetch hturns hfetch]
  exact exec_beginCmd_ok fmt hpc hdiv

theorem step_foreground_here (hturns : s.turns = .foreground :: ts) (hport : s.fg.port = s.here) :
    step s = foregroundStep { s with turns := ts } := by
  rw [step_foreground hturns]
  apply foregroundTurn_of_select
  rw [hport]
  exact State.select_here { s with turns := ts }

theorem step_begin2 {pat : Byte} (hturns : s.turns = .foreground :: ts) (hport : s.fg.port = s.here)
    (hpc : s.fg.pc = .begin2 u2x div pat baud fmt) (hdiv : div ≤ s.cfg.divMax) :
    step s = .next (State.goto { s with turns := ts, port := s.port.programmed u2x div pat ⟨baud, fmt⟩ } .begin3) := by
  rw [step_foreground_here hturns hport]
  exact foregroundStep_begin2 hpc hdiv

theorem step_begin3 (hturns : s.turns = .foreground :: ts) (hport : s.fg.port = s.here) (hpc : s.fg.pc = .begin3) :
    step s = .next (State.returnValue { s with turns := ts, port := s.port.started } .ok) := by
  rw [step_foreground_here hturns hport]
  exact foregroundStep_begin3 hpc

end Scheduled

/-- Settles O23: the record is decoded and issued (R111), then the two turns of the foreground program the port (R112) and start it (R113). -/
theorem beginRunsToOk : Obligations.BeginRunsToOk := by
  intro baud fmt s u2x div hturns hpc hret hdiv
  obtain ⟨-, hmax, -, -⟩ := lcDivisor_ok_succ hdiv
  calc core.run 3 s = core.run 2 _ := run_succ (step_beginCmd_ok hturns hpc hdiv)
    _ = core.run 1 _ := run_succ (step_begin2 rfl rfl rfl hmax)
    _ = core.run 0 _ := run_succ (step_begin3 rfl rfl rfl)
    _ = .next _ := congrArg Host.Outcome.next (State.returnValue_of_none .ok hret)
    _ = .next _ := by
      rw [← hpc]
      rfl

/-! ## `END` (R114, R115) -/

/-- Settles O24: step 1 is a call of `FLUSH`, step 2 the assignments of R115. -/
theorem endFlushesThenDisables : Obligations.EndFlushesThenDisables := by
  refine ⟨fun s hpc => State.whenIdle_of_idle hpc _, fun s hpc => ?_⟩
  rw [foregroundStep, hpc]
  rfl

/-! ## A manual drain (R119) -/

/-- The port once its oldest queued byte `b` has moved to `TDR`. -/
def Port.drained (c : Cfg) (p : Port) (b : Byte) : Port :=
  { p with tx := { p.tx with tail := nextIndex c.txCap p.tx.tail }, tdr := b, dre := false, txc := false }

theorem Port.drainOne_written (he : p.tx.isEmpty = false) (hb : Memory.read none p.tx.storage p.tx.tail = some b)
    (hdre : p.dre = true) : p.drainOne c = .ok (some (p.drained c b)) := by
  rw [Port.drainOne, RingBuf.pop_written he hb]
  simp only [Port.writeData, if_pos hdre]
  rfl

theorem manualDrain_written (he : s.port.tx.isEmpty = false) (hb : Memory.read none s.port.tx.storage s.port.tx.tail = some b)
    (hdre : s.port.dre = true) : manualDrain s = .next { s with port := s.port.drained s.cfg b } := by
  rw [manualDrain, Port.drainOne_written he hb hdre]

/-- A handler that is granted changes the port as its body does. -/
theorem State.takeInterrupt_of_granted {g : Bool} (hg : g = true) (p : Port) :
    s.takeInterrupt g (.ok p) = .next { s with port := p } := if_pos hg

/-- `ISR.TX` granted with a byte queued is the same move (R159). -/
theorem exec_isrTx_written (hgrant : s.port.txGrant s.cfg.isrOrder s.gie = true) (he : s.port.tx.isEmpty = false)
    (hb : Memory.read none s.port.tx.storage s.port.tx.tail = some b) :
    exec .isrTx s = .next { s with port := s.port.drained s.cfg b } := by
  obtain ⟨-, -, hdre, -⟩ := Port.txGrant_iff.1 hgrant
  have hbody : s.port.isrTx s.cfg = .ok (s.port.drained s.cfg b) := by
    rw [Port.isrTx, Port.drainOne_written he hb hdre]
  show s.takeInterrupt _ (s.port.isrTx s.cfg) = _
  rw [hbody]
  exact State.takeInterrupt_of_granted hgrant _

/-- A blocked `WRITE`, and a `FLUSH` with a byte queued, go on by a manual drain alone. -/
theorem foregroundStep_drains (he : s.port.tx.isEmpty = false)
    (hat : (∃ b, s.fg.pc = .write2 b ∧ s.port.tx.isFull s.cfg.txCap = true) ∨ (s.fg.pc = .flush1 ∧ s.port.transmitting = true))
    (h : foregroundStep s = .next t) : manualDrain s = .next t := by
  rcases hat with ⟨b, hpc, hfull⟩ | ⟨hpc, htr⟩ <;> rw [foregroundStep, hpc] at h
  · rcases writeStep2_next h with ⟨hnot, -⟩ | ⟨-, -, -, hd⟩
    · rw [hfull] at hnot; cases hnot
    · exact hd
  · rcases flushStep_next h with ⟨hnot, -⟩ | ⟨-, hempty, -⟩ | ⟨-, -, -, -, hd⟩
    · rw [htr] at hnot; cases hnot
    · rw [he] at hempty; cases hempty
    · exact hd

/-- Settles O28: the foreground step is a manual drain, and it moves the byte that `ISR.TX` moves. -/
theorem manualDrainIsTheHandlersPop : Obligations.ManualDrainIsTheHandlersPop := by
  intro s t _ hdre he _ hbehind hat h
  have hdrain : manualDrain s = .next t := foregroundStep_drains he (hat.imp_right fun ⟨hpc, htr, _⟩ => ⟨hpc, htr⟩) h
  rcases manualDrain_next hdrain with ⟨hempty, -⟩ | ⟨b, -, hb, -, rfl⟩
  · rw [he] at hempty; cases hempty
  · exact exec_isrTx_written (s := { s with gie := true, port := { s.port with dreie := true } })
      (Port.txGrant_iff.2 ⟨rfl, rfl, hdre, hbehind⟩) he hb

/-! ## `WRITE` (R116 to R118, R126) -/

theorem exec_write_of_idle (b : Byte) (hpc : s.fg.pc = .idle) : exec (.write b) s = writeStep1 b (s.issue (.write1 b)) :=
  State.whenIdle_of_idle hpc _

theorem foregroundStep_write1 (hpc : s.fg.pc = .write1 b) : foregroundStep s = writeStep1 b s := by
  rw [foregroundStep, hpc]

theorem foregroundStep_write2 (hpc : s.fg.pc = .write2 b) : foregroundStep s = writeStep2 b s := by
  rw [foregroundStep, hpc]

/-- The condition of the fast path (R116). -/
def Port.fastPath (p : Port) : Prop := p.transmitting = false ∧ p.dre = true ∧ p.tx.head = p.tx.tail

/-- The port once the fast path has put `b` in `TDR` (R116). -/
def Port.written (p : Port) (b : Byte) : Port :=
  { p with tdr := b, dre := false, txc := false, dreie := true, transmitting := true }

theorem writeStep1_inactive (b : Byte) (hact : s.port.active = false) : writeStep1 b s = .refused .portNotActive := by
  rw [writeStep1, hact]
  rfl

theorem writeStep1_fastPath (b : Byte) (hact : s.port.active = true) (hfast : s.port.fastPath) :
    writeStep1 b s = .next (State.returnValue { s with port := s.port.written b } (.count 1)) := by
  obtain ⟨htr, hdre, hempty⟩ := hfast
  rw [writeStep1, hact, htr, hdre, RingBuf.isEmpty_iff.2 hempty, Port.writeData, if_pos hdre]
  rfl

theorem writeStep1_queued (b : Byte) (hact : s.port.active = true) (hslow : ¬s.port.fastPath) :
    writeStep1 b s = .next (s.goto (.write2 b)) := by
  have htest : ¬(!s.port.transmitting && s.port.dre && s.port.tx.isEmpty) = true := by
    simpa [Port.fastPath, RingBuf.isEmpty, and_assoc] using hslow
  rw [writeStep1, hact, if_neg htest]
  rfl

/-- Settles O25: the three ways of step 1, from `Idle` and from `Write1(b)`. -/
theorem writeTakesFastPathWhenIdle : Obligations.WriteTakesFastPathWhenIdle := by
  refine fun b s => ⟨fun hpc hact => ?_, fun hpc hret hact hfast => ?_, fun hpc hact hslow => ?_, fun hpc hact => ?_,
    fun hpc hact hfast => ?_, fun hpc hact hslow => ?_⟩
  · rw [exec_write_of_idle b hpc]
    exact writeStep1_inactive b hact
  · rw [exec_write_of_idle b hpc, writeStep1_fastPath (s := s.issue (.write1 b)) b hact hfast]
    exact congrArg Host.Outcome.next (State.returnValue_issue _ _ _ hpc hret)
  · rw [exec_write_of_idle b hpc]
    exact writeStep1_queued b hact hslow
  · rw [foregroundStep_write1 hpc]
    exact writeStep1_inactive b hact
  · rw [foregroundStep_write1 hpc]
    exact writeStep1_fastPath b hact hfast
  · rw [foregroundStep_write1 hpc]
    exact writeStep1_queued b hact hslow

theorem writeStep2_push (b : Byte) (hnot : s.port.tx.isFull s.cfg.txCap = false) :
    writeStep2 b s = .next (State.goto { s with port := { s.port with tx := (s.port.tx.push s.cfg.txCap b).1 } } .write3) := by
  rw [writeStep2, hnot]
  rfl

theorem writeStep2_drain (b : Byte) (hfull : s.port.tx.isFull s.cfg.txCap = true) (hgie : s.gie = false)
    (hdre : s.port.dre = true) : writeStep2 b s = manualDrain s := by
  rw [writeStep2, hfull, hgie, hdre]
  rfl

/-- Settles O26: a push, a manual drain, and no step. -/
theorem writeEnqueuesOrDrainsOrHolds : Obligations.WriteEnqueuesOrDrainsOrHolds := by
  rintro b s cap hpc rfl
  rw [foregroundStep_write2 hpc]
  refine ⟨fun hnot => ?_, fun v hfull hgie hdre hne hv => ?_, fun hfull hno t => ?_⟩
  · have hf := RingBuf.isFull_false_iff.2 hnot
    rw [writeStep2_push b hf, RingBuf.push_notFull b hf]
    rfl
  · rw [writeStep2_drain b (RingBuf.isFull_iff.2 hfull) hgie hdre]
    exact manualDrain_written (RingBuf.isEmpty_false_iff.2 hne) hv hdre
  · rw [writeStep2_held hfull hno]
    nofun

/-- Settles O27: step 3 is the assignments of R118. -/
theorem writeArmsInterrupt : Obligations.WriteArmsInterrupt := by
  intro s hpc
  rw [foregroundStep, hpc]
  rfl

/-! ## `FLUSH` (R120) -/

theorem flushStep_noBurst (htr : s.port.transmitting = false) : flushStep s = .next (s.returnValue .done) := by
  rw [flushStep, htr]
  rfl

theorem flushStep_complete (htr : s.port.transmitting = true) (hempty : s.port.tx.head = s.port.tx.tail)
    (htxc : s.port.txc = true) :
    flushStep s = .next (State.returnValue { s with port := { s.port with transmitting := false } } .done) := by
  rw [flushStep, htr, RingBuf.isEmpty_iff.2 hempty, htxc]
  rfl

theorem flushStep_drain (htr : s.port.transmitting = true) (hgie : s.gie = false) (hdre : s.port.dre = true)
    (hne : s.port.tx.head ≠ s.port.tx.tail) : flushStep s = manualDrain s := by
  rw [flushStep, htr, RingBuf.isEmpty_false_iff.2 hne, hgie, hdre]
  rfl

/-- Settles O29: the four cases in their order. -/
theorem flushFourCases : Obligations.FlushFourCases := by
  intro s hpc
  have hstep : foregroundStep s = flushStep s := by rw [foregroundStep, hpc]
  rw [hstep]
  refine ⟨flushStep_noBurst, flushStep_complete, fun v htr hgie hdre hne hv => ?_, fun htr hnot hno t => ?_⟩
  · rw [flushStep_drain htr hgie hdre hne]
    exact manualDrain_written (RingBuf.isEmpty_false_iff.2 hne) hv hdre
  · rw [flushStep_held htr hnot hno]
    nofun

/-- A `FLUSH` that has a step takes it when it is issued. -/
theorem exec_flush_of_next (hpc : s.fg.pc = .idle) (h : flushStep (s.issue .flush1) = .next t) : exec .flush s = .next t := by
  show s.whenIdle _ = _
  rw [State.whenIdle_of_idle hpc, h]

/-- A `FLUSH` that has none stands at `Flush1` (log entry 9). -/
theorem exec_flush_of_refused {r : Refusal} (hpc : s.fg.pc = .idle) (h : flushStep (s.issue .flush1) = .refused r) :
    exec .flush s = .next (s.issue .flush1) := by
  show s.whenIdle _ = _
  rw [State.whenIdle_of_idle hpc, h]

/-- Settles O30: the four cases of `Flush1`, in the state that has been issued. -/
theorem flushIsIssued : Obligations.FlushIsIssued := by
  refine fun s hpc hret => ⟨fun htr => ?_, fun htr hempty htxc => ?_, fun v htr hgie hdre hne hv => ?_, fun htr hnot hno => ?_⟩
  · rw [exec_flush_of_next hpc (flushStep_noBurst htr)]
    exact congrArg Host.Outcome.next (State.returnValue_issue _ _ _ hpc hret)
  · rw [exec_flush_of_next hpc (flushStep_complete htr hempty htxc)]
    exact congrArg Host.Outcome.next (State.returnValue_issue _ _ _ hpc hret)
  · have hdrain := (flushStep_drain (s := s.issue .flush1) htr hgie hdre hne).trans
      (manualDrain_written (RingBuf.isEmpty_false_iff.2 hne) hv hdre)
    rw [exec_flush_of_next hpc hdrain, ← hret]
    rfl
  · rw [exec_flush_of_refused hpc (flushStep_held htr hnot hno), ← hret]
    rfl

/-! ## `WRITEBUF` (R121) -/

/-- With no byte to write an inactive port will do (R126). -/
theorem exec_writebuf_of_idle {bs : List Byte} (hpc : s.fg.pc = .idle) (hok : s.port.active = true ∨ bs = []) :
    exec (.writebuf bs) s = .next (bufStep bs 0 (s.issue (.buf bs 0))) := by
  have hguard : ¬(!s.port.active && !bs.isEmpty) = true := by
    rcases hok with hact | rfl
    · simp [hact]
    · simp
  show s.whenIdle _ = _
  rw [State.whenIdle_of_idle hpc, if_neg hguard]

theorem exec_writebuf_inactive (b : Byte) (bs : List Byte) (hpc : s.fg.pc = .idle) (hact : s.port.active = false) :
    exec (.writebuf (b :: bs)) s = .refused .portNotActive := by
  show s.whenIdle _ = _
  rw [State.whenIdle_of_idle hpc, hact]
  rfl

theorem foregroundStep_buf {bs : List Byte} {n : Nat} (hpc : s.fg.pc = .buf bs n) :
    foregroundStep s = .next (bufStep bs n s) := by
  rw [foregroundStep, hpc]

/-- The inner `WRITE`, with the rest and a count in the return slot: under `atCall` the byte is counted already, under `atReturn` not yet. -/
theorem bufStep_cons (b : Byte) (bs : List Byte) (n : Nat) (s : State) :
    (s.cfg.bufCount = .atCall → bufStep (b :: bs) n s = s.call (.buf bs (n + 1)) (.write1 b)) ∧
    (s.cfg.bufCount = .atReturn → bufStep (b :: bs) n s = s.call (.buf bs n) (.write1 b)) := by
  refine ⟨fun hform => ?_, fun hform => ?_⟩ <;>
    · rw [bufStep, hform]
      rfl

/-- The inner `WRITE` returns 1, and whichever form holds, the count is one more. -/
theorem bufStep_cons_returnValue_pc (b : Byte) (bs : List Byte) (n : Nat) (s : State) :
    ((bufStep (b :: bs) n s).returnValue (.count 1)).fg.pc = .buf bs (n + 1) := by
  rw [State.returnValue_pc]
  show Pc.resume s.cfg.bufCount (.count 1) (.buf bs (parkedCount s.cfg.bufCount n)) = _
  rw [Pc.resume_buf, resumedCount_parkedCount]

/-- Settles O31: issued and at `Buf(bs, n)`, with a byte left and without. -/
theorem writebufForwardsToWrite : Obligations.WritebufForwardsToWrite := by
  refine ⟨fun s hpc hret => ?_, fun b bs s hpc hact => ⟨fun hform => ?_, fun hform => ?_⟩,
    fun b bs s hpc hact => exec_writebuf_inactive b bs hpc hact, fun n s hpc => foregroundStep_buf hpc,
    fun b bs n s hpc => ⟨fun hform => ?_, fun hform => ?_, bufStep (b :: bs) n s, foregroundStep_buf hpc,
      bufStep_cons_returnValue_pc b bs n s⟩⟩
  · rw [exec_writebuf_of_idle hpc (.inr rfl)]
    exact congrArg Host.Outcome.next (State.returnValue_issue _ _ _ hpc hret)
  · rw [exec_writebuf_of_idle hpc (.inl hact), (bufStep_cons b bs 0 (s.issue (.buf (b :: bs) 0))).1 hform]
    rfl
  · rw [exec_writebuf_of_idle hpc (.inl hact), (bufStep_cons b bs 0 (s.issue (.buf (b :: bs) 0))).2 hform]
    rfl
  · rw [foregroundStep_buf hpc, (bufStep_cons b bs n s).1 hform]
    rfl
  · rw [foregroundStep_buf hpc, (bufStep_cons b bs n s).2 hform]
    rfl

/-! ## `AVAILABLE`, `READY`, `PEEK`, `READ` (R122 to R125) -/

/-- Settles O32: both give their result and return. -/
theorem availableAndReadyResults : Obligations.AvailableAndReadyResults := by
  refine fun s hpc hret => ⟨?_, ?_⟩
  · show s.whenIdle (.next (s.returnValue _)) = _
    rw [State.whenIdle_of_idle hpc, State.returnValue_of_idle _ hpc hret]
    rfl
  · show s.whenIdle (.next (s.returnValue _)) = _
    rw [State.whenIdle_of_idle hpc, State.returnValue_of_idle _ hpc hret]

theorem exec_peek {v : Option Byte} (hpc : s.fg.pc = .idle) (hret : s.fg.ret = none) (h : s.port.rx.peek = .ok v) :
    exec .peek s = .next { s with results := s.results ++ [readResult v] } := by
  show s.whenIdle _ = _
  rw [State.whenIdle_of_idle hpc, h]
  exact congrArg Host.Outcome.next (State.returnValue_of_idle _ hpc hret)

theorem exec_read {v : Option Byte} {r : RingBuf} (hpc : s.fg.pc = .idle) (hret : s.fg.ret = none)
    (h : s.port.rx.pop s.cfg.rxCap = .ok (v, r)) :
    exec .read s = .next { s with port := { s.port with rx := r }, results := s.results ++ [readResult v] } := by
  show s.whenIdle _ = _
  rw [State.whenIdle_of_idle hpc, h]
  exact congrArg Host.Outcome.next (State.returnValue_of_idle (s := { s with port := { s.port with rx := r } }) _ hpc hret)

/-- Settles O33: an empty receive buffer, and one whose slot at `tail` is written. -/
theorem peekAndReadResults : Obligations.PeekAndReadResults := by
  refine fun s hpc hret => ⟨fun hempty => ?_, fun b hne hb => ?_⟩
  · have he := RingBuf.isEmpty_iff.2 hempty
    exact ⟨exec_peek hpc hret (RingBuf.peek_empty he), exec_read hpc hret (RingBuf.pop_empty he)⟩
  · have he := RingBuf.isEmpty_false_iff.2 hne
    exact ⟨exec_peek hpc hret (RingBuf.peek_written he hb), exec_read hpc hret (RingBuf.pop_written he hb)⟩

end Sys2Proof.Machine
end

section
/-! PROOF. The program-space string writer (spec/43_pgmstring.md R130, R131): the search for the end of a string finds the first zero byte at or after
its address, and `PRINTPGM` gives each byte before it to `WRITE`. -/

namespace Sys2Proof.Machine

variable {s : State} {c : Cfg} {m : Memory} {a z : Nat} {b : Byte}

/-! ## The end of a string (R131) -/

theorem Memory.read_cons_of_ne {d : Option Byte} {k : Nat} {v : Byte} (h : z ≠ k) :
    Memory.read d ((k, v) :: m) z = Memory.read d m z := if_neg h

theorem le_pgmEnd (m : Memory) (a : Nat) : a ≤ pgmEnd m a := by
  fun_induction pgmEnd m a with
  | case1 a => exact Nat.le_refl a
  | case2 k v m a hlt ih => exact ih
  | case3 k v m a _ hat ih => exact Nat.le_of_succ_le ih
  | case4 k v m a _ _ => exact Nat.le_refl a

/-- The search skips addresses before the start and bytes that are not zero, so it passes no zero byte. -/
theorem pgmEnd_le_of_read (haz : a ≤ z) (hz : Memory.read (some 0) m z = some 0) : pgmEnd m a ≤ z := by
  fun_induction pgmEnd m a with
  | case1 a => exact haz
  | case2 k v m a hlt ih =>
    rw [Memory.read_cons_of_ne (by omega)] at hz
    exact ih haz hz
  | case3 k v m a _ hat ih =>
    obtain ⟨rfl, hv⟩ := hat
    have hne : z ≠ k := by
      rintro rfl
      rw [Memory.read, if_pos rfl] at hz
      exact hv (Option.some.inj hz)
    rw [Memory.read_cons_of_ne hne] at hz
    exact ih (by omega) hz
  | case4 k v m a _ _ => exact haz

/-- The search stops only where no byte is listed, and an unlisted byte is zero (log entry 6). -/
theorem read_pgmEnd {lo : Nat} (hm : Memory.wfFrom (some 0) lo m = true) :
    Memory.read (some 0) m (pgmEnd m a) = some 0 := by
  fun_induction pgmEnd m a generalizing lo with
  | case1 a => rfl
  | case2 k v m a hlt ih =>
    simp only [Memory.wfFrom, Bool.and_eq_true] at hm
    obtain ⟨-, hrest⟩ := hm
    have := le_pgmEnd m a
    rw [Memory.read_cons_of_ne (by omega)]
    exact ih hrest
  | case3 k v m a _ hat ih =>
    simp only [Memory.wfFrom, Bool.and_eq_true] at hm
    obtain ⟨-, hrest⟩ := hm
    have := le_pgmEnd m (a + 1)
    rw [Memory.read_cons_of_ne (by omega)]
    exact ih hrest
  | case4 k v m a hle hat =>
    simp only [Memory.wfFrom, Bool.and_eq_true, decide_eq_true_eq] at hm
    obtain ⟨⟨-, hv⟩, hrest⟩ := hm
    have hv0 : v ≠ 0 := fun h => hv (h ▸ rfl)
    have hne : a ≠ k := fun h => hat ⟨h.symm, hv0⟩
    rw [Memory.read_cons_of_ne hne]
    exact Memory.read_of_wfFrom hrest (by omega)

theorem pgmByte_eq_some_iff : pgmByte c z = some b ↔ z < 2 ^ c.pgmAddrBits ∧ Memory.read (some 0) c.pgm z = some b := by
  rw [pgmByte, Option.ite_none_right_eq_some]
  rfl

theorem Cfg.pgm_wf (hc : c.wf = true) : Memory.wf (some 0) c.pgm = true := by
  simp only [Cfg.wf, Bool.and_eq_true] at hc
  obtain ⟨⟨-, hpgm⟩, -⟩ := hc
  exact hpgm

/-- Settles O35: the address the search ends at is such a `z`, and it is the least. -/
theorem terminatedMeansZeroByteAhead : Obligations.TerminatedMeansZeroByteAhead := by
  intro c a hc
  rw [pgmTerminated, decide_eq_true_eq]
  constructor
  · intro hend
    exact ⟨pgmEnd c.pgm a, le_pgmEnd _ _, hend, pgmByte_eq_some_iff.2 ⟨hend, read_pgmEnd (Cfg.pgm_wf hc)⟩⟩
  · rintro ⟨z, haz, hz, hb⟩
    exact Nat.lt_of_le_of_lt (pgmEnd_le_of_read haz (pgmByte_eq_some_iff.1 hb).2) hz

/-! ## `PRINTPGM` (R130, R126) -/

theorem pgmStep_null (hb : pgmByte s.cfg a = some 0) : pgmStep a s = .next (s.returnValue .done) := by
  rw [pgmStep, hb]
  rfl

theorem pgmStep_byte (hb : pgmByte s.cfg a = some b) (hb0 : b ≠ 0) :
    pgmStep a s = .next (s.call (.pgm (a + 1)) (.write1 b)) := by
  rw [pgmStep, hb]
  exact if_neg hb0

theorem foregroundStep_pgm (hpc : s.fg.pc = .pgm a) : foregroundStep s = pgmStep a s := by
  rw [foregroundStep, hpc]

theorem exec_printpgm_unterminated (hpc : s.fg.pc = .idle) (hterm : pgmTerminated s.cfg a = false) :
    exec (.printpgm a) s = .refused .unterminatedString := by
  show s.whenIdle _ = _
  rw [State.whenIdle_of_idle hpc, hterm]
  rfl

theorem exec_printpgm_inactive (hpc : s.fg.pc = .idle) (hterm : pgmTerminated s.cfg a = true) (hb : pgmByte s.cfg a ≠ some 0)
    (hact : s.port.active = false) : exec (.printpgm a) s = .refused .portNotActive := by
  show s.whenIdle _ = _
  rw [State.whenIdle_of_idle hpc, hterm, hact, decide_eq_false hb]
  rfl

/-- With an empty string an inactive port will do (R126). -/
theorem exec_printpgm_of_idle (hpc : s.fg.pc = .idle) (hterm : pgmTerminated s.cfg a = true)
    (hok : s.port.active = true ∨ pgmByte s.cfg a = some 0) : exec (.printpgm a) s = pgmStep a (s.issue (.pgm a)) := by
  have hguard : ¬(!s.port.active && !decide (pgmByte s.cfg a = some 0)) = true := by
    rcases hok with hact | hb
    · simp [hact]
    · simp [hb]
  show s.whenIdle _ = _
  rw [State.whenIdle_of_idle hpc, hterm, if_neg hguard]
  rfl

/-- Settles O34: the two refusals, and the null byte and any other, issued and at `Pgm(a)`. -/
theorem printpgmForwardsToWrite : Obligations.PrintpgmForwardsToWrite := by
  refine fun a s => ⟨exec_printpgm_unterminated, exec_printpgm_inactive, fun hpc hret hterm hb => ?_,
    fun b hpc hterm hb hb0 hact => ?_, fun hpc hb => ?_, fun b hpc hb hb0 => ?_⟩
  · rw [exec_printpgm_of_idle hpc hterm (.inr hb), pgmStep_null (s := s.issue (.pgm a)) hb]
    exact congrArg Host.Outcome.next (State.returnValue_issue _ _ _ hpc hret)
  · rw [exec_printpgm_of_idle hpc hterm (.inl hact), pgmStep_byte (s := s.issue (.pgm a)) hb hb0]
    rfl
  · rw [foregroundStep_pgm hpc, pgmStep_null hb]
  · rw [foregroundStep_pgm hpc, pgmStep_byte hb hb0]
    rfl

end Sys2Proof.Machine
end

section
/-! PROOF. The line engine and the interrupt enable (spec/44_line_engine.md R136 to R139): what each operation answers in each case of its rule. -/

namespace Sys2Proof.Machine

variable {s : State} {p : Port}

/-! ## The transmitter (R136, R137) -/

/-- An engine step with its guard has its effect on the port. -/
theorem State.engineStep_of_guard {g : Bool} (hg : g = true) (x : Except Fault Port) : s.engineStep g x = s.withPort x :=
  if_pos hg

theorem Port.txload_of_decode {f : FrameFormat} (hframe : decodeFrame p.frame = some f) :
    p.txload = .ok { p with tsr := .busy (mkFrame p.tdr f), dre := true } := by
  rw [Port.txload, hframe]

theorem Port.txdone_of_busy {f : Frame} (htsr : p.tsr = .busy f) :
    p.txdone = { p with wireOut := p.wireOut ++ [f], tsr := .idle, txc := p.txc || p.dre } := by
  rw [Port.txdone, htsr]

/-- Settles O36: under the guard the effect is `Port.txload` with the `FRAME` in force, and a step taken had the guard. -/
theorem txloadMovesByteToShiftRegister : Obligations.TxloadMovesByteToShiftRegister := by
  refine fun s => ⟨fun f hg hframe => ?_, fun hno t h => ?_⟩
  · show s.engineStep s.port.txloadGuard s.port.txload = _
    rw [State.engineStep_of_guard (Port.txloadGuard_iff.2 hg), Port.txload_of_decode hframe]
    rfl
  · obtain ⟨htxen, hdre, htsr, -⟩ := execHwTxload_next h
    exact hno ⟨htxen, hdre, htsr⟩

/-- Settles O38: `TXC` or `DRE` is the rule's "set only when `TDR` is empty", and a step taken had a frame in `TSR`. -/
theorem txdonePutsFrameOnWire : Obligations.TxdonePutsFrameOnWire := by
  refine fun s => ⟨fun f htsr => ?_, fun hidle t h => ?_⟩
  · have htxc : (s.port.txc || s.port.dre) = if s.port.dre = true then true else s.port.txc := by
      cases s.port.dre
      · exact Bool.or_false _
      · exact Bool.or_true _
    show s.engineStep s.port.txdoneGuard (.ok s.port.txdone) = _
    rw [State.engineStep_of_guard (Port.txdoneGuard_iff.2 ⟨f, htsr⟩), Port.txdone_of_busy htsr, htxc]
    rfl
  · obtain ⟨f, htsr, -⟩ := execHwTxdone_next h
    rw [hidle] at htsr
    cases htsr

/-! ## The receiver (R138) -/

theorem Port.rxarrive_disabled (f : Frame) (hrxen : p.rxen = false) : p.rxarrive f = p := by
  rw [Port.rxarrive, hrxen]
  rfl

theorem Port.rxarrive_delivered (f : Frame) (hrxen : p.rxen = true) (hrxc : p.rxc = false) :
    p.rxarrive f = { p with rdr := deliveredByte f, rxc := true } := by
  rw [Port.rxarrive, hrxen, hrxc]
  rfl

theorem Port.rxarrive_lost (f : Frame) (hrxen : p.rxen = true) (hrxc : p.rxc = true) :
    p.rxarrive f = { p with rxDropped := p.rxDropped + 1 } := by
  rw [Port.rxarrive, hrxen, hrxc]
  rfl

/-- `HW.RXARRIVE` has no guard: it is always a step. -/
theorem exec_hwRxarrive {f : Frame} (h : s.port.rxarrive f = p) :
    exec (.hwRxarrive f) s = .next { s with port := p } := by
  subst h
  rfl

/-- Settles O39: the three branches of `Port.rxarrive`; the byte delivered is `deliveredByte`. -/
theorem rxarriveDeliversOrDrops : Obligations.RxarriveDeliversOrDrops :=
  fun f _ => ⟨fun hrxen => exec_hwRxarrive (Port.rxarrive_disabled f hrxen),
    fun hrxen hrxc => exec_hwRxarrive (Port.rxarrive_delivered f hrxen hrxc),
    fun hrxen hrxc => exec_hwRxarrive (Port.rxarrive_lost f hrxen hrxc)⟩

/-! ## The interrupt enable (R139) -/

/-- Settles O40: both are commands, and an idle foreground takes them (R110). -/
theorem gieActionsSetTheEnable : Obligations.GieActionsSetTheEnable :=
  fun _ hpc => ⟨State.whenIdle_of_idle hpc _, State.whenIdle_of_idle hpc _⟩

end Sys2Proof.Machine
end

section
/-! PROOF. The interrupt handlers (spec/60_exceptions.md R153 to R160, R163): when each is granted, what it does to its port, that the two commute, and
what the handlers and the line engine leave unchanged. -/

namespace Sys2Proof.Machine

variable {s t : State} {c : Cfg} {p q : Port} {order : IsrOrder} {gie : Bool}

/-! ## `ISR.RX` (R158) -/

/-- A granted `ISR.RX` is always a step. -/
theorem exec_isrRx (hgrant : s.port.rxGrant s.cfg.isrOrder s.gie = true) :
    exec .isrRx s = .next { s with port := s.port.isrRx s.cfg } :=
  State.takeInterrupt_of_granted hgrant _

theorem Port.isrRx_full (hfull : p.rx.isFull c.rxCap = true) :
    p.isrRx c = { p with rxc := false, rxDropped := p.rxDropped + 1 } := by
  rcases p.isrRx_cases c with ⟨-, e⟩ | ⟨hnot, -⟩
  · exact e
  · rw [hfull] at hnot; cases hnot

theorem Port.isrRx_pushed (hnot : p.rx.isFull c.rxCap = false) :
    p.isrRx c = { p with
      rxc := false
      rx := { p.rx with storage := Memory.write none p.rx.storage p.rx.head p.rdr, head := nextIndex c.rxCap p.rx.head } } := by
  rcases p.isrRx_cases c with ⟨hfull, -⟩ | ⟨-, e⟩
  · rw [hnot] at hfull; cases hfull
  · exact e

/-- Settles O41: a step taken was granted (R153), and a granted one pushes the byte or counts it as lost. -/
theorem receiveHandlerEffect : Obligations.ReceiveHandlerEffect := by
  refine fun s => ⟨fun hreq => ?_, fun hno t h => ?_⟩
  · have hstep := exec_isrRx (Port.rxGrant_iff.2 hreq)
    constructor
    · intro hnot
      rw [hstep, Port.isrRx_pushed (RingBuf.isFull_false_iff.2 hnot)]
      rfl
    · intro hfull
      rw [hstep, Port.isrRx_full (RingBuf.isFull_iff.2 hfull)]
  · obtain ⟨hgrant, -⟩ := execIsrRx_next h
    obtain ⟨hgie, hrxcie, hrxc, -⟩ := Port.rxGrant_iff.1 hgrant
    exact hno ⟨hgie, hrxcie, hrxc⟩

/-! ## `ISR.TX` (R159) -/

/-- The port once `ISR.TX` has disabled its interrupt. -/
def Port.txDisabled (p : Port) : Port := { p with dreie := false }

theorem Port.drainOne_empty (he : p.tx.isEmpty = true) : p.drainOne c = .ok none := by
  rw [Port.drainOne, RingBuf.pop, RingBuf.peek, he]
  rfl

/-- `ISR.TX` granted with nothing queued disables itself. -/
theorem exec_isrTx_empty (hgrant : s.port.txGrant s.cfg.isrOrder s.gie = true) (he : s.port.tx.isEmpty = true) :
    exec .isrTx s = .next { s with port := s.port.txDisabled } := by
  have hbody : s.port.isrTx s.cfg = .ok s.port.txDisabled := by
    rw [Port.isrTx, Port.drainOne_empty he]
    rfl
  show s.takeInterrupt _ (s.port.isrTx s.cfg) = _
  rw [hbody]
  exact State.takeInterrupt_of_granted hgrant _

/-- Settles O42: a step taken was granted (R154), and a granted one moves the oldest byte or disables itself. -/
theorem transmitHandlerEffect : Obligations.TransmitHandlerEffect := by
  refine fun s => ⟨fun hreq => ?_, fun hno t h => ?_⟩
  · have hgrant := Port.txGrant_iff.2 hreq
    exact ⟨fun v hne hv => exec_isrTx_written hgrant (RingBuf.isEmpty_false_iff.2 hne) hv,
      fun he => exec_isrTx_empty hgrant (RingBuf.isEmpty_iff.2 he)⟩
  · obtain ⟨hgrant, -⟩ := execIsrTx_next h
    obtain ⟨hgie, hdreie, hdre, -⟩ := Port.txGrant_iff.1 hgrant
    exact hno ⟨hgie, hdreie, hdre⟩

/-! ## Both handlers requested (R156) -/

theorem Port.rxGrant_of_ne_txFirst (horder : order ≠ .txFirst) : p.rxGrant order gie = p.rxRequest gie := by
  simp [Port.rxGrant, horder]

theorem Port.txGrant_of_ne_rxFirst (horder : order ≠ .rxFirst) : p.txGrant order gie = p.txRequest gie := by
  simp [Port.txGrant, horder]

/-- Under `txFirst` a request of `ISR.TX` holds `ISR.RX` back (log entry 28). -/
theorem exec_isrRx_behind (horder : s.cfg.isrOrder = .txFirst) (htx : s.port.txRequest s.gie = true) :
    exec .isrRx s = .refused .notEnabled := by
  have hno : ¬s.port.rxGrant s.cfg.isrOrder s.gie = true := by simp [Port.rxGrant, horder, htx]
  exact State.takeInterrupt_of_not hno (.ok (s.port.isrRx s.cfg))

/-- Under `rxFirst` a request of `ISR.RX` holds `ISR.TX` back (log entry 28). -/
theorem exec_isrTx_behind (horder : s.cfg.isrOrder = .rxFirst) (hrx : s.port.rxRequest s.gie = true) :
    exec .isrTx s = .refused .notEnabled := by
  have hno : ¬s.port.txGrant s.cfg.isrOrder s.gie = true := by simp [Port.txGrant, horder, hrx]
  exact State.takeInterrupt_of_not hno (s.port.isrTx s.cfg)

/-- `ISR.RX` touches neither the transmit buffer nor what `ISR.TX` is requested by. -/
theorem Port.isrRx_tx (c : Cfg) (p : Port) : (p.isrRx c).tx = p.tx := by
  rcases p.isrRx_cases c with ⟨-, e⟩ | ⟨-, e⟩ <;> rw [e]

theorem Port.txRequest_isrRx (c : Cfg) (p : Port) : (p.isrRx c).txRequest gie = p.txRequest gie := by
  rcases p.isrRx_cases c with ⟨-, e⟩ | ⟨-, e⟩ <;> rw [e] <;> rfl

theorem Port.isrRx_txDisabled (c : Cfg) (p : Port) : p.txDisabled.isrRx c = (p.isrRx c).txDisabled := by
  rcases p.isrRx_cases c with ⟨hfull, e⟩ | ⟨hnot, e⟩
  · rw [e, Port.isrRx_full (p := p.txDisabled) hfull]; rfl
  · rw [e, Port.isrRx_pushed (p := p.txDisabled) hnot]; rfl

theorem Port.isrRx_drained (c : Cfg) (p : Port) (b : Byte) : (p.drained c b).isrRx c = (p.isrRx c).drained c b := by
  rcases p.isrRx_cases c with ⟨hfull, e⟩ | ⟨hnot, e⟩
  · rw [e, Port.isrRx_full (p := p.drained c b) hfull]; rfl
  · rw [e, Port.isrRx_pushed (p := p.drained c b) hnot]; rfl

/-- A well-formed transmit buffer has a byte to move whenever it is not empty, so a granted `ISR.TX` is a step. -/
theorem exec_isrTx_cases (hgrant : s.port.txGrant s.cfg.isrOrder s.gie = true) (hwf : s.port.tx.wf s.cfg.txCap = true) :
    (s.port.tx.isEmpty = true ∧ exec .isrTx s = .next { s with port := s.port.txDisabled }) ∨
    (∃ b, s.port.tx.isEmpty = false ∧ Memory.read none s.port.tx.storage s.port.tx.tail = some b ∧
      exec .isrTx s = .next { s with port := s.port.drained s.cfg b }) := by
  cases he : s.port.tx.isEmpty with
  | true => exact .inl ⟨rfl, exec_isrTx_empty hgrant he⟩
  | false =>
    obtain ⟨b, hb⟩ := RingBuf.read_tail_of_wf hwf he
    exact .inr ⟨b, rfl, hb, exec_isrTx_written hgrant he hb⟩

/-- Each handler leaves the other granted and its body unaffected: `ISR.RX` works on the receive side alone, `ISR.TX` on the transmit side. -/
theorem handlers_commute_of_either (horder : s.cfg.isrOrder = .either) (hrx : s.port.rxRequest s.gie = true)
    (htx : s.port.txRequest s.gie = true) (hwf : s.port.tx.wf s.cfg.txCap = true) :
    ∃ r t u, exec .isrRx s = .next r ∧ exec .isrTx s = .next t ∧ exec .isrTx r = .next u ∧ exec .isrRx t = .next u := by
  have hne : s.cfg.isrOrder ≠ .txFirst ∧ s.cfg.isrOrder ≠ .rxFirst := by simp [horder]
  have rxGranted : ∀ p : Port, p.rxRequest s.gie = true → p.rxGrant s.cfg.isrOrder s.gie = true :=
    fun p h => (Port.rxGrant_of_ne_txFirst hne.1).trans h
  have txGranted : ∀ p : Port, p.txRequest s.gie = true → p.txGrant s.cfg.isrOrder s.gie = true :=
    fun p h => (Port.txGrant_of_ne_rxFirst hne.2).trans h
  have hrxStep := exec_isrRx (rxGranted s.port hrx)
  have htxAfter := txGranted (s.port.isrRx s.cfg) ((Port.txRequest_isrRx _ _).trans htx)
  have htxBuf := s.port.isrRx_tx s.cfg
  rcases exec_isrTx_cases (txGranted s.port htx) hwf with ⟨he, htxStep⟩ | ⟨b, he, hb, htxStep⟩
  · refine ⟨_, _, _, hrxStep, htxStep, exec_isrTx_empty htxAfter (by rwa [htxBuf]), ?_⟩
    rw [exec_isrRx (rxGranted s.port.txDisabled hrx), Port.isrRx_txDisabled]
  · refine ⟨_, _, _, hrxStep, htxStep, exec_isrTx_written (b := b) htxAfter (by rwa [htxBuf]) (by rwa [htxBuf]), ?_⟩
    rw [exec_isrRx (rxGranted (s.port.drained s.cfg b) hrx), Port.isrRx_drained]

/-- Settles O43: the handler in front is granted and the one behind refused; under `either` the two commute. -/
theorem handlersCommute : Obligations.HandlersCommute := by
  refine fun s hrx htx hwf => ⟨fun horder => ⟨exec_isrTx_behind horder hrx, _, exec_isrRx ?_⟩,
    fun horder => ⟨exec_isrRx_behind horder htx, ?_⟩, fun horder => handlers_commute_of_either horder hrx htx hwf⟩
  · rwa [Port.rxGrant_of_ne_txFirst (by simp [horder])]
  · have hgrant : s.port.txGrant s.cfg.isrOrder s.gie = true := by rwa [Port.txGrant_of_ne_rxFirst (by simp [horder])]
    rcases exec_isrTx_cases hgrant hwf with ⟨-, htxStep⟩ | ⟨b, -, -, htxStep⟩
    · exact ⟨_, htxStep⟩
    · exact ⟨_, htxStep⟩

/-! ## The frame of the handlers and engines (R157, R163, R143) -/

/-- What no handler and no engine owns: the burst and line settings, the enables but `DREIE`, the indices the foreground moves, and the storage it writes. -/
def Port.foregroundOwned (p : Port) :
    Bool × Bool × Bool × Bool × Bool × Bool × Nat × Byte × Option Line × PortConfig × Nat × Nat × Memory :=
  (p.transmitting, p.active, p.rxen, p.txen, p.rxcie, p.u2x, p.div, p.frame, p.line, p.io, p.rx.tail, p.tx.head, p.tx.storage)

theorem Port.foregroundOwned_eq_iff : q.foregroundOwned = p.foregroundOwned ↔
    q.transmitting = p.transmitting ∧ q.active = p.active ∧ q.rxen = p.rxen ∧ q.txen = p.txen ∧ q.rxcie = p.rxcie ∧
    q.u2x = p.u2x ∧ q.div = p.div ∧ q.frame = p.frame ∧ q.line = p.line ∧ q.io = p.io ∧
    q.rx.tail = p.rx.tail ∧ q.tx.head = p.tx.head ∧ q.tx.storage = p.tx.storage := by
  simp only [Port.foregroundOwned, Prod.mk.injEq]

/-- What the handler or engine step `i` may do to a port. -/
structure Port.KeepsToItsOwn (i : Instr) (p q : Port) : Prop where
  foregroundOwned : q.foregroundOwned = p.foregroundOwned
  rx              : i ≠ .isrRx → q.rx = p.rx
  tx              : i ≠ .isrTx → q.tx = p.tx ∧ q.dreie = p.dreie
  dreie           : q.dreie = true → p.dreie = true

/-- A step that keeps both buffers and `DREIE`, as every engine step does. -/
theorem Port.KeepsToItsOwn.of_buffers (i : Instr) (howned : q.foregroundOwned = p.foregroundOwned) (hrx : q.rx = p.rx)
    (htx : q.tx = p.tx) (hdreie : q.dreie = p.dreie) : Port.KeepsToItsOwn i p q :=
  ⟨howned, fun _ => hrx, fun _ => ⟨htx, hdreie⟩, fun h => hdreie ▸ h⟩

theorem Port.isrRx_keepsToItsOwn (c : Cfg) (p : Port) : Port.KeepsToItsOwn .isrRx p (p.isrRx c) := by
  rcases p.isrRx_cases c with ⟨-, e⟩ | ⟨-, e⟩ <;> rw [e]
  · exact .of_buffers _ rfl rfl rfl rfl
  · exact ⟨rfl, fun h => (h rfl).elim, fun _ => ⟨rfl, rfl⟩, id⟩

theorem Port.txDisabled_keepsToItsOwn (p : Port) : Port.KeepsToItsOwn .isrTx p p.txDisabled :=
  ⟨rfl, fun _ => rfl, fun h => (h rfl).elim, fun h => nomatch h⟩

theorem Port.drained_keepsToItsOwn (c : Cfg) (p : Port) (b : Byte) : Port.KeepsToItsOwn .isrTx p (p.drained c b) :=
  ⟨rfl, fun _ => rfl, fun h => (h rfl).elim, id⟩

theorem Port.rxarrive_keepsToItsOwn (p : Port) (f : Frame) : Port.KeepsToItsOwn (.hwRxarrive f) p (p.rxarrive f) := by
  rcases p.rxarrive_cases f with ⟨-, e⟩ | ⟨-, -, e⟩ | ⟨-, -, e⟩ <;> rw [e] <;> exact .of_buffers _ rfl rfl rfl rfl

/-- Every handler and engine step is a step on the port alone, and keeps to its own there. -/
theorem handlerOrEngine_keepsToItsOwn {i : Instr}
    (hi : i = .isrRx ∨ i = .isrTx ∨ i = .hwTxload ∨ i = .hwTxdone ∨ ∃ f, i = .hwRxarrive f) (h : exec i s = .next t) :
    t = { s with port := t.port } ∧ Port.KeepsToItsOwn i s.port t.port := by
  rcases hi with rfl | rfl | rfl | rfl | ⟨f, rfl⟩
  · obtain ⟨-, rfl⟩ := execIsrRx_next h
    exact ⟨rfl, s.port.isrRx_keepsToItsOwn s.cfg⟩
  · obtain ⟨-, ⟨-, rfl⟩ | ⟨b, -, -, -, rfl⟩⟩ := execIsrTx_next h
    · exact ⟨rfl, s.port.txDisabled_keepsToItsOwn⟩
    · exact ⟨rfl, s.port.drained_keepsToItsOwn s.cfg b⟩
  · obtain ⟨-, -, -, f, -, rfl⟩ := execHwTxload_next h
    exact ⟨rfl, .of_buffers _ rfl rfl rfl rfl⟩
  · obtain ⟨f, -, rfl⟩ := execHwTxdone_next h
    exact ⟨rfl, .of_buffers _ rfl rfl rfl rfl⟩
  · cases execHwRxarrive_next h
    exact ⟨rfl, s.port.rxarrive_keepsToItsOwn f⟩

/-- Settles O44: step by step, each changes its port alone and keeps to its own there. -/
theorem handlersAndEnginesKeepToTheirOwn : Obligations.HandlersAndEnginesKeepToTheirOwn := by
  intro i s t hi h
  obtain ⟨hport, howned, hrx, htx, hdreie⟩ := handlerOrEngine_keepsToItsOwn hi h
  simpa only [Port.foregroundOwned_eq_iff, and_assoc] using And.intro hport (And.intro howned ⟨hrx, htx, hdreie⟩)

end Sys2Proof.Machine
end

section
/-! PROOF. The reset state (spec/70_reset_and_hazards.md R182): what each command, handler and engine step answers there, read off the general cases of
its rule. -/

namespace Sys2Proof.Machine

variable {s : State} {ts : List Turn}

/-! ## `END` with no burst in progress (R114, R115) -/

/-- The port as `END` step 2 leaves it (R115). -/
def Port.ended (p : Port) : Port :=
  { p with
    rxen := false, txen := false, rxcie := false, dreie := false, rxc := false
    rx := { p.rx with head := p.rx.tail }, active := false }

/-- `END` step 1, from its record: the foreground stands at `Flush1`, called by `END`. -/
theorem step_endCmd (hturns : s.turns = .op s.here (encode .endCmd) :: ts) (hpc : s.fg.pc = .idle) :
    step s = .next { s with turns := ts, fg := { pc := .flush1, ret := some .end2, port := s.here } } := by
  have hdec : decode (encode .endCmd) = .ok (.endCmd, []) := rfl
  rw [step_of_fetch hturns (fetch_eq_ok (State.select_here { s with turns := ts }) hdec rfl)]
  obtain ⟨hissue, -⟩ := endFlushesThenDisables
  exact hissue _ hpc

/-- `FLUSH` returns to its caller at once. -/
theorem step_flush1_noBurst (hturns : s.turns = .foreground :: ts) (hport : s.fg.port = s.here) (hpc : s.fg.pc = .flush1)
    (htr : s.port.transmitting = false) : step s = .next (State.returnValue { s with turns := ts } .done) := by
  rw [step_foreground_here hturns hport]
  obtain ⟨hreturn, -⟩ := flushFourCases { s with turns := ts } hpc
  exact hreturn htr

/-- `END` step 2. -/
theorem step_end2 (hturns : s.turns = .foreground :: ts) (hport : s.fg.port = s.here) (hpc : s.fg.pc = .end2) :
    step s = .next (State.returnValue { s with turns := ts, port := s.port.ended } .done) := by
  rw [step_foreground_here hturns hport]
  obtain ⟨-, hdisable⟩ := endFlushesThenDisables
  exact hdisable _ hpc

/-- With no burst in progress `END` returns after its three steps, whatever else the port holds. -/
theorem endRunsToDone (hturns : s.turns = [.op s.here (encode .endCmd), .foreground, .foreground]) (hpc : s.fg.pc = .idle)
    (htr : s.port.transmitting = false) :
    core.run 3 s = .next { s with
      turns := [], port := s.port.ended, fg := { pc := .idle, ret := none, port := s.here }
      results := s.results ++ [.done] } :=
  calc core.run 3 s = core.run 2 _ := run_succ (step_endCmd hturns hpc)
    _ = core.run 1 _ := run_succ (step_flush1_noBurst rfl rfl rfl htr)
    _ = core.run 0 _ := run_succ (step_end2 rfl rfl rfl)

/-! ## The reset state (R182) -/

/-- The receive buffer is empty, whatever its capacity. -/
theorem launch_available (c : Cfg) (gie : Bool) (io : PortConfig) (more : List PortConfig) :
    exec .available (State.launch c gie io more) = .next { State.launch c gie io more with results := [.count 0] } := by
  have hcount : (0 + c.rxCap - 0) % c.rxCap = 0 := by rw [Nat.zero_add, Nat.sub_zero, Nat.mod_self]
  obtain ⟨havailable, -⟩ := availableAndReadyResults (State.launch c gie io more) rfl rfl
  refine havailable.trans ?_
  show Host.Outcome.next { State.launch c gie io more with results := [.count ((0 + c.rxCap - 0) % c.rxCap)] } = _
  rw [hcount]

/-- Settles O52: the foreground is idle and the port inactive, empty, disabled and with no burst, so each clause is one case of its operation's rule;
`END` disables what is disabled and empties an empty buffer; each handler and engine step needs a flag that is 0 (`RXC`, `DREIE`, `TXEN`) or a busy
shift register. -/
theorem resetConsequences : Obligations.ResetConsequences := by
  rintro c gie io more s rfl -
  obtain ⟨-, hready⟩ := availableAndReadyResults (State.launch c gie io more) rfl rfl
  obtain ⟨hempty, -⟩ := peekAndReadResults (State.launch c gie io more) rfl rfl
  obtain ⟨hpeek, hread⟩ := hempty rfl
  obtain ⟨hflush, -⟩ := flushIsIssued (State.launch c gie io more) rfl rfl
  obtain ⟨-, -, htxload, htxdone, hisrRx, hisrTx, -⟩ := stopsAreNamed (State.launch c gie io more)
  exact ⟨hready, launch_available c gie io more, hread, hpeek, hflush rfl, endRunsToDone rfl rfl rfl,
    hisrRx (fun ⟨_, _, hrxc, _⟩ => nomatch hrxc), hisrTx (fun ⟨_, hdreie, _⟩ => nomatch hdreie),
    fun f => exec_hwRxarrive (Port.rxarrive_disabled f rfl),
    htxload (fun ⟨htxen, _⟩ => nomatch htxen), htxdone rfl,
    fun b => (exec_write_of_idle b rfl).trans (writeStep1_inactive b rfl)⟩

end Sys2Proof.Machine
end

section
/-! PROOF. Operation records (spec/30_encoding.md sections 1 to 5): each operand's decoder answers a value on the bytes of that value and on no other
bytes, so the decoder and the encoder of records are inverse to each other; and the records of R78 that are refused. -/

namespace Sys2Proof

variable {bs rest : List Byte} {b h d : Byte} {n : Nat} {fmt : FrameFormat} {f : Frame} {α β : Type}

/-! ## Operands -/

/-- The groups of a number that was read are the bytes it was read from, whatever fuel they are made with; by induction on those bytes. -/
theorem encodeNatFuel_of_decodeNat {fuel : Nat} (hdec : decodeNat bs = .ok (n, rest)) (hfuel : n ≤ fuel) :
    encodeNatFuel fuel n ++ rest = bs := by
  induction bs generalizing n fuel with
  | nil => cases hdec
  | cons b bs ih =>
    have hb := b.isLt
    rw [decodeNat] at hdec
    split at hdec
    · next hlast =>
      cases hdec
      cases fuel <;> simp [encodeNatFuel, hlast]
    · next hmore =>
      split at hdec
      · cases hdec
      · next m rest' hm =>
        split at hdec
        · cases hdec
        · cases hdec
          cases fuel with
          | zero => omega
          | succ fuel =>
            have hlow : (b.toNat - 128 + 128 * m) % 128 + 128 = b.toNat := by omega
            have hhigh : (b.toNat - 128 + 128 * m) / 128 = m := by omega
            rw [encodeNatFuel, if_neg (by omega), hlow, hhigh, List.cons_append, ih hm (by omega), BitVec.ofNat_toNat,
              BitVec.setWidth_eq]

theorem decodeNat_eq_ok_iff : decodeNat bs = .ok (n, rest) ↔ encodeNat n ++ rest = bs :=
  ⟨fun hdec => encodeNatFuel_of_decodeNat hdec le_rfl, fun e => e ▸ Machine.decodeNat_encodeNat n rest⟩

theorem decodeByte_eq_ok_iff : decodeByte bs = .ok (b, rest) ↔ b :: rest = bs := by
  cases bs <;> simp [decodeByte, eq_comm]

theorem decodeSeq_eq_ok_iff {xs : List Byte} :
    decodeSeq bs = .ok (xs, rest) ↔ encodeNat xs.length ++ (xs ++ rest) = bs := by
  constructor
  · intro hdec
    rw [decodeSeq] at hdec
    split at hdec
    · cases hdec
    · next n tail hn =>
      split at hdec
      · cases hdec
      · next hlen =>
        cases hdec
        rw [List.take_append_drop, List.length_take_of_le (Nat.le_of_not_lt hlen)]
        exact decodeNat_eq_ok_iff.1 hn
  · rintro rfl
    rw [decodeSeq, Machine.decodeNat_encodeNat]
    simp

theorem decodeFrame_eq_some_iff : decodeFrame b = some fmt ↔ encodeFrame fmt = b :=
  ⟨Machine.encodeFrame_of_decodeFrame, fun e => e ▸ Machine.decodeFrame_encodeFrame fmt⟩

theorem decodeFormat_cons_reserved (rest : List Byte) (hfmt : decodeFrame b = none) :
    decodeFormat (b :: rest) = .error .reservedFormat := by
  simp [decodeFormat, decodeByte, hfmt]

theorem decodeFormat_eq_ok_iff : decodeFormat bs = .ok (fmt, rest) ↔ encodeFrame fmt :: rest = bs := by
  constructor
  · intro hdec
    rw [decodeFormat] at hdec
    split at hdec
    · cases hdec
    · next b tail hb =>
      split at hdec
      · cases hdec
      · next hfmt =>
        cases hdec
        rw [decodeFrame_eq_some_iff.1 hfmt]
        exact decodeByte_eq_ok_iff.1 hb
  · rintro rfl
    exact Machine.decodeFormat_encodeFrame fmt rest

/-- Of a byte whose value is known, the rest of the operand is what follows it. -/
theorem cons_eq_of_decodeByte {v : Byte} (hdec : decodeByte bs = .ok (b, rest)) (hv : b.toNat = v.toNat) : v :: rest = bs := by
  rw [← BitVec.eq_of_toNat_eq hv]
  exact decodeByte_eq_ok_iff.1 hdec

theorem decodeQueue_eq_ok_iff {q : Queue} : decodeQueue bs = .ok (q, rest) ↔ queueByte q :: rest = bs := by
  constructor
  · intro hdec
    rw [decodeQueue] at hdec
    split at hdec
    · cases hdec
    · next b tail hb => split at hdec <;> cases hdec <;> exact cons_eq_of_decodeByte hb ‹_›
  · rintro rfl
    cases q <;> rfl

theorem decodeClear_eq_ok_iff {x : Queue × ClearForm} :
    decodeClear bs = .ok (x, rest) ↔ clearByte x.1 x.2 :: rest = bs := by
  constructor
  · intro hdec
    rw [decodeClear] at hdec
    split at hdec
    · cases hdec
    · next b tail hb => split at hdec <;> cases hdec <;> exact cons_eq_of_decodeByte hb ‹_›
  · rintro rfl
    obtain ⟨q, form⟩ := x
    cases q <;> cases form <;> rfl

/-! ### Frames

The header byte of a frame has the layout of a frame format, its parity field naming the parity bit (log entry 13): it is the pattern of the format whose
parity scheme has that bit's code. -/

/-- The parity bit a header byte names where the byte, read as a frame format, names this scheme. -/
def Parity.headerBit : Parity → Option Bool
  | .none => Option.none
  | .even => some false
  | .odd => some true

/-- The frame of a header byte, read as a frame format, and a data byte. -/
def FrameFormat.headerFrame (fmt : FrameFormat) (d : Byte) : Frame :=
  { size := fmt.size, data := d, parity := fmt.parity.headerBit, stop := fmt.stop }

theorem parityBitOfCode_eq_map (n : Nat) : parityBitOfCode n = (Parity.ofCode n).map Parity.headerBit := by
  unfold parityBitOfCode Parity.ofCode
  split <;> rfl

theorem frameHeader_headerFrame (fmt : FrameFormat) (d : Byte) : frameHeader (fmt.headerFrame d) = encodeFrame fmt := by
  obtain ⟨size, parity, stop⟩ := fmt
  cases parity <;> rfl

/-- Every frame is that of some header byte. -/
theorem exists_headerFrame (f : Frame) : ∃ fmt : FrameFormat, fmt.headerFrame f.data = f := by
  obtain ⟨size, data, parity, stop⟩ := f
  match parity with
  | none => exact ⟨⟨size, .none, stop⟩, rfl⟩
  | some false => exact ⟨⟨size, .even, stop⟩, rfl⟩
  | some true => exact ⟨⟨size, .odd, stop⟩, rfl⟩

/-- A header byte is read as a frame format; then the data has to fit. -/
theorem frameOfBytes_eq_bind (h d : Byte) : frameOfBytes h d =
    (decodeFrame h).bind fun fmt => if d.toNat < 2 ^ fmt.size.width then some (fmt.headerFrame d) else none := by
  rw [frameOfBytes, Machine.decodeFrame_eq_map, parityBitOfCode_eq_map]
  split
  · cases Parity.ofCode (byteField h 5 4) <;> rfl
  · rfl

theorem frameOfBytes_eq_some_iff : frameOfBytes h d = some f ↔ f.wf = true ∧ frameHeader f = h ∧ f.data = d := by
  simp only [frameOfBytes_eq_bind, Option.bind_eq_some_iff, decodeFrame_eq_some_iff, Option.ite_none_right_eq_some, Option.some_inj]
  constructor
  · rintro ⟨fmt, hfmt, hwf, rfl⟩
    exact ⟨decide_eq_true hwf, (frameHeader_headerFrame fmt d).trans hfmt, rfl⟩
  · rintro ⟨hwf, hheader, rfl⟩
    obtain ⟨fmt, hfmt⟩ := exists_headerFrame f
    rw [← hfmt, frameHeader_headerFrame] at hheader
    exact ⟨fmt, hheader, of_decide_eq_true (hfmt.symm ▸ hwf), hfmt⟩

theorem decodeFrameOperand_eq_ok_iff :
    decodeFrameOperand bs = .ok (f, rest) ↔ f.wf = true ∧ frameHeader f :: f.data :: rest = bs := by
  constructor
  · intro hdec
    unfold decodeFrameOperand at hdec
    split at hdec
    · next h d tail =>
      split at hdec
      · cases hdec
      · next hf =>
        cases hdec
        obtain ⟨hwf, rfl, rfl⟩ := frameOfBytes_eq_some_iff.1 hf
        exact ⟨hwf, rfl⟩
    · cases hdec
  · rintro ⟨hwf, rfl⟩
    rw [decodeFrameOperand]
    simp only [frameOfBytes_eq_some_iff.2 ⟨hwf, rfl, rfl⟩]

/-! ## Records -/

theorem decode1_eq_ok_iff {r : Except DecodeError (α × List Byte)} {k : α → Instr} {i : Instr} :
    decode1 r k = .ok (i, rest) ↔ ∃ x, r = .ok (x, rest) ∧ k x = i := by
  rcases r with e | ⟨x, tail⟩ <;> simp [decode1, and_comm]

theorem decode2_eq_ok_iff {r : Except DecodeError (α × List Byte)} {g : List Byte → Except DecodeError (β × List Byte)}
    {k : α → β → Instr} {i : Instr} :
    decode2 r g k = .ok (i, rest) ↔ ∃ x tail, r = .ok (x, tail) ∧ ∃ y, g tail = .ok (y, rest) ∧ k x y = i := by
  rcases r with e | ⟨x, tail⟩
  · simp [decode2]
  · simp [decode2, decode1_eq_ok_iff]

/-- An operation is decoded from its bytes, whatever follows them; the program-space address of `PRINTPGM` may be of any width. -/
theorem decode_encode_append {i : Instr} (rest : List Byte) (hframe : ∀ f, i = .hwRxarrive f → f.wf = true) :
    decode (encode i ++ rest) = .ok (i, rest) := by
  cases i with
  | endCmd | available | peek | read | flush | ready | isrRx | isrTx | hwTxload | hwTxdone | gieSet | gieClr => rfl
  | beginCmd baud fmt =>
    exact decode2_eq_ok_iff.2 ⟨baud, encodeFrame fmt :: rest, decodeNat_eq_ok_iff.2 (List.append_assoc _ [_] rest).symm, fmt,
      decodeFormat_eq_ok_iff.2 rfl, rfl⟩
  | write b => rfl
  | writebuf xs => exact decode1_eq_ok_iff.2 ⟨xs, decodeSeq_eq_ok_iff.2 (List.append_assoc _ xs rest).symm, rfl⟩
  | printpgm a => exact decode1_eq_ok_iff.2 ⟨a, decodeNat_eq_ok_iff.2 rfl, rfl⟩
  | lcDivisor baud => exact decode1_eq_ok_iff.2 ⟨baud, decodeNat_eq_ok_iff.2 rfl, rfl⟩
  | rbPush q b => exact decode2_eq_ok_iff.2 ⟨q, b :: rest, decodeQueue_eq_ok_iff.2 rfl, b, rfl, rfl⟩
  | rbPop q | rbPeek q | rbAvailable q | rbIsfull q | rbIsempty q =>
    exact decode1_eq_ok_iff.2 ⟨q, decodeQueue_eq_ok_iff.2 rfl, rfl⟩
  | rbClear q form => exact decode1_eq_ok_iff.2 ⟨(q, form), decodeClear_eq_ok_iff.2 rfl, rfl⟩
  | lcFrame fmt => exact decode1_eq_ok_iff.2 ⟨fmt, decodeFormat_eq_ok_iff.2 rfl, rfl⟩
  | hwRxarrive f => exact decode1_eq_ok_iff.2 ⟨f, decodeFrameOperand_eq_ok_iff.2 ⟨hframe f rfl, rfl⟩, rfl⟩

/-- Settles O1: every operand is read back from its bytes; the one operand with a condition of its own is the frame of `HW.RXARRIVE` (R29). -/
theorem decodeOfEncodeIsIdentity : Obligations.DecodeOfEncodeIsIdentity := by
  intro c i rest hwf
  refine decode_encode_append rest ?_
  rintro f rfl
  exact hwf

/-- A record is the spelling of an operation when its first byte is the operation's code and the others are the operation's operands. -/
theorem encode_append_eq_cons {i : Instr} {op : Byte} (hop : op.toNat = (opcode i).toNat) (hoperands : encodeOperands i ++ rest = bs) :
    encode i ++ rest = op :: bs := by
  rw [encode, List.cons_append, hoperands, BitVec.eq_of_toNat_eq hop]

/-- Settles O2: under each of the 26 codes the operands that were read are spelled by the bytes they were read from. -/
theorem encodeOfDecodeIsIdentity : Obligations.EncodeOfDecodeIsIdentity := by
  intro bs i rest hdec
  unfold decode at hdec
  split at hdec
  · cases hdec
  next op bs =>
  -- `h_n` is the `n`-th arm of `decode`, under the code that `hop` names.
  split at hdec
  case h_1 hop =>
    obtain ⟨baud, tail, hbaud, fmt, hfmt, rfl⟩ := decode2_eq_ok_iff.1 hdec
    refine encode_append_eq_cons hop ?_
    rw [← decodeNat_eq_ok_iff.1 hbaud, ← decodeFormat_eq_ok_iff.1 hfmt]
    exact List.append_assoc _ [_] rest
  case h_6 hop =>
    obtain ⟨b, hb, rfl⟩ := decode1_eq_ok_iff.1 hdec
    exact encode_append_eq_cons hop (decodeByte_eq_ok_iff.1 hb)
  case h_7 hop =>
    obtain ⟨xs, hxs, rfl⟩ := decode1_eq_ok_iff.1 hdec
    exact encode_append_eq_cons hop ((List.append_assoc _ xs rest).trans (decodeSeq_eq_ok_iff.1 hxs))
  case h_10 hop | h_18 hop =>
    obtain ⟨n, hn, rfl⟩ := decode1_eq_ok_iff.1 hdec
    exact encode_append_eq_cons hop (decodeNat_eq_ok_iff.1 hn)
  case h_11 hop =>
    obtain ⟨q, tail, hq, b, hb, rfl⟩ := decode2_eq_ok_iff.1 hdec
    refine encode_append_eq_cons hop ?_
    rw [← decodeQueue_eq_ok_iff.1 hq, ← decodeByte_eq_ok_iff.1 hb]
    rfl
  case h_12 hop | h_13 hop | h_14 hop | h_15 hop | h_16 hop =>
    obtain ⟨q, hq, rfl⟩ := decode1_eq_ok_iff.1 hdec
    exact encode_append_eq_cons hop (decodeQueue_eq_ok_iff.1 hq)
  case h_17 hop =>
    obtain ⟨x, hx, rfl⟩ := decode1_eq_ok_iff.1 hdec
    exact encode_append_eq_cons hop (decodeClear_eq_ok_iff.1 hx)
  case h_19 hop =>
    obtain ⟨fmt, hfmt, rfl⟩ := decode1_eq_ok_iff.1 hdec
    exact encode_append_eq_cons hop (decodeFormat_eq_ok_iff.1 hfmt)
  case h_24 hop =>
    obtain ⟨f, hf, rfl⟩ := decode1_eq_ok_iff.1 hdec
    obtain ⟨-, hbytes⟩ := decodeFrameOperand_eq_ok_iff.1 hf
    exact encode_append_eq_cons hop hbytes
  case h_27 => cases hdec
  all_goals
    next hop =>
      cases hdec
      exact encode_append_eq_cons hop rfl

/-! ## Reserved frame formats (R78) -/

/-- The record of a `BEGIN` whose format byte is reserved. -/
theorem decode_begin_reserved (baud : Nat) (rest : List Byte) (hfmt : decodeFrame b = none) :
    decode (0x01 :: (encodeNat baud ++ b :: rest)) = .error .reservedFormat := by
  show decode2 (decodeNat (encodeNat baud ++ b :: rest)) decodeFormat .beginCmd = _
  rw [Machine.decodeNat_encodeNat, decode2]
  simp only [decodeFormat_cons_reserved rest hfmt, decode1]

theorem decode_lcFrame_reserved (rest : List Byte) (hfmt : decodeFrame b = none) :
    decode (0x21 :: b :: rest) = .error .reservedFormat := by
  show decode1 (decodeFormat (b :: rest)) .lcFrame = _
  rw [decodeFormat_cons_reserved rest hfmt, decode1]

/-- Settles O4: the count runs through all 256 bytes; a reserved format is refused by its operand's decoder, after any `baud`, and the step that reads
the record of `BEGIN` gives that refusal. -/
theorem reservedFrameFormatRefused : Obligations.ReservedFrameFormatRefused := by
  refine ⟨by decide, fun baud fmt rest hfmt => ⟨decode_begin_reserved baud rest hfmt, decode_lcFrame_reserved rest hfmt⟩, ?_⟩
  intro s t j baud fmt rest ts hturns hfmt hsel
  exact Machine.step_refused_of_fetch hturns (Machine.fetch_undecodable hsel (decode_begin_reserved baud rest hfmt))

/-- Settles O6: each record is written out, and the decoder is run on it. -/
theorem sampleRecordsDecode : Obligations.SampleRecordsDecode :=
  ⟨rfl, rfl, rfl, rfl, rfl, rfl, rfl, rfl, rfl, rfl, rfl⟩

end Sys2Proof
end

section
/-! PROOF. The step with nothing scheduled (spec/00_scope.md R5, R6, R8): an enabled move, none yet, or a stop. -/

namespace Sys2Proof.Machine

variable {s : State}

theorem step_unscheduled (hturns : s.turns = []) : step s = progress s := by
  rw [step, hturns]

/-- Settles O8: the three cases of the block's own progress, told apart by whether a move is enabled. -/
theorem unscheduledStepIsAnEnabledMove : Obligations.UnscheduledStepIsAnEnabledMove := by
  intro s hturns
  rw [step_unscheduled hturns]
  rcases progress_cases s with ⟨hmoves, e⟩ | ⟨m, hm, k, e⟩ | ⟨hmoves, hfg, e⟩
  · refine ⟨fun hne => (hne hmoves).elim, fun _ hpc => ?_, fun _ hpc => ?_⟩
    · rw [e, if_pos hpc]
    · rw [e, if_neg hpc]
  · have hne := List.ne_nil_of_mem hm
    exact ⟨fun _ => .inl ⟨m, hm, k, e⟩, fun hmoves => (hne hmoves).elim, fun hmoves => (hne hmoves).elim⟩
  · exact ⟨fun _ => .inr ⟨hfg, e⟩, fun hnil => (hmoves hnil).elim, fun hnil => (hmoves hnil).elim⟩

end Sys2Proof.Machine
end
